-- ==== Sys2Proof/Word.lean ====
section
/-!
DEFINITION. The word types of the block: the 64-bit command word (rule R70) and the widths of its registers.
All arithmetic of the rules is on mathematical integers (rule R13) and stands in Machine/Arith.lean.
-/

namespace Sys2Proof

/-- A command word on port `cmd` (rule R70). -/
abbrev CmdWord := BitVec 64

/-- A byte of a command word carried as bytes (rule R54). -/
abbrev Byte := BitVec 8

/-- The 8-bit field `a`: a channel number, register number or small selector (rule R70). -/
abbrev Sel := BitVec 8

/-- A 16-bit quantity: a raw sample or effective value (`VAL_W`), an audio sample (`SAMPLE_W`), an index operand. -/
abbrev Half := BitVec 16

/-- A 32-bit value: the field `c`, the response value, a signed register (rules R70, R74, R205). -/
abbrev Value := BitVec 32

end Sys2Proof
end

