-- ==== Sys2Proof/Syntax.lean ====
section
/-!
DEFINITION. The commands of the block: one constructor per row of spec/opcode_table.json (rules R71, R75), with the
operand fields that the command does not reserve, in the order `a`, `b`, `c` and at the width of their fields. How a
field is read (zero- or sign-extended, and its legal range) is rule R73's and stands with the meanings.
-/

namespace Sys2Proof

/-- A command (rule R75). -/
inductive Instr where
  /-- Rule R200. -/
  | nop
  /-- Rule R201: read register number `r`. -/
  | rd (r : Sel)
  /-- Rule R202: write `v` to register number `r`. -/
  | wr (r : Sel) (v : Value)
  /-- Rule R101: update channel `ch` with the raw sample `raw`. -/
  | upd (ch : Sel) (raw : Half)
  /-- Rule R104. -/
  | updall
  /-- Rule R106. -/
  | conv
  /-- Rule R109: the effective value of channel `ch`. -/
  | val (ch : Sel)
  /-- Rule R122: lock channel `ch` with snap target `target`. -/
  | lock (ch : Sel) (target : Half)
  /-- Rule R123. -/
  | unlock (ch : Sel)
  /-- Rule R125: lock the channels of `mask` with the staged targets. -/
  | lockm (mask : Half)
  /-- Rule R126. -/
  | unlockm
  /-- Rule R150. -/
  | eval
  /-- Rule R151: evaluate immediate operands. -/
  | evali (cv coarse : Half)
  /-- Rule R153: quantise `PITCH` to grid code `grid`. -/
  | qnt (grid : Sel)
  /-- Rule R156. -/
  | cal0
  /-- Rule R157. -/
  | cal1
  /-- Rule R158. -/
  | cal3
  /-- Rule R176. -/
  | rbegin
  /-- Rule R178: write `sample` at index `idx` of the render slot. -/
  | swr (idx sample : Half)
  /-- Rule R180: read the sync bit at index `idx` of the render slot. -/
  | rsync (idx : Half)
  /-- Rule R182. -/
  | adv
  /-- Rule R184. -/
  | trgtake
  /-- Rule R186. -/
  | trgset
  deriving DecidableEq, Repr

/-- The mnemonic of a command (rule R71). -/
def Instr.mnemonic : Instr → String
  | .nop => "NOP"
  | .rd _ => "RD"
  | .wr _ _ => "WR"
  | .upd _ _ => "UPD"
  | .updall => "UPDALL"
  | .conv => "CONV"
  | .val _ => "VAL"
  | .lock _ _ => "LOCK"
  | .unlock _ => "UNLOCK"
  | .lockm _ => "LOCKM"
  | .unlockm => "UNLOCKM"
  | .eval => "EVAL"
  | .evali _ _ => "EVALI"
  | .qnt _ => "QNT"
  | .cal0 => "CAL0"
  | .cal1 => "CAL1"
  | .cal3 => "CAL3"
  | .rbegin => "RBEGIN"
  | .swr _ _ => "SWR"
  | .rsync _ => "RSYNC"
  | .adv => "ADV"
  | .trgtake => "TRGTAKE"
  | .trgset => "TRGSET"

end Sys2Proof
end

