-- ==== Sys2Proof/Decode.lean ====
section
/-!
DEFINITION. The command word (rules R70 to R78): its fields, the decoder, total on all words and on any bytes, the
encoder, and the opcode table with its `match` and `mask` columns.
-/

namespace Sys2Proof

/-- Field `op`, bits 63:56 (rule R70). -/
def fieldOp (w : CmdWord) : BitVec 8 := w.extractLsb' 56 8

/-- Field `a`, bits 55:48 (rule R70). -/
def fieldA (w : CmdWord) : Sel := w.extractLsb' 48 8

/-- Field `b`, bits 47:32 (rule R70). -/
def fieldB (w : CmdWord) : Half := w.extractLsb' 32 16

/-- Field `c`, bits 31:0 (rule R70). -/
def fieldC (w : CmdWord) : Value := w.extractLsb' 0 32

/-- `c[31:16]`, reserved in the commands whose operand is `c[15:0]` (rule R71). -/
def fieldCHigh (w : CmdWord) : Half := w.extractLsb' 16 16

/-- `c[15:0]` (rule R71). -/
def fieldCLow (w : CmdWord) : Half := w.extractLsb' 0 16

/-- `w = op ++ a ++ b ++ c` (rule R70). -/
def packWord (op : BitVec 8) (a : Sel) (b : Half) (c : Value) : CmdWord := op ++ a ++ b ++ c

/-- Why a word, or a string of bytes, is no command. The block answers `BAD_OP` to the first two (rules R72, R76). -/
inductive DecodeError where
  /-- `op` is none of the 23 opcodes (rule R76). -/
  | unknownOpcode
  /-- A bit of a field reserved for the opcode is 1 (rule R72). -/
  | reservedBits
  /-- The bytes are not eight: no command word at all (rule R77). -/
  | notOneWord
  deriving DecidableEq, Repr

/-- The result of decoding. -/
inductive Decoded where
  | command (i : Instr)
  | rejected (e : DecodeError)
  deriving DecidableEq, Repr

/-- The check of rule R72: `i` where the reserved fields are zero. -/
def whenReservedZero (zero : Bool) (i : Instr) : Decoded :=
  if zero then .command i else .rejected .reservedBits

/-- The decoder (rules R71, R72, R75, R76). -/
def decode (w : CmdWord) : Decoded :=
  let a := fieldA w
  let b := fieldB w
  let c := fieldC w
  let hi := fieldCHigh w
  let lo := fieldCLow w
  match (fieldOp w).toNat with
  | 0x00 => whenReservedZero (a == 0 && b == 0 && c == 0) .nop
  | 0x01 => whenReservedZero (b == 0 && c == 0) (.rd a)
  | 0x02 => whenReservedZero (b == 0) (.wr a c)
  | 0x10 => whenReservedZero (b == 0 && hi == 0) (.upd a lo)
  | 0x11 => whenReservedZero (a == 0 && b == 0 && c == 0) .updall
  | 0x12 => whenReservedZero (a == 0 && b == 0 && c == 0) .conv
  | 0x13 => whenReservedZero (b == 0 && c == 0) (.val a)
  | 0x20 => whenReservedZero (b == 0 && hi == 0) (.lock a lo)
  | 0x21 => whenReservedZero (b == 0 && c == 0) (.unlock a)
  | 0x22 => whenReservedZero (a == 0 && b == 0 && hi == 0) (.lockm lo)
  | 0x23 => whenReservedZero (a == 0 && b == 0 && c == 0) .unlockm
  | 0x30 => whenReservedZero (a == 0 && b == 0 && c == 0) .eval
  | 0x31 => whenReservedZero (a == 0 && hi == 0) (.evali b lo)
  | 0x32 => whenReservedZero (b == 0 && c == 0) (.qnt a)
  | 0x33 => whenReservedZero (a == 0 && b == 0 && c == 0) .cal0
  | 0x34 => whenReservedZero (a == 0 && b == 0 && c == 0) .cal1
  | 0x35 => whenReservedZero (a == 0 && b == 0 && c == 0) .cal3
  | 0x40 => whenReservedZero (a == 0 && b == 0 && c == 0) .rbegin
  | 0x41 => whenReservedZero (a == 0 && hi == 0) (.swr b lo)
  | 0x42 => whenReservedZero (a == 0 && c == 0) (.rsync b)
  | 0x43 => whenReservedZero (a == 0 && b == 0 && c == 0) .adv
  | 0x44 => whenReservedZero (a == 0 && b == 0 && c == 0) .trgtake
  | 0x45 => whenReservedZero (a == 0 && b == 0 && c == 0) .trgset
  | _ => .rejected .unknownOpcode

/-- A 16-bit operand in `c[15:0]`, with `c[31:16]` zero. -/
def lowOperand (x : Half) : Value := x.zeroExtend 32

/-- The encoder: the fields of rule R71, reserved fields zero. -/
def encode : Instr → CmdWord
  | .nop => packWord 0x00 0 0 0
  | .rd r => packWord 0x01 r 0 0
  | .wr r v => packWord 0x02 r 0 v
  | .upd ch raw => packWord 0x10 ch 0 (lowOperand raw)
  | .updall => packWord 0x11 0 0 0
  | .conv => packWord 0x12 0 0 0
  | .val ch => packWord 0x13 ch 0 0
  | .lock ch target => packWord 0x20 ch 0 (lowOperand target)
  | .unlock ch => packWord 0x21 ch 0 0
  | .lockm mask => packWord 0x22 0 0 (lowOperand mask)
  | .unlockm => packWord 0x23 0 0 0
  | .eval => packWord 0x30 0 0 0
  | .evali cv coarse => packWord 0x31 0 cv (lowOperand coarse)
  | .qnt grid => packWord 0x32 grid 0 0
  | .cal0 => packWord 0x33 0 0 0
  | .cal1 => packWord 0x34 0 0 0
  | .cal3 => packWord 0x35 0 0 0
  | .rbegin => packWord 0x40 0 0 0
  | .swr idx sample => packWord 0x41 0 idx (lowOperand sample)
  | .rsync idx => packWord 0x42 0 idx 0
  | .adv => packWord 0x43 0 0 0
  | .trgtake => packWord 0x44 0 0 0
  | .trgset => packWord 0x45 0 0 0

/-- A word from its bytes, byte 0 holding bits 7 to 0 (rule R54). -/
def wordOfBytes : List Byte → Nat
  | [] => 0
  | b :: rest => b.toNat + 256 * wordOfBytes rest

/-- The decoder on bytes: a command is exactly eight bytes, least significant first (rules R54, R77). -/
def decodeBytes (bytes : List Byte) : Decoded :=
  if bytes.length = 8 then decode (BitVec.ofNat 64 (wordOfBytes bytes)) else .rejected .notOneWord

/-- The `n` low bytes of a number, least significant first (rule R54). -/
def bytesOfNat : Nat → Nat → List Byte
  | 0, _ => []
  | n + 1, x => BitVec.ofNat 8 x :: bytesOfNat n (x / 256)

/-- A command as its eight bytes (rule R54). -/
def encodeBytes (i : Instr) : List Byte := bytesOfNat 8 (encode i).toNat

/-- The number of an instruction whose low `nbits` bits are those of `w` and whose other bits are 0. -/
def tableWord (nbits w : Nat) : CmdWord := BitVec.ofNat 64 (w % 2 ^ nbits)

/-- The command the decoder reads from the eight bytes of an opcode-table word. -/
def decodeTableWord (nbits w : Nat) : Option Instr :=
  match decodeBytes (bytesOfNat 8 (tableWord nbits w).toNat) with
  | .command i => some i
  | .rejected _ => none

/-- A row of spec/opcode_table.json: mnemonic, `match` and `mask` (rule R78). -/
structure TableRow where
  mnemonic : String
  pattern : CmdWord
  mask : CmdWord
  deriving DecidableEq, Repr

/-- A word selects a row when `w & mask = match` (rule R78). -/
def TableRow.selects (r : TableRow) (w : CmdWord) : Bool := w &&& r.mask == r.pattern

/-- The rows of spec/opcode_table.json, transcribed. -/
def opcodeTable : List TableRow := [
  ⟨"NOP", 0x0000000000000000, 0xFFFFFFFFFFFFFFFF⟩,
  ⟨"RD", 0x0100000000000000, 0xFF00FFFFFFFFFFFF⟩,
  ⟨"WR", 0x0200000000000000, 0xFF00FFFF00000000⟩,
  ⟨"UPD", 0x1000000000000000, 0xFF00FFFFFFFF0000⟩,
  ⟨"UPDALL", 0x1100000000000000, 0xFFFFFFFFFFFFFFFF⟩,
  ⟨"CONV", 0x1200000000000000, 0xFFFFFFFFFFFFFFFF⟩,
  ⟨"VAL", 0x1300000000000000, 0xFF00FFFFFFFFFFFF⟩,
  ⟨"LOCK", 0x2000000000000000, 0xFF00FFFFFFFF0000⟩,
  ⟨"UNLOCK", 0x2100000000000000, 0xFF00FFFFFFFFFFFF⟩,
  ⟨"LOCKM", 0x2200000000000000, 0xFFFFFFFFFFFF0000⟩,
  ⟨"UNLOCKM", 0x2300000000000000, 0xFFFFFFFFFFFFFFFF⟩,
  ⟨"EVAL", 0x3000000000000000, 0xFFFFFFFFFFFFFFFF⟩,
  ⟨"EVALI", 0x3100000000000000, 0xFFFF0000FFFF0000⟩,
  ⟨"QNT", 0x3200000000000000, 0xFF00FFFFFFFFFFFF⟩,
  ⟨"CAL0", 0x3300000000000000, 0xFFFFFFFFFFFFFFFF⟩,
  ⟨"CAL1", 0x3400000000000000, 0xFFFFFFFFFFFFFFFF⟩,
  ⟨"CAL3", 0x3500000000000000, 0xFFFFFFFFFFFFFFFF⟩,
  ⟨"RBEGIN", 0x4000000000000000, 0xFFFFFFFFFFFFFFFF⟩,
  ⟨"SWR", 0x4100000000000000, 0xFFFF0000FFFF0000⟩,
  ⟨"RSYNC", 0x4200000000000000, 0xFFFF0000FFFFFFFF⟩,
  ⟨"ADV", 0x4300000000000000, 0xFFFFFFFFFFFFFFFF⟩,
  ⟨"TRGTAKE", 0x4400000000000000, 0xFFFFFFFFFFFFFFFF⟩,
  ⟨"TRGSET", 0x4500000000000000, 0xFFFFFFFFFFFFFFFF⟩]

end Sys2Proof
end

