-- ==== Sys2Proof/Machine/Arith.lean ====
section
/-!
DEFINITION. The functions of the notation (rules R12 to R15), on mathematical integers.
-/

namespace Sys2Proof.Machine

/-- `u32(x)`, the 32-bit two's complement pattern of `x` (rule R12). -/
def u32 (x : Int) : Value := BitVec.ofInt 32 x

/-- The 16-bit pattern of `x`, for the registers of 16 bits (rule R13: the rule that writes one shows that `x` fits;
log entry 14). -/
def u16 (x : Int) : Half := BitVec.ofInt 16 x

/-- Division rounded toward zero (rule R14). -/
def tdiv (a b : Int) : Int := Int.tdiv a b

/-- `clamp(x, lo, hi)` (rule R15). -/
def clamp (x lo hi : Int) : Int := if x < lo then lo else if hi < x then hi else x

end Sys2Proof.Machine
end

