-- ==== Sys2Proof/Config.lean ====
section
/-!
DEFINITION. The parameters of rule R10. Those with a legal range are fields of `Config`; those the rule fixes are
constants. Every rule is written for any legal value, so the machine takes its configuration from the state
(log entry 3) and no step changes it.
-/

namespace Sys2Proof

/-- The open parameters of rule R10. -/
structure Config where
  /-- `NCH`, number of analog channels. -/
  nch : Nat
  /-- `POTS`, zero-extended to 16 bits: bit `ch` is 1 when channel `ch` is a pot channel. -/
  pots : Half
  /-- `CH_CV`, the channel of the pitch CV. -/
  chCv : Nat
  /-- `CH_COARSE`, the channel of the coarse pitch control. -/
  chCoarse : Nat
  /-- `SNAP_TOL`, the snap tolerance. -/
  snapTol : Nat
  /-- `NB`, ring slots. -/
  nb : Nat
  /-- `BS`, samples per block. -/
  bs : Nat
  /-- `PITCH_MAX`, the largest pitch code. -/
  pitchMax : Nat
  /-- `CV_CENTER`, the CV value taken as zero offset by the FREE law. -/
  cvCenter : Nat
  /-- `T_SAMPLE`, the tick period: OPEN, `none` where the configuration states none; read by no rule (log entry 12). -/
  tSample : Option Nat
  deriving DecidableEq, Repr

/-- `PB_LEAD`, fixed at `NB div 2` (rule R10). -/
def Config.pbLead (c : Config) : Nat := c.nb / 2

/-- `SEMI`, pitch-code units per semitone (rules R10, R140). -/
def Config.semi : Int := 128

/-- `OCTAVE`, pitch-code units per octave (rules R10, R140). -/
def Config.octave : Int := 12 * Config.semi

/-- `CAL_SPAN`, two octaves (rule R10). -/
def Config.calSpan : Int := 2 * Config.octave

/-- `CAL_LOW_CODE`, the pitch code of note C2 = 36 (rule R10). -/
def Config.calLowCode : Int := 36 * Config.semi

/-- `COARSE_SPAN`, 48 semitones (rule R10). -/
def Config.coarseSpan : Int := 48 * Config.semi

/-- `EXT_SHIFT`, the right shift of the EXTENDED law (rule R10). -/
def Config.extShift : Nat := 3

/-- The legal ranges of rule R10. -/
abbrev Config.Legal (c : Config) : Prop :=
  1 ≤ c.nch ∧ c.nch ≤ 16 ∧ c.pots.toNat < 2 ^ c.nch ∧ c.chCv < c.nch ∧ c.chCoarse < c.nch ∧
  c.snapTol ≤ 65535 ∧ 2 ≤ c.nb ∧ c.nb ≤ 16 ∧ 1 ≤ c.bs ∧ c.bs ≤ 255 ∧
  1 ≤ c.pitchMax ∧ c.pitchMax ≤ 65535 ∧ c.cvCenter ≤ 65535

/-- Channel `ch` exists and is a pot channel (rules R10, R21). -/
def Config.isPot (c : Config) (ch : Nat) : Bool := decide (ch < c.nch) && c.pots.getLsbD ch

/-- The reference configuration of rules R10 and R11. -/
def Config.reference : Config where
  nch := 8
  pots := 0x00F0
  chCv := 0
  chCoarse := 4
  snapTol := 0x40
  nb := 4
  bs := 24
  pitchMax := 16383
  cvCenter := 32768
  tSample := none

end Sys2Proof
end

