-- ==== Sys2Proof/Machine/State.lean ====
section
/-!
DEFINITION. The state of the block (rule R20), the inputs of its ports (rules R8, R79), its response port (rule R74),
the ways a step can stop, and the state right after reset (rules R47, R250). Plain data throughout.
-/

namespace Sys2Proof.Machine

/-- The pitch laws, `LAW` codes 0 to 4 (rule R32). Codes 5 to 7 can never be stored (rule R204; log entry 10). -/
inductive Law where
  | external
  | lfo
  | free
  | fixed440
  | extended
  deriving DecidableEq, Repr

/-- The contents of `FCAUSE`: 0 none, 1 RING_COLLISION; no other value is ever produced (rules R41, R203; log entry 10). -/
inductive FaultCause where
  | none
  | ringCollision
  deriving DecidableEq, Repr

/-- The status codes of a response; codes 8 to 15 are never produced (rule R74). -/
inductive Status where
  | ok
  | calFail
  | notReady
  | badOp
  | badArg
  | badSeq
  | unconfig
  | faulted
  deriving DecidableEq, Repr

/-- One response `(st, val)` (rule R74). -/
structure Response where
  st : Status
  val : Value
  deriving DecidableEq, Repr

/-- The nine registers of a channel (rules R20 to R31). -/
structure Channel where
  /-- `K[ch]`, the smoothing window (rule R23). -/
  k : BitVec 8
  /-- `SM[ch]`, the smoothed value, signed (rule R22). -/
  sm : Value
  /-- `RAW[ch]`, the raw sample latch (rule R24). -/
  raw : Half
  /-- `is_locked[ch]` (rule R25). -/
  isLocked : Bool
  /-- `is_snapped[ch]` (rule R25). -/
  isSnapped : Bool
  /-- `LOCKEDV[ch]` (rule R26). -/
  lockedv : Half
  /-- `SNAPV[ch]` (rule R27). -/
  snapv : Half
  /-- `OFFS[ch]` (rule R29). -/
  offs : Half
  /-- `LKT[ch]` (rule R30). -/
  lkt : Half
  deriving DecidableEq, Repr

/-- One plane of the ring memory: (element key, element) pairs, keys strictly rising, no element listed that is 0, the
value an unlisted element reads as (rules R43, R52; log entry 9). The key of `(slot, idx)` is `slot * BS + idx`. -/
abbrev Plane (w : Nat) := List (Nat × BitVec w)

/-- The ring memory: two planes (rules R43, R50). -/
structure RingMemory where
  /-- `AUDIO[slot][idx]`, 16-bit two's complement samples. -/
  audio : Plane 16
  /-- `SYNC[slot][idx]`, one bit each. -/
  sync : Plane 1
  deriving DecidableEq, Repr

/-- The whole state of the block, the tuple of rule R20. -/
structure Block where
  /-- The per-channel registers, channel 0 first; `NCH` of them (rule R21). -/
  chans : List Channel
  /-- `conv_pending` (rule R39). -/
  convPending : Bool
  /-- `LAW` (rule R32). -/
  law : Law
  /-- `CAL_SCALE`, signed (rule R33). -/
  calScale : Value
  /-- `CAL_OFFSET`, signed (rule R33). -/
  calOffset : Value
  /-- `CAL_R1` (rule R34). -/
  calR1 : Half
  /-- `PITCH` (rule R35). -/
  pitch : Half
  /-- `rb`, the render block (rule R36). -/
  rb : BitVec 4
  /-- `pb`, the playback block (rule R36). -/
  pb : BitVec 4
  /-- `cs`, the current sample (rule R36). -/
  cs : BitVec 8
  /-- `rendering` (rule R37). -/
  rendering : Bool
  /-- `trig_pending` (rule R38). -/
  trigPending : Bool
  /-- `xrun` (rule R39). -/
  xrun : Bool
  /-- `gate_prev` (rule R39). -/
  gatePrev : Bool
  /-- `fault` (rule R41). -/
  fault : Bool
  /-- `FCAUSE` (rule R41). -/
  fcause : FaultCause
  /-- `DACOUT` (rule R42). -/
  dacout : Half
  /-- The ring memory (rule R43). -/
  mem : RingMemory
  deriving DecidableEq, Repr

/-- What an agent brings to the block's ports in one step (rules R7, R8, R79). -/
inductive Input where
  /-- HOST: a command word on port `cmd`. -/
  | cmd (w : CmdWord)
  /-- TICK: the tick strobe with the level of port `gate`. -/
  | tick (gate : Bool)
  /-- ADC: the scan-complete strobe with its raw samples, channel 0 first. -/
  | adcDone (raws : List Half)
  /-- RESET. -/
  | reset
  deriving DecidableEq, Repr

/-- The machine: the block's state `block`, and three fields of the model's own: the configuration it was built for
(log entry 3), the inputs still to come in the order in which they reach the block (log entry 1), and the response that
the last step put on port `resp`, `none` where that step was no command (log entry 4). -/
structure State where
  cfg : Config
  block : Block
  inputs : List Input
  resp : Option Response
  deriving DecidableEq, Repr

/-- Why the model stops with a fault. The block's own FAULT state is no outcome of this type: it is the register
`fault`, and the block goes on answering (rule R227). -/
inductive Fault where
  /-- Raised by the ring accesses of SWR, RSYNC and TICK when their index registers name an element that does not exist:
  `slot` is not below `NB` or `idx` not below `BS` (rule R51). No run from reset meets it (rule R48 (e)). Safe. -/
  | ringAddress (slot idx : Nat)
  deriving DecidableEq, Repr

/-- Why the model refuses to step. A command that the block refuses is no outcome of this type: it is a next state with
an error status (rule R9). -/
inductive Refusal where
  /-- Answered by an arm of `exec` whose instruction has no meaning yet; no arm does. Safe. -/
  | notModelled (mnemonic : String)
  /-- An ADCDONE stands next in the inputs while `conv_pending = 0`, where the ADC agent has no step (rule R107;
  log entry 6). Safe. -/
  | adcNotEnabled
  /-- An ADCDONE stands next in the inputs whose scan does not have one sample per channel (rule R79; log entry 7). Safe. -/
  | scanWidth
  deriving DecidableEq, Repr

/-- The outcome of a step of this machine. -/
abbrev Result := Host.Outcome State Fault Refusal

/-- A channel after reset (rule R47). -/
def Channel.reset : Channel where
  k := 0
  sm := 0
  raw := 0
  isLocked := false
  isSnapped := true
  lockedv := 0
  snapv := 0
  offs := 0
  lkt := 0

/-- The block after RESET, for any configuration (rules R47, R250). -/
def Block.reset (cfg : Config) : Block where
  chans := List.replicate cfg.nch Channel.reset
  convPending := false
  law := .external
  calScale := 0
  calOffset := 0
  calR1 := 0
  pitch := 0
  rb := 0
  pb := BitVec.ofNat 4 cfg.pbLead
  cs := 0
  rendering := false
  trigPending := false
  xrun := false
  gatePrev := false
  fault := false
  fcause := .none
  dacout := 0x8000
  mem := { audio := [], sync := [] }

/-- The machine after RESET in a given configuration: no input waiting, nothing on port `resp`. -/
def State.resetIn (cfg : Config) : State where
  cfg := cfg
  block := Block.reset cfg
  inputs := []
  resp := none

/-- The machine right after reset, in the reference configuration (rules R10, R47). -/
def State.reset : State := State.resetIn Config.reference

end Sys2Proof.Machine
end

