-- ==== Sys2Proof/Machine/Ops.lean ====
section
/-!
DEFINITION. The named operations over the state: state updates, responses, the guards of a command, entry into the FAULT
state, the channel registers, and the ring memory. The meanings are written over these.
-/

namespace Sys2Proof.Machine

/-! ### Updates of the state -/

/-- The block's state replaced. -/
def State.withBlock (s : State) (b : Block) : State := { s with block := b }

/-- What port `resp` carries after the step. -/
def State.withResp (s : State) (r : Option Response) : State := { s with resp := r }

/-- The inputs still to come replaced. -/
def State.withInputs (s : State) (is : List Input) : State := { s with inputs := is }

/-! ### Responses (rules R9, R16, R74) -/

/-- `respond(st, val)` in the state as it stands. -/
def State.respond (s : State) (st : Status) (val : Value) : Result :=
  .next (s.withResp (some { st := st, val := val }))

/-- `refuse(st)`: respond `(st, 0)`; the block's state is untouched (rules R16, R223). -/
def State.refuse (s : State) (st : Status) : Result := s.respond st 0

/-- A completed command: the block's new state, and the response `(OK, val)`. -/
def State.complete (s : State) (b : Block) (val : Value) : Result := (s.withBlock b).respond .ok val

/-- An event's step: the block's new state, and nothing on port `resp`. -/
def State.advance (s : State) (b : Block) : Result := .next ((s.withBlock b).withResp none)

/-! ### Guards: the checks of a command in the order of rule R224 -/

/-- Step 1 of rule R224: in FAULT the command is refused `FAULTED` (rule R227). -/
def State.unlessFaulted (s : State) (k : Result) : Result :=
  if s.block.fault then s.refuse .faulted else k

/-- A later step of rule R224: refused `st` where the condition fails. -/
def State.require (s : State) (cond : Bool) (st : Status) (k : Result) : Result :=
  if cond then k else s.refuse st

/-! ### Taking the fault (rule R226) -/

/-- The block in the FAULT state for `cause`; nothing else is written. -/
def Block.faulted (b : Block) (cause : FaultCause) : Block := { b with fault := true, fcause := cause }

/-- `raise Fault(cause)`: the one atomic step of rule R226. There is no return from it but RESET (rule R227). -/
def State.raiseFault (s : State) (cause : FaultCause) : Result :=
  (s.withBlock (s.block.faulted cause)).respond .faulted 0

/-! ### Channels -/

/-- The registers of channel `ch`. -/
def Block.chan (b : Block) (ch : Nat) : Channel := b.chans.getD ch Channel.reset

/-- The registers of channel `ch` replaced. -/
def Block.setChan (b : Block) (ch : Nat) (c : Channel) : Block := { b with chans := b.chans.set ch c }

/-- Every channel rewritten by a function of its number and its registers: the loops `for ch = 0, 1, ..., NCH-1`, whose
order cannot be observed (rule R105). -/
def Block.mapChans (b : Block) (f : Nat → Channel → Channel) : Block := { b with chans := b.chans.mapIdx f }

/-- The effective value of a channel (rule R121). -/
def Channel.value (c : Channel) : Int :=
  if c.isLocked then c.lockedv.toNat
  else if c.isSnapped then c.sm.toInt
  else c.snapv.toNat

/-- `value(ch)` (rule R121). -/
def Block.value (b : Block) (ch : Nat) : Int := (b.chan ch).value

/-! ### Ring memory (rules R51, R52) -/

/-- The element at a key: the one listed, else the reset value 0 (rule R52). -/
def planeRead {w : Nat} : Plane w → Nat → BitVec w
  | [], _ => 0
  | (k, v) :: rest, a => if k = a then v else planeRead rest a

/-- An element put in front of the entries of larger key; the value 0 is not listed. -/
def planeCons {w : Nat} (a : Nat) (v : BitVec w) (rest : Plane w) : Plane w :=
  if v = 0 then rest else (a, v) :: rest

/-- The element at a key replaced, in canonical form. -/
def planeWrite {w : Nat} : Plane w → Nat → BitVec w → Plane w
  | [], a, v => planeCons a v []
  | (k, u) :: rest, a, v =>
    if a < k then planeCons a v ((k, u) :: rest)
    else if a = k then planeCons a v rest
    else (k, u) :: planeWrite rest a v

/-- The canonical form of a plane: keys strictly rising, no element listed that is 0. -/
abbrev planeWf {w : Nat} (p : Plane w) : Prop :=
  p.Pairwise (fun x y => x.1 < y.1) ∧ ∀ x ∈ p, x.2 ≠ 0

/-- The canonical form of the ring memory. -/
abbrev RingMemory.wf (m : RingMemory) : Prop := planeWf m.audio ∧ planeWf m.sync

/-- The key of the ring address `(slot, idx)`, `none` where there is no such address (rule R51). -/
def ringKey (cfg : Config) (slot idx : Nat) : Option Nat :=
  if slot < cfg.nb ∧ idx < cfg.bs then some (slot * cfg.bs + idx) else none

/-- An access to the ring at `(slot, idx)`: the model's fault where there is no such address. -/
def State.atRing (s : State) (slot idx : Nat) (k : Nat → Result) : Result :=
  match ringKey s.cfg slot idx with
  | some key => k key
  | none => .fault (.ringAddress slot idx)

/-- `RingRead(slot, idx, AUDIO)` at a key (rule R52). -/
def Block.audioAt (b : Block) (key : Nat) : Half := planeRead b.mem.audio key

/-- `RingRead(slot, idx, SYNC)` at a key (rule R52). -/
def Block.syncAt (b : Block) (key : Nat) : BitVec 1 := planeRead b.mem.sync key

/-- `RingWrite(slot, idx, AUDIO, v)` at a key (rule R52). -/
def Block.setAudio (b : Block) (key : Nat) (v : Half) : Block :=
  { b with mem := { b.mem with audio := planeWrite b.mem.audio key v } }

/-- `RingWrite(slot, idx, SYNC, v)` at a key (rule R52). -/
def Block.setSync (b : Block) (key : Nat) (v : BitVec 1) : Block :=
  { b with mem := { b.mem with sync := planeWrite b.mem.sync key v } }

/-- The slot after `slot` in the ring (rules R173, R182). -/
def nextSlot (cfg : Config) (slot : BitVec 4) : BitVec 4 := BitVec.ofNat 4 ((slot.toNat + 1) % cfg.nb)

/-- `free`, the slots the producer may still render before it must wait (rule R63). -/
def Block.free (b : Block) (cfg : Config) : Nat := (b.pb.toNat + cfg.nb - b.rb.toNat) % cfg.nb

/-- `ready`, the slots the consumer owns (rule R63). -/
def Block.ready (b : Block) (cfg : Config) : Nat := cfg.nb - b.free cfg

/-! ### Output ports (rule R8) -/

/-- Port `dac_out`. -/
def State.dacOut (s : State) : Half := s.block.dacout

/-- Port `adc_req`. -/
def State.adcReq (s : State) : Bool := s.block.convPending

end Sys2Proof.Machine
end

