-- ==== Sys2Proof/Machine/Flags.lean ====
section
/-!
DEFINITION. The codes of the closed types, the composite registers, and the computations of the flags `is_snapped`,
`trig_pending` and `xrun`.
-/

namespace Sys2Proof.Machine

/-- The 4-bit code of a status (rule R74). -/
def Status.code : Status → BitVec 4
  | .ok => 0
  | .calFail => 1
  | .notReady => 2
  | .badOp => 3
  | .badArg => 4
  | .badSeq => 5
  | .unconfig => 6
  | .faulted => 7

/-- The 3-bit code of a law (rule R32). -/
def Law.code : Law → BitVec 3
  | .external => 0
  | .lfo => 1
  | .free => 2
  | .fixed440 => 3
  | .extended => 4

/-- The law with a code, `none` for the values that are not legal (rules R32, R204). -/
def lawOfCode (v : Nat) : Option Law :=
  match v with
  | 0 => some .external
  | 1 => some .lfo
  | 2 => some .free
  | 3 => some .fixed440
  | 4 => some .extended
  | _ => none

/-- The 4-bit code of a fault cause (rule R41). -/
def FaultCause.code : FaultCause → BitVec 4
  | .none => 0
  | .ringCollision => 1

/-- `ID` (rules R44, R203). -/
def idWord : Value := 0x454D4131

/-- `STATUS` (rule R44): the six flags in bits 0 to 5, bits 31 to 6 zero. -/
def Block.statusWord (b : Block) : Value :=
  (0 : BitVec 26) ++ BitVec.ofBool b.fault ++ BitVec.ofBool b.gatePrev ++ BitVec.ofBool b.convPending ++
    BitVec.ofBool b.xrun ++ BitVec.ofBool b.trigPending ++ BitVec.ofBool b.rendering

/-- `RING` (rule R44): `cs` in bits 7 to 0, `pb` in bits 11 to 8, `rb` in bits 15 to 12, bits 31 to 16 zero. -/
def Block.ringWord (b : Block) : Value := (0 : BitVec 16) ++ b.rb ++ b.pb ++ b.cs

/-- `LSTATE[ch]` (rule R203): `is_locked` in bit 0, `is_snapped` in bit 1. -/
def Channel.lstateWord (c : Channel) : Value :=
  (0 : BitVec 30) ++ BitVec.ofBool c.isSnapped ++ BitVec.ofBool c.isLocked

/-- The condition of the snap check (rule R124): waiting, and within the tolerance, inclusive. -/
def Channel.snaps (c : Channel) (tol : Nat) : Bool :=
  !c.isLocked && !c.isSnapped && decide ((c.sm.toInt - c.snapv.toNat).natAbs ≤ tol)

/-- `snap_check(ch)` (rule R124). -/
def Channel.snapCheck (c : Channel) (tol : Nat) : Channel :=
  if c.snaps tol then { c with isSnapped := true } else c

/-- The rising-edge bit of a tick (rule R172). -/
def risingEdge (gate gatePrev : Bool) : Bool := gate && !gatePrev

/-- `trig_pending` after a tick whose edge bit is `edge`: set by an edge, never cleared (rule R172). -/
def trigAfterEdge (edge trigPending : Bool) : Bool := edge || trigPending

/-- `xrun` after the consumer has entered slot `pb`: set when that slot is `rb`, never cleared (rule R174). -/
def xrunAfterEntering (pb rb : BitVec 4) (xrun : Bool) : Bool := pb == rb || xrun

end Sys2Proof.Machine
end

