-- ==== Sys2Proof/Machine/Operands.lean ====
section
/-!
DEFINITION. The operand forms of the commands (rule R73): channel numbers, masks, sample indices, grid codes, and the
register map of rule R203 with its reads (rules R201, R205, R206) and its legal writes (rule R204).
-/

namespace Sys2Proof.Machine

/-- Channel number `ch` exists (rules R73, R221). -/
def channelExists (cfg : Config) (ch : Sel) : Bool := decide (ch.toNat < cfg.nch)

/-- Channel number `ch` exists and is a pot channel (rules R122, R123). -/
def potExists (cfg : Config) (ch : Sel) : Bool := cfg.isPot ch.toNat

/-- Every 1 bit of the mask stands at a pot channel: `mask & ~POTS = 0` (rule R125). -/
def maskLegal (cfg : Config) (mask : Half) : Bool := mask &&& ~~~cfg.pots == 0

/-- The sample index lies in the block (rules R51, R73). -/
def indexExists (cfg : Config) (idx : Half) : Bool := decide (idx.toNat < cfg.bs)

/-- The grid code is 0, 1 or 2 (rule R153). -/
def gridLegal (grid : Sel) : Bool := decide (grid.toNat ≤ 2)

/-- The grid step of a grid code in pitch-code units, `none` for code 0, off (rule R153). -/
def gridStep (grid : Sel) : Option Nat :=
  match grid.toNat with
  | 1 => some 64
  | 2 => some 128
  | _ => none

/-- The registers of the map (rule R203). -/
inductive Reg where
  | id
  | status
  | fcause
  | law
  | calScale
  | calOffset
  | calR1
  | pitch
  | ring
  | dacout
  | k (ch : Nat)
  | sm (ch : Nat)
  | lstate (ch : Nat)
  | lockedv (ch : Nat)
  | snapv (ch : Nat)
  | offs (ch : Nat)
  | raw (ch : Nat)
  | lkt (ch : Nat)
  deriving DecidableEq, Repr

/-- The register group with a high digit of `1` to `8`, for the channel `ch` (rule R203). -/
def groupReg (group ch : Nat) : Option Reg :=
  match group with
  | 1 => some (.k ch)
  | 2 => some (.sm ch)
  | 3 => some (.lstate ch)
  | 4 => some (.lockedv ch)
  | 5 => some (.snapv ch)
  | 6 => some (.offs ch)
  | 7 => some (.raw ch)
  | 8 => some (.lkt ch)
  | _ => none

/-- The register with a number below `0x10` (rule R203). -/
def globalReg (r : Nat) : Option Reg :=
  match r with
  | 0x00 => some .id
  | 0x01 => some .status
  | 0x02 => some .fcause
  | 0x03 => some .law
  | 0x04 => some .calScale
  | 0x05 => some .calOffset
  | 0x06 => some .calR1
  | 0x07 => some .pitch
  | 0x08 => some .ring
  | 0x09 => some .dacout
  | _ => none

/-- The register with number `r`, `none` where the map has none (rule R203). -/
def regOf (cfg : Config) (r : Sel) : Option Reg :=
  if r.toNat < 16 then globalReg r.toNat
  else if r.toNat % 16 < cfg.nch then groupReg (r.toNat / 16) (r.toNat % 16)
  else none

/-- `read(r)` (rules R201, R203, R205). -/
def readReg (b : Block) : Reg → Value
  | .id => idWord
  | .status => b.statusWord
  | .fcause => b.fcause.code.zeroExtend 32
  | .law => b.law.code.zeroExtend 32
  | .calScale => b.calScale
  | .calOffset => b.calOffset
  | .calR1 => b.calR1.zeroExtend 32
  | .pitch => b.pitch.zeroExtend 32
  | .ring => b.ringWord
  | .dacout => b.dacout.zeroExtend 32
  | .k ch => (b.chan ch).k.zeroExtend 32
  | .sm ch => (b.chan ch).sm
  | .lstate ch => (b.chan ch).lstateWord
  | .lockedv ch => (b.chan ch).lockedv.zeroExtend 32
  | .snapv ch => (b.chan ch).snapv.zeroExtend 32
  | .offs ch => (b.chan ch).offs.zeroExtend 32
  | .raw ch => (b.chan ch).raw.zeroExtend 32
  | .lkt ch => (b.chan ch).lkt.zeroExtend 32

/-- `reg(r) <- v`: the block with the value stored, `none` where the register is read-only or the value is not legal
for it (rules R202, R204). -/
def writeReg (b : Block) (v : Value) : Reg → Option Block
  | .law => (lawOfCode v.toNat).map fun l => { b with law := l }
  | .calScale => some { b with calScale := v }
  | .calOffset => some { b with calOffset := v }
  | .k ch =>
    if 1 ≤ v.toNat ∧ v.toNat ≤ 255 then some (b.setChan ch { b.chan ch with k := v.truncate 8 }) else none
  | .offs ch =>
    if v.toNat ≤ 65535 then some (b.setChan ch { b.chan ch with offs := v.truncate 16 }) else none
  | .lkt ch =>
    if v.toNat ≤ 65535 then some (b.setChan ch { b.chan ch with lkt := v.truncate 16 }) else none
  | .id => none
  | .status => none
  | .fcause => none
  | .calR1 => none
  | .pitch => none
  | .ring => none
  | .dacout => none
  | .sm _ => none
  | .lstate _ => none
  | .lockedv _ => none
  | .snapv _ => none
  | .raw _ => none

end Sys2Proof.Machine
end

