-- ==== Sys2Proof/Machine/LockSnap.lean ====
section
/-!
DEFINITION. The lock and snap commands LOCK, UNLOCK, LOCKM, UNLOCKM (rules R122, R123, R125, R126).
-/

namespace Sys2Proof.Machine

/-- The four writes of LOCK (rule R122): the effective value before the command is captured. -/
def Channel.lock (c : Channel) (target : Half) : Channel :=
  { c with lockedv := u16 c.value, snapv := target, isLocked := true, isSnapped := false }

/-- The body of UNLOCK (rule R123): no effect on a channel that is not LOCKED. -/
def Channel.unlock (c : Channel) : Channel :=
  if c.isLocked then { c with snapv := c.lockedv, isLocked := false, isSnapped := false } else c

/-- LOCK `ch, target` (rule R122). -/
def execLock (ch : Sel) (target : Half) (s : State) : Result :=
  s.unlessFaulted <|
  s.require (potExists s.cfg ch) .badArg <|
    s.complete (s.block.setChan ch.toNat ((s.block.chan ch.toNat).lock target)) 0

/-- UNLOCK `ch` (rule R123). -/
def execUnlock (ch : Sel) (s : State) : Result :=
  s.unlessFaulted <|
  s.require (potExists s.cfg ch) .badArg <|
    s.complete (s.block.setChan ch.toNat (s.block.chan ch.toNat).unlock) 0

/-- LOCKM `mask` (rule R125): each masked channel is locked with its staged target `LKT[ch]`. -/
def execLockm (mask : Half) (s : State) : Result :=
  s.unlessFaulted <|
  s.require (maskLegal s.cfg mask) .badArg <|
    s.complete (s.block.mapChans fun ch c => if mask.getLsbD ch then c.lock c.lkt else c) 0

/-- UNLOCKM (rule R126): every pot channel that is LOCKED is unlocked. -/
def execUnlockm (s : State) : Result :=
  s.unlessFaulted <|
    s.complete (s.block.mapChans fun ch c => if s.cfg.isPot ch then c.unlock else c) 0

end Sys2Proof.Machine
end

