-- ==== Sys2Proof/Machine/PitchLaw.lean ====
section
/-!
DEFINITION. The pitch-law commands EVAL, EVALI, QNT and the calibration commands CAL0, CAL1, CAL3 (rules R150 to R158).
-/

namespace Sys2Proof.Machine

/-- The CV term scaled by the calibration, without its offset (rules R142, R146). -/
def cvTerm (scale cv : Int) : Int := tdiv (cv * scale) 4096

/-- `cv_note(cv)` (rule R142). -/
def cvNote (scale offset cv : Int) : Int := cvTerm scale cv + offset

/-- `coarse_off(co)` (rule R143). -/
def coarseOff (co : Int) : Int := tdiv ((co - 32768) * Config.coarseSpan) 65536

/-- `raw_pitch` under each law (rules R144 to R148). -/
def rawPitch (cfg : Config) (law : Law) (scale offset cv co : Int) : Int :=
  match law with
  | .external => cvNote scale offset cv + coarseOff co
  | .lfo => cvNote scale offset cv + coarseOff co
  | .free => 60 * Config.semi + coarseOff co + cvTerm scale (cv - cfg.cvCenter)
  | .fixed440 => 69 * Config.semi
  | .extended => (co + cv) >>> Config.extShift

/-- `evaluate(pitch_cv, pitch_coarse)` under the law and calibration of the block (rules R141, R149). -/
def Block.evaluate (b : Block) (cfg : Config) (cv co : Int) : Int :=
  clamp (rawPitch cfg b.law b.calScale.toInt b.calOffset.toInt cv co) 0 cfg.pitchMax

/-- The last pitch code replaced. -/
def Block.setPitch (b : Block) (p : Half) : Block := { b with pitch := p }

/-- `PITCH <- p; respond(OK, PITCH)`. -/
def State.answerPitch (s : State) (p : Half) : Result := s.complete (s.block.setPitch p) (p.zeroExtend 32)

/-- `round_to_grid(p, g)`, the mask-and-add idiom (rule R154). -/
def roundToGrid (cfg : Config) (p g : Nat) : Int :=
  clamp ((BitVec.ofNat 32 (p + g / 2) &&& ~~~(BitVec.ofNat 32 (g - 1))).toNat) 0 cfg.pitchMax

/-- EVAL (rule R150). -/
def execEval (s : State) : Result :=
  s.unlessFaulted <|
    s.answerPitch (u16 (s.block.evaluate s.cfg (s.block.value s.cfg.chCv) (s.block.value s.cfg.chCoarse)))

/-- EVALI `pitch_cv, pitch_coarse` (rule R151). -/
def execEvali (cv coarse : Half) (s : State) : Result :=
  s.unlessFaulted <|
    s.answerPitch (u16 (s.block.evaluate s.cfg cv.toNat coarse.toNat))

/-- QNT `grid` (rule R153). -/
def execQnt (grid : Sel) (s : State) : Result :=
  s.unlessFaulted <|
  s.require (gridLegal grid) .badArg <|
    match gridStep grid with
    | some g => s.answerPitch (u16 (roundToGrid s.cfg s.block.pitch.toNat g))
    | none => s.answerPitch s.block.pitch

/-- CAL0 (rule R156): the effective value of every pot channel into its `OFFS`. -/
def execCal0 (s : State) : Result :=
  s.unlessFaulted <|
    s.complete (s.block.mapChans fun ch c => if s.cfg.isPot ch then { c with offs := u16 c.value } else c) 0

/-- CAL1 (rule R157). -/
def execCal1 (s : State) : Result :=
  s.unlessFaulted <|
    let r := u16 (s.block.value s.cfg.chCv)
    s.complete { s.block with calR1 := r } (r.zeroExtend 32)

/-- The scale of two readings (rule R158). -/
def calScaleOf (r1 r2 : Int) : Int := tdiv (Config.calSpan * 4096) (r2 - r1)

/-- The offset that anchors the low reading (rule R158). -/
def calOffsetOf (r1 scale : Int) : Int := Config.calLowCode - tdiv (r1 * scale) 4096

/-- CAL3 (rule R158): with equal readings `CAL_FAIL` and nothing written. -/
def execCal3 (s : State) : Result :=
  s.unlessFaulted <|
    let r1 : Int := s.block.calR1.toNat
    let r2 := s.block.value s.cfg.chCv
    s.require (decide (r2 ≠ r1)) .calFail <|
      let scale := calScaleOf r1 r2
      s.complete { s.block with calScale := u32 scale, calOffset := u32 (calOffsetOf r1 scale) } (u32 scale)

end Sys2Proof.Machine
end

