-- ==== Sys2Proof/Machine/Scheduler.lean ====
section
/-!
DEFINITION. The scheduler commands RBEGIN, SWR, RSYNC, ADV, TRGTAKE, TRGSET (rules R176 to R186).
-/

namespace Sys2Proof.Machine

/-- RBEGIN (rule R176). -/
def execRbegin (s : State) : Result :=
  s.unlessFaulted <|
  s.require (!s.block.rendering) .badSeq <|
  s.require (s.block.rb != s.block.pb) .notReady <|
    s.complete { s.block with rendering := true } (s.block.rb.zeroExtend 32)

/-- SWR `idx, sample` (rules R178, R226): the one command that can enter FAULT. -/
def execSwr (idx sample : Half) (s : State) : Result :=
  s.unlessFaulted <|
  s.require (indexExists s.cfg idx) .badArg <|
    if s.block.rendering then
      s.atRing s.block.rb.toNat idx.toNat fun key => s.complete (s.block.setAudio key sample) 0
    else if s.block.rb = s.block.pb then s.raiseFault .ringCollision
    else s.refuse .badSeq

/-- RSYNC `idx` (rule R180). -/
def execRsync (idx : Half) (s : State) : Result :=
  s.unlessFaulted <|
  s.require (indexExists s.cfg idx) .badArg <|
  s.require s.block.rendering .badSeq <|
    s.atRing s.block.rb.toNat idx.toNat fun key => s.respond .ok ((s.block.syncAt key).zeroExtend 32)

/-- ADV (rule R182). -/
def execAdv (s : State) : Result :=
  s.unlessFaulted <|
  s.require s.block.rendering .badSeq <|
    let rb' := nextSlot s.cfg s.block.rb
    s.complete { s.block with rb := rb', rendering := false } (rb'.zeroExtend 32)

/-- TRGTAKE (rule R184): read and clear in one step. -/
def execTrgtake (s : State) : Result :=
  s.unlessFaulted <|
    s.complete { s.block with trigPending := false } ((BitVec.ofBool s.block.trigPending).zeroExtend 32)

/-- TRGSET (rule R186). -/
def execTrgset (s : State) : Result :=
  s.unlessFaulted <| s.complete { s.block with trigPending := true } 0

end Sys2Proof.Machine
end

