-- ==== Sys2Proof/Machine/Smoothing.lean ====
section
/-!
DEFINITION. The smoothing commands UPD, UPDALL, CONV, VAL (rules R101, R104, R106, R109).
-/

namespace Sys2Proof.Machine

/-- The update function of the smoother (rule R100; conflict C1 is resolved for this form). -/
def ema (s raw k : Int) : Int := tdiv ((k - 1) * s + raw) k

/-- A channel after one update with a raw sample: the new `SM`, in every lock state (rule R102), then the snap check on it
(rules R101, R124). -/
def Channel.update (c : Channel) (tol : Nat) (raw : Half) : Channel :=
  { c with sm := u32 (ema c.sm.toInt raw.toNat c.k.toNat) }.snapCheck tol

/-- The window of a channel is configured (rule R23). -/
def Channel.configured (c : Channel) : Bool := c.k != 0

/-- UPD `ch, raw` (rule R101). -/
def execUpd (ch : Sel) (raw : Half) (s : State) : Result :=
  s.unlessFaulted <|
  s.require (channelExists s.cfg ch) .badArg <|
  s.require (s.block.chan ch.toNat).configured .unconfig <|
    let c := (s.block.chan ch.toNat).update s.cfg.snapTol raw
    s.complete (s.block.setChan ch.toNat c) c.sm

/-- UPDALL (rule R104). -/
def execUpdall (s : State) : Result :=
  s.unlessFaulted <|
  s.require (s.block.chans.all Channel.configured) .unconfig <|
    s.complete (s.block.mapChans fun _ c => c.update s.cfg.snapTol c.raw) 0

/-- CONV (rule R106). -/
def execConv (s : State) : Result :=
  s.unlessFaulted <| s.complete { s.block with convPending := true } 0

/-- VAL `ch` (rule R109). -/
def execVal (ch : Sel) (s : State) : Result :=
  s.unlessFaulted <|
  s.require (channelExists s.cfg ch) .badArg <|
    s.respond .ok (u32 (s.block.value ch.toNat))

end Sys2Proof.Machine
end

