-- ==== Sys2Proof/Machine/System.lean ====
section
/-!
DEFINITION. The system commands NOP, RD, WR (rules R200 to R202). NOP and RD execute in FAULT as in any other state
(rule R227), so they alone have no check of `fault`.
-/

namespace Sys2Proof.Machine

/-- NOP (rule R200). -/
def execNop (s : State) : Result := s.respond .ok 0

/-- RD `r` (rule R201). -/
def execRd (r : Sel) (s : State) : Result :=
  match regOf s.cfg r with
  | some reg => s.respond .ok (readReg s.block reg)
  | none => s.refuse .badArg

/-- WR `r, v` (rules R202, R204). -/
def execWr (r : Sel) (v : Value) (s : State) : Result :=
  s.unlessFaulted <|
    match (regOf s.cfg r).bind (writeReg s.block v) with
    | some b => s.complete b 0
    | none => s.refuse .badArg

end Sys2Proof.Machine
end

