-- ==== Sys2Proof/Machine/Dispatch.lean ====
section
/-! DEFINITION. One arm per command, each one direct call of its meaning. -/

namespace Sys2Proof.Machine

def exec (i : Instr) (s : State) : Host.Outcome State Fault Refusal :=
  match i with
  | .nop => Sys2Proof.Machine.execNop s
  | .rd r => Sys2Proof.Machine.execRd r s
  | .wr r v => Sys2Proof.Machine.execWr r v s
  | .upd ch raw => Sys2Proof.Machine.execUpd ch raw s
  | .updall => Sys2Proof.Machine.execUpdall s
  | .conv => Sys2Proof.Machine.execConv s
  | .val ch => Sys2Proof.Machine.execVal ch s
  | .lock ch target => Sys2Proof.Machine.execLock ch target s
  | .unlock ch => Sys2Proof.Machine.execUnlock ch s
  | .lockm mask => Sys2Proof.Machine.execLockm mask s
  | .unlockm => Sys2Proof.Machine.execUnlockm s
  | .eval => Sys2Proof.Machine.execEval s
  | .evali cv coarse => Sys2Proof.Machine.execEvali cv coarse s
  | .qnt grid => Sys2Proof.Machine.execQnt grid s
  | .cal0 => Sys2Proof.Machine.execCal0 s
  | .cal1 => Sys2Proof.Machine.execCal1 s
  | .cal3 => Sys2Proof.Machine.execCal3 s
  | .rbegin => Sys2Proof.Machine.execRbegin s
  | .swr idx sample => Sys2Proof.Machine.execSwr idx sample s
  | .rsync idx => Sys2Proof.Machine.execRsync idx s
  | .adv => Sys2Proof.Machine.execAdv s
  | .trgtake => Sys2Proof.Machine.execTrgtake s
  | .trgset => Sys2Proof.Machine.execTrgset s

end Sys2Proof.Machine
end

