-- ==== Sys2Proof/Machine/Events.lean ====
section
/-!
DEFINITION. The steps that are no commands (rule R79): TICK (rule R170), ADCDONE (rule R107), RESET (rule R250). None of
them gives a response.
-/

namespace Sys2Proof.Machine

/-- The sample sent to the sink: offset binary (rule R171). -/
def dacCode (sample : Half) : Half := u16 ((sample.toInt + 32768) % 65536)

/-- The advance of the consumer, with the wrap and the underrun flag (rules R173, R174). -/
def Block.advanceConsumer (b : Block) (cfg : Config) : Block :=
  if b.cs.toNat + 1 < cfg.bs then { b with cs := b.cs + 1 }
  else
    let pb' := nextSlot cfg b.pb
    { b with cs := 0, pb := pb', xrun := xrunAfterEntering pb' b.rb b.xrun }

/-- The body of TICK on the ring element `key` that the consumer stands on (rule R170): data first, flag second, indices
last (rule R59). -/
def Block.tickAt (b : Block) (cfg : Config) (key : Nat) (gate : Bool) : Block :=
  let edge := risingEdge gate b.gatePrev
  let b1 := { b with dacout := dacCode (b.audioAt key) }.setSync key (BitVec.ofBool edge)
  { b1 with gatePrev := gate, trigPending := trigAfterEdge edge b1.trigPending }.advanceConsumer cfg

/-- TICK `g` (rule R170): no effect in FAULT (rule R227). -/
def tickStep (gate : Bool) (s : State) : Result :=
  if s.block.fault then s.advance s.block
  else s.atRing s.block.pb.toNat s.block.cs.toNat fun key => s.advance (s.block.tickAt s.cfg key gate)

/-- ADCDONE `v` (rule R107): only while `conv_pending = 1`; no effect in FAULT (rule R227). -/
def adcDoneStep (raws : List Half) (s : State) : Result :=
  if !s.block.convPending then .refused .adcNotEnabled
  else if raws.length ≠ s.cfg.nch then .refused .scanWidth
  else if s.block.fault then s.advance s.block
  else
    s.advance { s.block.mapChans (fun ch c => { c with raw := raws.getD ch c.raw }) with convPending := false }

/-- RESET (rule R250): every piece of the block's state at its reset value, from any state. -/
def resetStep (s : State) : Result := s.advance (Block.reset s.cfg)

end Sys2Proof.Machine
end

