-- ==== Sys2Proof/Machine/Port.lean ====
section
/-!
DEFINITION. The command port and the step of each agent: what a command word, a tick, a scan and a reset do
(rules R7, R9, R224).
-/

namespace Sys2Proof.Machine

/-- The opcodes that FAULT does not refuse: NOP and RD (rule R224, step 1). -/
def servedInFault (w : CmdWord) : Bool := fieldOp w == 0x00 || fieldOp w == 0x01

/-- Steps 1 and 2 of rule R224, before any operand is looked at: FAULTED comes before decoding, then BAD_OP. -/
def acceptWord (fault : Bool) (w : CmdWord) : Except Status Instr :=
  if fault && !servedInFault w then .error .faulted
  else
    match decode w with
    | .command i => .ok i
    | .rejected _ => .error .badOp

/-- HOST: one command word, executed whole (rules R3, R9). -/
def commandStep (w : CmdWord) (s : State) : Result :=
  match acceptWord s.block.fault w with
  | .ok i => exec i s
  | .error st => s.refuse st

/-- The order in which a tick and a command reach the block that an implementation sees in one cycle: the tick first
(rule R66; log entry 13). -/
def sameCycle (gate : Bool) (w : CmdWord) : List Input := [.tick gate, .cmd w]

/-- One step of the agent that an input belongs to (rule R7). -/
def inputStep (i : Input) (s : State) : Result :=
  match i with
  | .cmd w => commandStep w s
  | .tick gate => tickStep gate s
  | .adcDone raws => adcDoneStep raws s
  | .reset => resetStep s

end Sys2Proof.Machine
end

