-- ==== Sys2Proof/Machine/Step.lean ====
section
/-!
DEFINITION. One step: the oldest waiting input is taken and its agent steps (rule R58; log entry 1). With no input
waiting nothing happens (rule R252; log entry 5).
-/

namespace Sys2Proof.Machine

/-- One atomic step of the machine. -/
def step (s : State) : Host.Outcome State Fault Refusal :=
  match s.inputs with
  | [] => .next s
  | i :: rest => inputStep i (s.withInputs rest)

/-- The state with a command word next on port `cmd` (log entry 2). -/
def State.withFetchWord (s : State) (nbits w : Nat) : State :=
  s.withInputs (.cmd (tableWord nbits w) :: s.inputs)

end Sys2Proof.Machine
end

