-- ==== Sys2Proof/Machine/Assembler.lean ====
section
/-!
DEFINITION. The host's notation: assembler syntax (rule R80) and the pseudo-commands, each a fixed sequence of commands
(rule R81; log entry 19). The block itself knows neither.
-/

namespace Sys2Proof.Machine

/-- The operands of a command as numbers, in the order `a`, `b`, `c`, reserved fields left out (rule R80). -/
def operandsOf : Instr → List Int
  | .rd r => [r.toNat]
  | .wr r v => [r.toNat, v.toNat]
  | .upd ch raw => [ch.toNat, raw.toNat]
  | .val ch => [ch.toNat]
  | .lock ch target => [ch.toNat, target.toNat]
  | .unlock ch => [ch.toNat]
  | .lockm mask => [mask.toNat]
  | .evali cv coarse => [cv.toNat, coarse.toNat]
  | .qnt grid => [grid.toNat]
  | .swr idx sample => [idx.toNat, sample.toInt]
  | .rsync idx => [idx.toNat]
  | .nop => []
  | .updall => []
  | .conv => []
  | .unlockm => []
  | .eval => []
  | .cal0 => []
  | .cal1 => []
  | .cal3 => []
  | .rbegin => []
  | .adv => []
  | .trgtake => []
  | .trgset => []

/-- A command written with its mnemonic and its operands in decimal, separated by commas (rule R80). -/
def assembly (i : Instr) : String :=
  match operandsOf i with
  | [] => i.mnemonic
  | ops => i.mnemonic ++ " " ++ String.intercalate ", " (ops.map toString)

/-- The pseudo-commands (rule R81). -/
inductive Pseudo where
  | read
  /-- The mask, and the snapshot values of its channels in ascending order of channel. -/
  | lockpots (mask : Half) (targets : List Half)
  | unlockpots
  /-- The wait in which RBEGIN is answered `NOT_READY` a number of times before it is `OK`. -/
  | waitrender (notReady : Nat)
  | setk (ch : Nat) (k : Value)
  | loadcal (scale offset : Value)
  deriving DecidableEq, Repr

/-- The channels of a mask, in ascending order. -/
def maskChannels (mask : Half) : List Nat := (List.range 16).filter fun ch => mask.getLsbD ch

/-- The commands that a pseudo-command abbreviates (rule R81). -/
def Pseudo.expand : Pseudo → List Instr
  | .read => [.updall, .conv, .eval]
  | .lockpots mask targets =>
    List.zipWith (fun ch v => .wr (BitVec.ofNat 8 (0x80 + ch)) (v.zeroExtend 32)) (maskChannels mask) targets ++
      [.lockm mask]
  | .unlockpots => [.unlockm]
  | .waitrender n => List.replicate (n + 1) .rbegin
  | .setk ch k => [.wr (BitVec.ofNat 8 (0x10 + ch)) k]
  | .loadcal s o => [.wr 0x04 s, .wr 0x05 o]

end Sys2Proof.Machine
end

