-- ==== Sys2Proof/Safety.lean ====
section
/-!
DEFINITION. What a safe state and a safe run are: the invariants of every reachable state (rule R48), the ring
discipline of rules R64 and R188, and a run of the machine in which the block never enters FAULT and never underruns.
-/

namespace Sys2Proof.Machine

/-- A channel as rule R48 (a) to (d) has it: `SM` in range, LOCKED excludes snapped, and a plain channel's lock registers
at their reset values (rule R31). -/
abbrev ChannelOk (isPot : Bool) (c : Channel) : Prop :=
  0 ≤ c.sm.toInt ∧ c.sm.toInt ≤ 65535 ∧ (c.isLocked = true → c.isSnapped = false) ∧
  (isPot = false → c.isLocked = false ∧ c.isSnapped = true ∧ c.lockedv = 0 ∧ c.snapv = 0)

/-- `NCH` channels, each as it should be. -/
abbrev ChannelsOk (cfg : Config) (b : Block) : Prop :=
  b.chans.length = cfg.nch ∧ ∀ ch, ch < cfg.nch → ChannelOk (cfg.isPot ch) (b.chan ch)

/-- The ring indices in range (rule R48 (e)). -/
abbrev IndicesOk (cfg : Config) (b : Block) : Prop :=
  b.rb.toNat < cfg.nb ∧ b.pb.toNat < cfg.nb ∧ b.cs.toNat < cfg.bs

/-- The ring memory in canonical form, every listed element at an address that exists. -/
abbrev RingOk (cfg : Config) (b : Block) : Prop :=
  b.mem.wf ∧ (∀ x ∈ b.mem.audio, x.1 < cfg.nb * cfg.bs) ∧ (∀ x ∈ b.mem.sync, x.1 < cfg.nb * cfg.bs)

/-- `FCAUSE` agrees with `fault` (rule R48 (g)); the FAULT state is entered, and frozen, outside a pass with `rb = pb`
(rules R178, R227). -/
abbrev FaultOk (b : Block) : Prop :=
  (b.fcause ≠ .none ↔ b.fault = true) ∧ (b.fault = true → b.rendering = false ∧ b.rb = b.pb)

/-- The producer is mid-write in the consumer's slot only where the underrun is recorded (rule R188). -/
abbrev PassOk (b : Block) : Prop := b.rendering = true → b.rb = b.pb → b.xrun = true

/-- The invariant of every reachable state (rules R48, R188). -/
abbrev BlockOk (cfg : Config) (b : Block) : Prop :=
  ChannelsOk cfg b ∧ IndicesOk cfg b ∧ b.pitch.toNat ≤ cfg.pitchMax ∧ FaultOk b ∧ PassOk b ∧ RingOk cfg b

/-- The invariant, with a legal configuration. -/
abbrev State.Inv (s : State) : Prop := s.cfg.Legal ∧ BlockOk s.cfg s.block

/-- A safe state: no collision has happened and no underrun (rules R174, R178). -/
abbrev State.Safe (s : State) : Prop := s.block.fault = false ∧ s.block.xrun = false

/-- The state after `n` steps, where no step stopped the model. -/
def runSteps : Nat → State → Option State
  | 0, s => some s
  | n + 1, s =>
    match step s with
    | .next t => runSteps n t
    | .fault _ => none
    | .refused _ => none

/-- The state after a sequence of commands with nothing between them, where none stopped the model. -/
def execAll : List Instr → State → Option State
  | [], s => some s
  | i :: rest, s =>
    match exec i s with
    | .next t => execAll rest t
    | .fault _ => none
    | .refused _ => none

/-- The block after a sequence of ticks with the given gate levels, outside FAULT (rule R170). -/
def ticks (cfg : Config) : List Bool → Block → Block
  | [], b => b
  | g :: gs, b => ticks cfg gs (b.tickAt cfg (b.pb.toNat * cfg.bs + b.cs.toNat) g)

/-- A safe run of `n` steps: the model never stops, and every state on the way is safe. -/
def SafeRun : Nat → State → Prop
  | 0, s => s.Safe
  | n + 1, s => s.Safe ∧ ∃ t, step s = .next t ∧ SafeRun n t

end Sys2Proof.Machine
end

