-- ==== Sys2Proof/WellFormed.lean ====
section
/-!
DEFINITION. Well-formed commands: those whose operands lie in the ranges the spec gives them (rules R73, R203, R204,
R122, R123, R125), for a configuration. A command that is not well-formed can be encoded and is decoded as it stands;
the block refuses it `BAD_ARG` (rule R221). The conditions are written here from the numbers of the rules, apart from
the register decoder that the meanings use, so that the two can be compared.
-/

namespace Sys2Proof

/-- `r` is a number of the register map (rule R203): `0x00` to `0x09`, or one of the eight per-channel groups
`0x10` to `0x8F` with the channel in the low four bits. -/
abbrev RegNumber (cfg : Config) (r : Nat) : Prop :=
  r ≤ 0x09 ∨ (0x10 ≤ r ∧ r ≤ 0x8F ∧ r % 16 < cfg.nch)

/-- `v` may be written to register number `r`: the register is RW and `v` is legal for it (rules R203, R204). -/
abbrev WritableWith (cfg : Config) (r v : Nat) : Prop :=
  (r = 0x03 ∧ v ≤ 4) ∨ r = 0x04 ∨ r = 0x05 ∨
  (r / 16 = 1 ∧ r % 16 < cfg.nch ∧ 1 ≤ v ∧ v ≤ 255) ∨
  ((r / 16 = 6 ∨ r / 16 = 8) ∧ r % 16 < cfg.nch ∧ v ≤ 65535)

/-- The operand ranges of a command, step 3 of rule R224. -/
def Instr.wellFormed (cfg : Config) : Instr → Bool
  | .rd r => decide (RegNumber cfg r.toNat)
  | .wr r v => decide (WritableWith cfg r.toNat v.toNat)
  | .upd ch _ => decide (ch.toNat < cfg.nch)
  | .val ch => decide (ch.toNat < cfg.nch)
  | .lock ch _ => decide (ch.toNat < cfg.nch ∧ cfg.pots.getLsbD ch.toNat = true)
  | .unlock ch => decide (ch.toNat < cfg.nch ∧ cfg.pots.getLsbD ch.toNat = true)
  | .lockm mask => decide (mask &&& ~~~cfg.pots = 0)
  | .qnt grid => decide (grid.toNat ≤ 2)
  | .swr idx _ => decide (idx.toNat < cfg.bs)
  | .rsync idx => decide (idx.toNat < cfg.bs)
  | .nop => true
  | .updall => true
  | .conv => true
  | .unlockm => true
  | .eval => true
  | .evali _ _ => true
  | .cal0 => true
  | .cal1 => true
  | .cal3 => true
  | .rbegin => true
  | .adv => true
  | .trgtake => true
  | .trgset => true

end Sys2Proof
end

