-- ==== Sys2Proof/Certificates/Slice0/Obligations.lean ====
section
/-!
DEFINITION. The statements for the provers. Each is about every state and every operand unless it says otherwise; the
arithmetic of the rules is written out here and not taken from the meanings. `s.Inv` is the invariant of every reachable
state (Safety.lean), itself the statements StepKeepsInvariant and ResetMeetsInvariant.
-/

open Sys2Proof Sys2Proof.Machine

/-! ### The command word -/

/-- Rules R71, R73: every command, with every operand its fields admit, is decoded from its encoding, as a word and as
eight bytes. -/
def Obligations.DecodeOfEncode : Prop :=
  ∀ i : Instr, decode (encode i) = .command i ∧ decodeBytes (encodeBytes i) = .command i

/-- Rules R72, R76: a word that decodes to a command is that command's encoding, so no two words are one command and every
reserved bit is zero. -/
def Obligations.EncodeOfDecode : Prop :=
  ∀ (w : CmdWord) (i : Instr), decode w = .command i → encode i = w

/-- Rule R78: a word selects a row when `w & mask = match`, and then decodes to that row's command; the mask covers `op` and
the match is zero outside the mask; a word whose `op` matches a row but that does not select it is `BAD_OP`; no word selects two rows; the example. -/
def Obligations.MaskAndMatchSelectTheCommand : Prop :=
  (∀ w : CmdWord, ∀ r ∈ opcodeTable,
    (w &&& r.mask = r.pattern ↔ ∃ i, decode w = .command i ∧ i.mnemonic = r.mnemonic)) ∧
  (∀ r ∈ opcodeTable, fieldOp r.mask = 0xFF ∧ r.pattern &&& r.mask = r.pattern) ∧
  (∀ w : CmdWord, ∀ r ∈ opcodeTable, fieldOp w = fieldOp r.pattern → w &&& r.mask ≠ r.pattern →
    decode w = .rejected .reservedBits ∧ acceptWord false w = .error .badOp) ∧
  (∀ (w : CmdWord) (r q : TableRow), r ∈ opcodeTable → q ∈ opcodeTable →
    w &&& r.mask = r.pattern → w &&& q.mask = q.pattern → r = q) ∧
  (⟨"LOCK", 0x2000000000000000, 0xFF00FFFFFFFF0000⟩ : TableRow) ∈ opcodeTable ∧
  decode 0x2005000000002328 = .command (.lock 5 9000)

/-- The words that rules R78, R80 and R202 write out decode to the commands they stand for. -/
def Obligations.WrittenOutWordsDecode : Prop :=
  decode 0x0000000000000000 = .command .nop ∧
  decode 0x0215000000000004 = .command (.wr 0x15 4) ∧
  decode 0x10050000000003E8 = .command (.upd 5 1000) ∧
  decode 0x2005000000002328 = .command (.lock 5 9000) ∧
  decode 0x310080F00000C000 = .command (.evali 33008 49152) ∧
  decode 0x4100001700008000 = .command (.swr 23 0x8000)

/-- When the word at the head of the inputs decodes to a command, the step is that command's meaning in the state with the
word taken from the inputs, in FAULT too. -/
def Obligations.StepRunsDecodedCommand : Prop :=
  ∀ (s : State) (w : CmdWord) (rest : List Input) (i : Instr),
    s.inputs = .cmd w :: rest → decode w = .command i → step s = exec i { s with inputs := rest }

/-- The events step through their own rules, and with no input waiting a step changes nothing (the last clause is the
model's choice, log entry 5). -/
def Obligations.StepRunsEvents : Prop :=
  ∀ (s : State) (rest : List Input),
    (∀ g, s.inputs = .tick g :: rest → step s = tickStep g { s with inputs := rest }) ∧
    (∀ vs, s.inputs = .adcDone vs :: rest → step s = adcDoneStep vs { s with inputs := rest }) ∧
    (s.inputs = .reset :: rest → step s = resetStep { s with inputs := rest }) ∧
    (s.inputs = [] → step s = .next s)

/-- Rules R72, R76, R224: a word with an unknown opcode or a reserved bit set is answered `BAD_OP` and changes nothing;
in FAULT it is answered `FAULTED`, unless its opcode is that of NOP or RD. -/
def Obligations.IllegalWordIsRefused : Prop :=
  ∀ (s : State) (w : CmdWord) (rest : List Input) (e : DecodeError),
    s.inputs = .cmd w :: rest → decode w = .rejected e →
    step s = .next { s with inputs := rest, resp := some ⟨if s.block.fault ∧ fieldOp w ≠ 0x00 ∧ fieldOp w ≠ 0x01 then .faulted else .badOp, 0⟩ }

/-! ### System commands -/

/-- Rule R200. -/
def Obligations.NopAnswersOk : Prop :=
  (∀ w : CmdWord, fieldOp w = 0x00 →
    acceptWord false w = if w = 0 then .ok .nop else .error .badOp) ∧
  (∀ s : State, exec .nop s = .next { s with resp := some ⟨.ok, 0⟩ })

/-- Rules R44, R201, R203: RD of the registers without a channel, in every state, FAULT included: the response, and
nothing else changed. -/
def Obligations.RdReadsGlobalRegisters : Prop :=
  ∀ s : State, ∃ status ring : Value,
    exec (.rd 0x00) s = .next { s with resp := some ⟨.ok, 0x454D4131⟩ } ∧
    exec (.rd 0x01) s = .next { s with resp := some ⟨.ok, status⟩ } ∧
    status.toNat = s.block.rendering.toNat + 2 * s.block.trigPending.toNat + 4 * s.block.xrun.toNat +
      8 * s.block.convPending.toNat + 16 * s.block.gatePrev.toNat + 32 * s.block.fault.toNat ∧
    exec (.rd 0x02) s = .next { s with resp := some ⟨.ok, if s.block.fcause = .ringCollision then 1 else 0⟩ } ∧
    exec (.rd 0x03) s = .next { s with resp := some ⟨.ok, match s.block.law with
      | .external => 0 | .lfo => 1 | .free => 2 | .fixed440 => 3 | .extended => 4⟩ } ∧
    exec (.rd 0x04) s = .next { s with resp := some ⟨.ok, s.block.calScale⟩ } ∧
    exec (.rd 0x05) s = .next { s with resp := some ⟨.ok, s.block.calOffset⟩ } ∧
    exec (.rd 0x06) s = .next { s with resp := some ⟨.ok, s.block.calR1.zeroExtend 32⟩ } ∧
    exec (.rd 0x07) s = .next { s with resp := some ⟨.ok, s.block.pitch.zeroExtend 32⟩ } ∧
    exec (.rd 0x08) s = .next { s with resp := some ⟨.ok, ring⟩ } ∧
    ring.toNat = s.block.cs.toNat + 256 * s.block.pb.toNat + 4096 * s.block.rb.toNat ∧
    exec (.rd 0x09) s = .next { s with resp := some ⟨.ok, s.block.dacout.zeroExtend 32⟩ }

/-- Rules R201, R203: RD of the per-channel registers of every channel that exists, in every state. -/
def Obligations.RdReadsChannelRegisters : Prop :=
  ∀ (s : State) (ch : Nat), s.cfg.nch ≤ 16 → ch < s.cfg.nch →
    let c := s.block.chan ch
    exec (.rd (BitVec.ofNat 8 (0x10 + ch))) s = .next { s with resp := some ⟨.ok, c.k.zeroExtend 32⟩ } ∧
    exec (.rd (BitVec.ofNat 8 (0x20 + ch))) s = .next { s with resp := some ⟨.ok, c.sm⟩ } ∧
    exec (.rd (BitVec.ofNat 8 (0x30 + ch))) s = .next { s with resp := some ⟨.ok,
      (if c.isLocked then 1 else 0) + (if c.isSnapped then 2 else 0)⟩ } ∧
    exec (.rd (BitVec.ofNat 8 (0x40 + ch))) s = .next { s with resp := some ⟨.ok, c.lockedv.zeroExtend 32⟩ } ∧
    exec (.rd (BitVec.ofNat 8 (0x50 + ch))) s = .next { s with resp := some ⟨.ok, c.snapv.zeroExtend 32⟩ } ∧
    exec (.rd (BitVec.ofNat 8 (0x60 + ch))) s = .next { s with resp := some ⟨.ok, c.offs.zeroExtend 32⟩ } ∧
    exec (.rd (BitVec.ofNat 8 (0x70 + ch))) s = .next { s with resp := some ⟨.ok, c.raw.zeroExtend 32⟩ } ∧
    exec (.rd (BitVec.ofNat 8 (0x80 + ch))) s = .next { s with resp := some ⟨.ok, c.lkt.zeroExtend 32⟩ }

/-- Rule R202: WR of each writable register with each legal value (rule R204) stores it, changes nothing else and answers
`(OK, 0)`; any other WR is refused and changes nothing. -/
def Obligations.WrStoresLegalValues : Prop :=
  (∀ w : CmdWord, fieldOp w = 0x02 → acceptWord false w =
    if fieldB w = 0 then .ok (.wr (fieldA w) (fieldC w)) else .error .badOp) ∧
  (∀ (s : State) (r : Sel) (v : Value),
    (s.block.fault = true → exec (.wr r v) s = .next { s with resp := some ⟨.faulted, 0⟩ }) ∧
    (s.block.fault = false → (Instr.wr r v).wellFormed s.cfg = false →
      exec (.wr r v) s = .next { s with resp := some ⟨.badArg, 0⟩ })) ∧
  (∀ (s : State) (v : Value), s.block.fault = false →
    (v = 0 → exec (.wr 0x03 v) s = .next { s with block := { s.block with law := .external }, resp := some ⟨.ok, 0⟩ }) ∧
    (v = 1 → exec (.wr 0x03 v) s = .next { s with block := { s.block with law := .lfo }, resp := some ⟨.ok, 0⟩ }) ∧
    (v = 2 → exec (.wr 0x03 v) s = .next { s with block := { s.block with law := .free }, resp := some ⟨.ok, 0⟩ }) ∧
    (v = 3 → exec (.wr 0x03 v) s = .next { s with block := { s.block with law := .fixed440 }, resp := some ⟨.ok, 0⟩ }) ∧
    (v = 4 → exec (.wr 0x03 v) s = .next { s with block := { s.block with law := .extended }, resp := some ⟨.ok, 0⟩ }) ∧
    exec (.wr 0x04 v) s = .next { s with block := { s.block with calScale := v }, resp := some ⟨.ok, 0⟩ } ∧
    exec (.wr 0x05 v) s = .next { s with block := { s.block with calOffset := v }, resp := some ⟨.ok, 0⟩ } ∧
    (∀ ch, s.cfg.nch ≤ 16 → ch < s.cfg.nch →
      (∀ k : BitVec 8, k ≠ 0 → v = k.zeroExtend 32 → exec (.wr (BitVec.ofNat 8 (0x10 + ch)) v) s =
        .next { s with block := { s.block with chans := s.block.chans.set ch { s.block.chan ch with k := k } }, resp := some ⟨.ok, 0⟩ }) ∧
      (∀ x : Half, v = x.zeroExtend 32 → exec (.wr (BitVec.ofNat 8 (0x60 + ch)) v) s =
        .next { s with block := { s.block with chans := s.block.chans.set ch { s.block.chan ch with offs := x } }, resp := some ⟨.ok, 0⟩ }) ∧
      (∀ x : Half, v = x.zeroExtend 32 → exec (.wr (BitVec.ofNat 8 (0x80 + ch)) v) s =
        .next { s with block := { s.block with chans := s.block.chans.set ch { s.block.chan ch with lkt := x } }, resp := some ⟨.ok, 0⟩ })))

/-- Rules R205, R206: a register that a WR has written reads, at once, as the 32 bits that were written. For `LKT` of a
plain channel this is the model's choice (log entry 11): rule R31 says both that WR can write it and that it reads 0. -/
def Obligations.RdReturnsWhatWrWrote : Prop :=
  ∀ (s t : State) (r : Sel) (v : Value), s.Inv → exec (.wr r v) s = .next t → t.resp = some ⟨.ok, 0⟩ →
    exec (.rd r) t = .next { t with resp := some ⟨.ok, v⟩ }

/-- Rule R221, `BAD_ARG`: outside FAULT (and in FAULT for RD) a command is answered `BAD_ARG` exactly when it is not
well-formed: a register, channel, mask, grid code, index or value outside its range. -/
def Obligations.BadArgExactlyWhenIllFormed : Prop :=
  ∀ (s : State) (i : Instr), s.block.fault = false ∨ (∃ r, i = .rd r) →
    ((∃ t, exec i s = .next t ∧ t.resp = some ⟨.badArg, 0⟩) ↔ i.wellFormed s.cfg = false)

/-! ### Smoothing -/

/-- Rule R100: the update function, and its range. -/
def Obligations.SmootherFormulaAndRange : Prop :=
  ∀ s raw k : Int, 1 ≤ k →
    ema s raw k = Int.tdiv ((k - 1) * s + raw) k ∧
    (0 ≤ s → s ≤ 65535 → 0 ≤ raw → raw ≤ 65535 →
      0 ≤ (k - 1) * s + raw ∧ ema s raw k = ((k - 1) * s + raw) / k ∧ 0 ≤ ema s raw k ∧ ema s raw k ≤ 65535 ∧
      (k ≤ 255 → (k - 1) * s + raw ≤ 255 * 65535 ∧ (k - 1) * s + raw < 2 ^ 24))

/-- Rule R103 and conflict C1: the smoother is `s + floor((raw - s) / K)`; the other form of the source, `s + tdiv(raw - s, K)`, is
equal to it or larger by exactly 1, equal when `raw >= s` or `K` divides `s - raw` and larger otherwise. -/
def Obligations.SmootherAgainstSecondForm : Prop :=
  ∀ s raw k : Int, 0 ≤ s → 0 ≤ raw → 1 ≤ k →
    ema s raw k = s + (raw - s) / k ∧
    s + Int.tdiv (raw - s) k = ema s raw k + (if s ≤ raw ∨ k ∣ s - raw then 0 else 1)

/-- Rule R110 (a), (d): the fixed points under a constant input, monotony, and the bounds of one update. -/
def Obligations.SmootherFixedPointsAndBounds : Prop :=
  ∀ s v k : Int, 0 ≤ s → 0 ≤ v → 1 ≤ k →
    (ema s v k = s ↔ 0 ≤ v - s ∧ v - s ≤ k - 1) ∧
    min s v ≤ ema s v k ∧ ema s v k ≤ max s v ∧
    (∀ s', s ≤ s' → ema s v k ≤ ema s' v k) ∧ (∀ v', v ≤ v' → ema s v k ≤ ema s v' k)

/-- Rule R110 (c): from above, a constant input is reached exactly, after finitely many updates. -/
def Obligations.SmootherArrivesFromAbove : Prop :=
  ∀ s v k : Int, 0 ≤ v → v ≤ s → 1 ≤ k → ∃ n : Nat, (fun x => ema x v k)^[n] s = v

/-- Rule R101. -/
def Obligations.UpdUpdatesOneChannel : Prop :=
  (∀ w : CmdWord, fieldOp w = 0x10 → acceptWord false w =
    if fieldB w = 0 ∧ fieldCHigh w = 0 then .ok (.upd (fieldA w) (fieldCLow w)) else .error .badOp) ∧
  (∀ (s : State) (ch : Sel) (raw : Half), s.block.fault = false →
    let c := s.block.chan ch.toNat
    let sm' : Value := BitVec.ofInt 32 (Int.tdiv (((c.k.toNat : Int) - 1) * c.sm.toInt + raw.toNat) c.k.toNat)
    let snaps : Bool := c.isLocked = false ∧ c.isSnapped = false ∧ |sm'.toInt - c.snapv.toNat| ≤ s.cfg.snapTol
    (s.cfg.nch ≤ ch.toNat → exec (.upd ch raw) s = .next { s with resp := some ⟨.badArg, 0⟩ }) ∧
    (ch.toNat < s.cfg.nch → c.k = 0 → exec (.upd ch raw) s = .next { s with resp := some ⟨.unconfig, 0⟩ }) ∧
    (ch.toNat < s.cfg.nch → c.k ≠ 0 → exec (.upd ch raw) s = .next
      { s with
        block := { s.block with chans := s.block.chans.set ch.toNat { c with sm := sm', isSnapped := c.isSnapped || snaps } }
        resp := some ⟨.ok, sm'⟩ }))

/-- Rule R104: all or nothing; each channel is updated from its own raw latch with its own window, then snap-checked. -/
def Obligations.UpdallUpdatesEveryChannel : Prop :=
  (∀ w : CmdWord, fieldOp w = 0x11 → acceptWord false w =
    if fieldA w = 0 ∧ fieldB w = 0 ∧ fieldC w = 0 then .ok .updall else .error .badOp) ∧
  (∀ s : State, s.block.fault = false → s.block.chans.length = s.cfg.nch →
    ((∃ ch, ch < s.cfg.nch ∧ (s.block.chan ch).k = 0) →
      exec .updall s = .next { s with resp := some ⟨.unconfig, 0⟩ }) ∧
    ((∀ ch, ch < s.cfg.nch → (s.block.chan ch).k ≠ 0) →
      ∃ cs, exec .updall s = .next { s with block := { s.block with chans := cs }, resp := some ⟨.ok, 0⟩ } ∧
        cs.length = s.cfg.nch ∧
        ∀ ch, ch < s.cfg.nch →
          let c := s.block.chan ch
          let sm' : Value := BitVec.ofInt 32 (Int.tdiv (((c.k.toNat : Int) - 1) * c.sm.toInt + c.raw.toNat) c.k.toNat)
          let snaps : Bool := c.isLocked = false ∧ c.isSnapped = false ∧ |sm'.toInt - c.snapv.toNat| ≤ s.cfg.snapTol
          cs[ch]? = some { c with sm := sm', isSnapped := c.isSnapped || snaps }))

/-- Rule R106: CONV sets `conv_pending`, also when it is set, and answers `(OK, 0)`; `STATUS[3]` is then 1. -/
def Obligations.ConvRequestsAScan : Prop :=
  (∀ w : CmdWord, fieldOp w = 0x12 → acceptWord false w =
    if fieldA w = 0 ∧ fieldB w = 0 ∧ fieldC w = 0 then .ok .conv else .error .badOp) ∧
  (∀ s : State, s.block.fault = false →
    exec .conv s = .next { s with block := { s.block with convPending := true }, resp := some ⟨.ok, 0⟩ } ∧
    ∃ v : Value, exec (.rd 0x01) { s with block := { s.block with convPending := true } } =
      .next { s with block := { s.block with convPending := true }, resp := some ⟨.ok, v⟩ } ∧ v.getLsbD 3 = true)

/-- Rule R107: ADCDONE, only while `conv_pending = 1`, loads every raw latch and clears the flag; in FAULT it has no effect;
otherwise the ADC agent has no step (that the model then refuses to step is its own choice, log entry 6). -/
def Obligations.AdcDoneLoadsTheLatches : Prop :=
  ∀ (s : State) (rest : List Input) (vs : List Half), s.inputs = .adcDone vs :: rest →
    vs.length = s.cfg.nch → s.block.chans.length = s.cfg.nch →
    (s.block.convPending = false → step s = .refused .adcNotEnabled) ∧
    (s.block.convPending = true → s.block.fault = true → step s = .next { s with inputs := rest, resp := none }) ∧
    (s.block.convPending = true → s.block.fault = false →
      ∃ cs, step s = .next { s with block := { s.block with chans := cs, convPending := false }, inputs := rest, resp := none } ∧
        cs.length = s.cfg.nch ∧
        ∀ ch (v : Half), vs[ch]? = some v → cs[ch]? = some { s.block.chan ch with raw := v })

/-- Rules R109, R121: VAL answers the effective value in each of the three lock states, in `0 .. 65535`, and changes
nothing. -/
def Obligations.ValAnswersEffectiveValue : Prop :=
  (∀ w : CmdWord, fieldOp w = 0x13 → acceptWord false w =
    if fieldB w = 0 ∧ fieldC w = 0 then .ok (.val (fieldA w)) else .error .badOp) ∧
  (∀ (s : State) (ch : Sel), s.Inv → s.block.fault = false →
    let c := s.block.chan ch.toNat
    (s.cfg.nch ≤ ch.toNat → exec (.val ch) s = .next { s with resp := some ⟨.badArg, 0⟩ }) ∧
    (ch.toNat < s.cfg.nch →
      (c.isLocked = true → exec (.val ch) s = .next { s with resp := some ⟨.ok, c.lockedv.zeroExtend 32⟩ }) ∧
      (c.isLocked = false → c.isSnapped = false →
        exec (.val ch) s = .next { s with resp := some ⟨.ok, c.snapv.zeroExtend 32⟩ }) ∧
      (c.isLocked = false → c.isSnapped = true → exec (.val ch) s = .next { s with resp := some ⟨.ok, c.sm⟩ }) ∧
      (s.cfg.isPot ch.toNat = false → exec (.val ch) s = .next { s with resp := some ⟨.ok, c.sm⟩ }) ∧
      ∃ v : Value, exec (.val ch) s = .next { s with resp := some ⟨.ok, v⟩ } ∧ v.toNat ≤ 65535))

/-! ### Lock and snap -/

/-- Rule R124: the snap check, on the new smoothed value: inclusive, one way, and nothing but `is_snapped`. -/
def Obligations.SnapCheckIsInclusive : Prop :=
  ∀ (c : Channel) (tol : Nat),
    (c.isLocked = false → c.isSnapped = false → |c.sm.toInt - c.snapv.toNat| ≤ tol →
      c.snapCheck tol = { c with isSnapped := true }) ∧
    (c.isLocked = false → c.isSnapped = false → ¬ |c.sm.toInt - c.snapv.toNat| ≤ tol → c.snapCheck tol = c) ∧
    (c.isLocked = true → c.snapCheck tol = c) ∧
    (c.isSnapped = true → c.snapCheck tol = c)

/-- Rule R122: LOCK captures the effective value of the state before it. -/
def Obligations.LockCapturesEffectiveValue : Prop :=
  (∀ w : CmdWord, fieldOp w = 0x20 → acceptWord false w =
    if fieldB w = 0 ∧ fieldCHigh w = 0 then .ok (.lock (fieldA w) (fieldCLow w)) else .error .badOp) ∧
  (∀ (s : State) (ch : Sel) (target : Half), s.Inv → s.block.fault = false →
    let c := s.block.chan ch.toNat
    (s.cfg.isPot ch.toNat = false → exec (.lock ch target) s = .next { s with resp := some ⟨.badArg, 0⟩ }) ∧
    (ch.toNat < s.cfg.nch → s.cfg.pots.getLsbD ch.toNat = true →
      ∃ captured : Half,
        (c.isLocked = true → captured = c.lockedv) ∧
        (c.isLocked = false → c.isSnapped = false → captured = c.snapv) ∧
        (c.isLocked = false → c.isSnapped = true → (captured.toNat : Int) = c.sm.toInt) ∧
        exec (.lock ch target) s = .next
          { s with
            block := { s.block with chans := s.block.chans.set ch.toNat { c with lockedv := captured, snapv := target, isLocked := true, isSnapped := false } }
            resp := some ⟨.ok, 0⟩ }))

/-- Rule R123: UNLOCK of a LOCKED channel waits to snap at the locked value; of any other channel it changes nothing. -/
def Obligations.UnlockWaitsToSnap : Prop :=
  (∀ w : CmdWord, fieldOp w = 0x21 → acceptWord false w =
    if fieldB w = 0 ∧ fieldC w = 0 then .ok (.unlock (fieldA w)) else .error .badOp) ∧
  (∀ (s : State) (ch : Sel), s.block.fault = false →
    let c := s.block.chan ch.toNat
    (s.cfg.isPot ch.toNat = false → exec (.unlock ch) s = .next { s with resp := some ⟨.badArg, 0⟩ }) ∧
    (s.cfg.isPot ch.toNat = true → c.isLocked = false → exec (.unlock ch) s = .next { s with resp := some ⟨.ok, 0⟩ }) ∧
    (s.cfg.isPot ch.toNat = true → c.isLocked = true → exec (.unlock ch) s = .next
      { s with
        block := { s.block with chans := s.block.chans.set ch.toNat { c with snapv := c.lockedv, isLocked := false, isSnapped := false } }
        resp := some ⟨.ok, 0⟩ }))

/-- Rule R125: LOCKM locks exactly the masked channels with their staged targets, or refuses and locks none. -/
def Obligations.LockmLocksMaskedChannels : Prop :=
  (∀ w : CmdWord, fieldOp w = 0x22 → acceptWord false w =
    if fieldA w = 0 ∧ fieldB w = 0 ∧ fieldCHigh w = 0 then .ok (.lockm (fieldCLow w)) else .error .badOp) ∧
  (∀ (s : State) (mask : Half), s.Inv → s.block.fault = false →
    ((∃ ch, mask.getLsbD ch = true ∧ ¬ (ch < s.cfg.nch ∧ s.cfg.pots.getLsbD ch = true)) →
      exec (.lockm mask) s = .next { s with resp := some ⟨.badArg, 0⟩ }) ∧
    ((∀ ch, mask.getLsbD ch = true → ch < s.cfg.nch ∧ s.cfg.pots.getLsbD ch = true) →
      ∃ cs, exec (.lockm mask) s = .next { s with block := { s.block with chans := cs }, resp := some ⟨.ok, 0⟩ } ∧
        cs.length = s.cfg.nch ∧
        ∀ ch, ch < s.cfg.nch →
          let c := s.block.chan ch
          (mask.getLsbD ch = false → cs[ch]? = some c) ∧
          (mask.getLsbD ch = true → ∃ captured : Half, (captured.toNat : Int) = c.value ∧
            cs[ch]? = some { c with lockedv := captured, snapv := c.lkt, isLocked := true, isSnapped := false })))

/-- Rule R126: UNLOCKM unlocks every LOCKED pot channel and leaves the others. -/
def Obligations.UnlockmUnlocksEveryPot : Prop :=
  (∀ w : CmdWord, fieldOp w = 0x23 → acceptWord false w =
    if fieldA w = 0 ∧ fieldB w = 0 ∧ fieldC w = 0 then .ok .unlockm else .error .badOp) ∧
  (∀ s : State, s.block.fault = false → s.block.chans.length = s.cfg.nch →
    ∃ cs, exec .unlockm s = .next { s with block := { s.block with chans := cs }, resp := some ⟨.ok, 0⟩ } ∧
      cs.length = s.cfg.nch ∧
      ∀ ch, ch < s.cfg.nch →
        let c := s.block.chan ch
        cs[ch]? = some (if s.cfg.pots.getLsbD ch = true ∧ c.isLocked = true then
          { c with snapv := c.lockedv, isLocked := false, isSnapped := false } else c))

/-- Rule R129 (a): LOCK then UNLOCK with no update between leaves the effective value as it was, from every lock state and
for every target. -/
def Obligations.LockUnlockKeepsTheValue : Prop :=
  ∀ (s t : State) (ch : Sel) (target : Half), s.Inv → s.block.fault = false → s.cfg.isPot ch.toNat = true →
    execAll [.lock ch target, .unlock ch] s = some t →
    t.block.value ch.toNat = s.block.value ch.toNat ∧ (t.block.chan ch.toNat).sm = (s.block.chan ch.toNat).sm

/-- Rules R102, R124, R127, R129 (b), (c): through every sequence of updates, each an UPD of any channel or an UPDALL, a
LOCKED channel stays LOCKED with its effective value; a channel that is not snapped after them has the lock state and the
effective value it had before them; one that is snapped after them has its `SM` as effective value; and a snapped channel
stays snapped. An update that is refused (no such channel, no window, FAULT) is part of a sequence too and changes nothing. -/
def Obligations.FrozenUntilTheSnap : Prop :=
  ∀ (s : State) (ch : Nat) (updates : List Instr), s.Inv → ch < s.cfg.nch →
    (∀ i ∈ updates, i = .updall ∨ ∃ c raw, i = .upd c raw) →
    ∃ t, execAll updates s = some t ∧
      ((s.block.chan ch).isLocked = true → (t.block.chan ch).isLocked = true ∧ (t.block.chan ch).isSnapped = false ∧
        t.block.value ch = s.block.value ch) ∧
      ((t.block.chan ch).isSnapped = false → (t.block.chan ch).isLocked = (s.block.chan ch).isLocked ∧
        (s.block.chan ch).isSnapped = false ∧ t.block.value ch = s.block.value ch) ∧
      ((t.block.chan ch).isSnapped = true → (t.block.chan ch).isLocked = false ∧
        t.block.value ch = (t.block.chan ch).sm.toInt) ∧
      ((s.block.chan ch).isSnapped = true → (t.block.chan ch).isSnapped = true)

/-- Rule R129 (d): at the update that snaps a channel, be it an UPD or an UPDALL, the effective value of the channel moves
by at most `SNAP_TOL`. -/
def Obligations.NoJumpAtTheSnap : Prop :=
  ∀ (s t : State) (ch : Nat) (i : Instr), s.Inv → (i = .updall ∨ ∃ c raw, i = .upd c raw) → exec i s = .next t →
    (s.block.chan ch).isSnapped = false → (t.block.chan ch).isSnapped = true →
    |t.block.value ch - s.block.value ch| ≤ s.cfg.snapTol

/-! ### Pitch laws and calibration -/

/-- Rules R144 to R149: the pitch before the clamp under each law, and the clamp to `0 .. PITCH_MAX`. -/
def Obligations.PitchLawFormulas : Prop :=
  ∀ (b : Block) (cfg : Config) (cv co : Half),
    let coarse := Int.tdiv (((co.toNat : Int) - 32768) * 6144) 65536
    let note := Int.tdiv (cv.toNat * b.calScale.toInt) 4096 + b.calOffset.toInt
    let raw := rawPitch cfg b.law b.calScale.toInt b.calOffset.toInt cv.toNat co.toNat
    b.evaluate cfg cv.toNat co.toNat = max 0 (min raw cfg.pitchMax) ∧
    (b.law = .external → raw = note + coarse) ∧
    (b.law = .lfo → raw = note + coarse) ∧
    (b.law = .free → raw = 7680 + coarse + Int.tdiv (((cv.toNat : Int) - cfg.cvCenter) * b.calScale.toInt) 4096) ∧
    (b.law = .fixed440 → raw = 8832) ∧
    (b.law = .extended → raw = (((co.toNat + cv.toNat) / 8 : Nat) : Int) ∧ 0 ≤ raw ∧ raw ≤ 16383)

/-- Rules R150, R151: EVALI applies the evaluator to its operands, EVAL to the effective values of the two channels; each
stores the result in `PITCH`, which it fits, answers it, and changes nothing else. -/
def Obligations.EvalStoresAndAnswersThePitch : Prop :=
  (∀ w : CmdWord, fieldOp w = 0x30 → acceptWord false w =
    if fieldA w = 0 ∧ fieldB w = 0 ∧ fieldC w = 0 then .ok .eval else .error .badOp) ∧
  (∀ w : CmdWord, fieldOp w = 0x31 → acceptWord false w =
    if fieldA w = 0 ∧ fieldCHigh w = 0 then .ok (.evali (fieldB w) (fieldCLow w)) else .error .badOp) ∧
  (∀ s : State, s.Inv → s.block.fault = false →
    (∀ cv co : Half, ∃ p : Half, (p.toNat : Int) = s.block.evaluate s.cfg cv.toNat co.toNat ∧
      exec (.evali cv co) s = .next { s with block := { s.block with pitch := p }, resp := some ⟨.ok, p.zeroExtend 32⟩ }) ∧
    (∃ p : Half, (p.toNat : Int) = s.block.evaluate s.cfg (s.block.value s.cfg.chCv) (s.block.value s.cfg.chCoarse) ∧
      exec .eval s = .next { s with block := { s.block with pitch := p }, resp := some ⟨.ok, p.zeroExtend 32⟩ }))

/-- Rule R147: under FIXED_440 the pitch before the clamp is 8832 whatever the inputs and the calibration, and the reference
configuration answers 8832. -/
def Obligations.FixedLawIgnoresItsInputs : Prop :=
  (∀ (cfg : Config) (scale offset cv co : Int), rawPitch cfg .fixed440 scale offset cv co = 8832) ∧
  (∀ (b : Block) (cv co : Int), b.law = .fixed440 → b.evaluate Config.reference cv co = 8832)

/-- Rules R153, R154: QNT. -/
def Obligations.QntRoundsToTheGrid : Prop :=
  (∀ w : CmdWord, fieldOp w = 0x32 → acceptWord false w =
    if fieldB w = 0 ∧ fieldC w = 0 then .ok (.qnt (fieldA w)) else .error .badOp) ∧
  (∀ (s : State) (grid : Sel), s.Inv → s.block.fault = false →
    (2 < grid.toNat → exec (.qnt grid) s = .next { s with resp := some ⟨.badArg, 0⟩ }) ∧
    (grid = 0 → exec (.qnt grid) s = .next { s with resp := some ⟨.ok, s.block.pitch.zeroExtend 32⟩ }) ∧
    (∀ g : Nat, (grid = 1 ∧ g = 64) ∨ (grid = 2 ∧ g = 128) → ∃ p : Half,
      p.toNat = min ((s.block.pitch.toNat + g / 2) / g * g) s.cfg.pitchMax ∧
      exec (.qnt grid) s = .next { s with block := { s.block with pitch := p }, resp := some ⟨.ok, p.zeroExtend 32⟩ }))

/-- Rule R154: quantising twice is quantising once. -/
def Obligations.QuantiserIsIdempotent : Prop :=
  ∀ (s t : State) (grid : Sel), s.Inv → s.block.fault = false → grid.toNat ≤ 2 →
    exec (.qnt grid) s = .next t → exec (.qnt grid) t = .next t

/-- Rule R156: CAL0 copies the effective value of every pot channel to its `OFFS` and touches nothing else. -/
def Obligations.Cal0CapturesOffsets : Prop :=
  (∀ w : CmdWord, fieldOp w = 0x33 → acceptWord false w =
    if fieldA w = 0 ∧ fieldB w = 0 ∧ fieldC w = 0 then .ok .cal0 else .error .badOp) ∧
  (∀ s : State, s.Inv → s.block.fault = false →
    ∃ cs, exec .cal0 s = .next { s with block := { s.block with chans := cs }, resp := some ⟨.ok, 0⟩ } ∧
      cs.length = s.cfg.nch ∧
      ∀ ch, ch < s.cfg.nch →
        let c := s.block.chan ch
        (s.cfg.pots.getLsbD ch = false → cs[ch]? = some c) ∧
        (s.cfg.pots.getLsbD ch = true → ∃ v : Half, (v.toNat : Int) = c.value ∧ cs[ch]? = some { c with offs := v }))

/-- Rule R157: CAL1. -/
def Obligations.Cal1RecordsTheReading : Prop :=
  (∀ w : CmdWord, fieldOp w = 0x34 → acceptWord false w =
    if fieldA w = 0 ∧ fieldB w = 0 ∧ fieldC w = 0 then .ok .cal1 else .error .badOp) ∧
  (∀ s : State, s.Inv → s.block.fault = false →
    ∃ r : Half, (r.toNat : Int) = s.block.value s.cfg.chCv ∧
      exec .cal1 s = .next { s with block := { s.block with calR1 := r }, resp := some ⟨.ok, r.zeroExtend 32⟩ })

/-- Rule R158: CAL3: equal readings answer `CAL_FAIL` and write nothing; otherwise the scale and the offset of the formula are
stored, both within their ranges, the scale never 0, and the low reading maps to 4608. -/
def Obligations.Cal3ComputesTheCalibration : Prop :=
  (∀ w : CmdWord, fieldOp w = 0x35 → acceptWord false w =
    if fieldA w = 0 ∧ fieldB w = 0 ∧ fieldC w = 0 then .ok .cal3 else .error .badOp) ∧
  (∀ s : State, s.Inv → s.block.fault = false →
    let r1 : Int := s.block.calR1.toNat
    let r2 : Int := s.block.value s.cfg.chCv
    (r2 = r1 → exec .cal3 s = .next { s with resp := some ⟨.calFail, 0⟩ }) ∧
    (r2 ≠ r1 → ∃ scale offset : Value,
      scale.toInt = Int.tdiv 12582912 (r2 - r1) ∧ offset.toInt = 4608 - Int.tdiv (r1 * scale.toInt) 4096 ∧
      Int.tdiv (r1 * scale.toInt) 4096 + offset.toInt = 4608 ∧
      -12582912 ≤ scale.toInt ∧ scale.toInt ≤ 12582912 ∧ scale.toInt ≠ 0 ∧ |offset.toInt| < 2 ^ 28 ∧
      exec .cal3 s = .next
        { s with block := { s.block with calScale := scale, calOffset := offset }, resp := some ⟨.ok, scale⟩ }))

/-- Rule R159 (a), (b): after a CAL3 that answered `OK`, the low reading maps to 4608 exactly and the high reading to 7680
within the bound. -/
def Obligations.CalibrationMapsItsReadings : Prop :=
  ∀ (s t : State) (v : Value), s.Inv → s.block.fault = false → exec .cal3 s = .next t → t.resp = some ⟨.ok, v⟩ →
    let r1 : Int := s.block.calR1.toNat
    let r2 : Int := s.block.value s.cfg.chCv
    let note (cv : Int) : Int := Int.tdiv (cv * t.block.calScale.toInt) 4096 + t.block.calOffset.toInt
    note r1 = 4608 ∧ |note r2 - 7680| ≤ 1 + (|r2 - r1| + 4095) / 4096

/-! ### Scheduler -/

/-- Rule R176: RBEGIN. -/
def Obligations.RbeginOpensAPass : Prop :=
  (∀ w : CmdWord, fieldOp w = 0x40 → acceptWord false w =
    if fieldA w = 0 ∧ fieldB w = 0 ∧ fieldC w = 0 then .ok .rbegin else .error .badOp) ∧
  (∀ s : State, s.block.fault = false →
    (s.block.rendering = true → exec .rbegin s = .next { s with resp := some ⟨.badSeq, 0⟩ }) ∧
    (s.block.rendering = false → s.block.rb = s.block.pb → exec .rbegin s = .next { s with resp := some ⟨.notReady, 0⟩ }) ∧
    (s.block.rendering = false → s.block.rb ≠ s.block.pb → exec .rbegin s = .next
      { s with block := { s.block with rendering := true }, resp := some ⟨.ok, s.block.rb.zeroExtend 32⟩ }))

/-- Rules R178, R226: SWR inside a pass writes one sample of the render slot and no other element; outside a pass it writes
nothing, and enters FAULT exactly when `rb = pb`. -/
def Obligations.SwrWritesOrCollides : Prop :=
  (∀ w : CmdWord, fieldOp w = 0x41 → acceptWord false w =
    if fieldA w = 0 ∧ fieldCHigh w = 0 then .ok (.swr (fieldB w) (fieldCLow w)) else .error .badOp) ∧
  (∀ (s : State) (idx sample : Half), s.Inv → s.block.fault = false →
    (s.cfg.bs ≤ idx.toNat → exec (.swr idx sample) s = .next { s with resp := some ⟨.badArg, 0⟩ }) ∧
    (idx.toNat < s.cfg.bs → s.block.rendering = true →
      ∃ audio, exec (.swr idx sample) s = .next
          { s with block := { s.block with mem := { s.block.mem with audio := audio } }, resp := some ⟨.ok, 0⟩ } ∧
        planeRead audio (s.block.rb.toNat * s.cfg.bs + idx.toNat) = sample ∧
        ∀ key, key ≠ s.block.rb.toNat * s.cfg.bs + idx.toNat → planeRead audio key = planeRead s.block.mem.audio key) ∧
    (idx.toNat < s.cfg.bs → s.block.rendering = false → s.block.rb = s.block.pb → exec (.swr idx sample) s = .next
      { s with block := { s.block with fault := true, fcause := .ringCollision }, resp := some ⟨.faulted, 0⟩ }) ∧
    (idx.toNat < s.cfg.bs → s.block.rendering = false → s.block.rb ≠ s.block.pb →
      exec (.swr idx sample) s = .next { s with resp := some ⟨.badSeq, 0⟩ }))

/-- Rule R180: RSYNC. -/
def Obligations.RsyncReadsTheSyncBit : Prop :=
  (∀ w : CmdWord, fieldOp w = 0x42 → acceptWord false w =
    if fieldA w = 0 ∧ fieldC w = 0 then .ok (.rsync (fieldB w)) else .error .badOp) ∧
  (∀ (s : State) (idx : Half), s.block.fault = false → s.block.rb.toNat < s.cfg.nb →
    (s.cfg.bs ≤ idx.toNat → exec (.rsync idx) s = .next { s with resp := some ⟨.badArg, 0⟩ }) ∧
    (idx.toNat < s.cfg.bs → s.block.rendering = false → exec (.rsync idx) s = .next { s with resp := some ⟨.badSeq, 0⟩ }) ∧
    (idx.toNat < s.cfg.bs → s.block.rendering = true → exec (.rsync idx) s = .next
      { s with resp := some ⟨.ok, (planeRead s.block.mem.sync (s.block.rb.toNat * s.cfg.bs + idx.toNat)).zeroExtend 32⟩ }))

/-- Rule R182: ADV ends the pass and advances `rb` around the ring. -/
def Obligations.AdvHandsTheSlotOver : Prop :=
  (∀ w : CmdWord, fieldOp w = 0x43 → acceptWord false w =
    if fieldA w = 0 ∧ fieldB w = 0 ∧ fieldC w = 0 then .ok .adv else .error .badOp) ∧
  (∀ s : State, s.cfg.Legal → s.block.fault = false →
    (s.block.rendering = false → exec .adv s = .next { s with resp := some ⟨.badSeq, 0⟩ }) ∧
    (s.block.rendering = true → ∃ rb : BitVec 4, rb.toNat = (s.block.rb.toNat + 1) % s.cfg.nb ∧
      exec .adv s = .next { s with block := { s.block with rb := rb, rendering := false }, resp := some ⟨.ok, rb.zeroExtend 32⟩ }))

/-- Rules R184, R186: TRGTAKE returns and clears the trigger flag, TRGSET sets it. -/
def Obligations.TriggerFlagCommands : Prop :=
  (∀ w : CmdWord, fieldOp w = 0x44 → acceptWord false w =
    if fieldA w = 0 ∧ fieldB w = 0 ∧ fieldC w = 0 then .ok .trgtake else .error .badOp) ∧
  (∀ w : CmdWord, fieldOp w = 0x45 → acceptWord false w =
    if fieldA w = 0 ∧ fieldB w = 0 ∧ fieldC w = 0 then .ok .trgset else .error .badOp) ∧
  (∀ s : State, s.block.fault = false →
    exec .trgtake s = .next
      { s with block := { s.block with trigPending := false }, resp := some ⟨.ok, if s.block.trigPending then 1 else 0⟩ } ∧
    exec .trgset s = .next { s with block := { s.block with trigPending := true }, resp := some ⟨.ok, 0⟩ })

/-- Rules R170 to R174: the whole body of a tick: the sample to the sink, the edge bit to the sync plane, the trigger flag, the
advance, the wrap and the underrun flag; every other element and register is unchanged. In FAULT it changes nothing. -/
def Obligations.TickPlaysCapturesAndAdvances : Prop :=
  ∀ (s : State) (g : Bool) (rest : List Input), s.Inv → s.inputs = .tick g :: rest →
    (s.block.fault = true → step s = .next { s with inputs := rest, resp := none }) ∧
    (s.block.fault = false →
      let key := s.block.pb.toNat * s.cfg.bs + s.block.cs.toNat
      let edge : Bool := g = true ∧ s.block.gatePrev = false
      ∃ (sync : Plane 1) (dac : Half) (pb : BitVec 4) (cs : BitVec 8) (xrun : Bool),
        step s = .next
          { s with
            block := { s.block with
              dacout := dac, gatePrev := g, trigPending := edge || s.block.trigPending,
              pb := pb, cs := cs, xrun := xrun, mem := { s.block.mem with sync := sync } }
            inputs := rest
            resp := none } ∧
        (dac.toNat : Int) = ((planeRead s.block.mem.audio key).toInt + 32768) % 65536 ∧
        planeRead sync key = (if edge then 1 else 0) ∧
        (∀ k, k ≠ key → planeRead sync k = planeRead s.block.mem.sync k) ∧
        (s.block.cs.toNat + 1 < s.cfg.bs → cs.toNat = s.block.cs.toNat + 1 ∧ pb = s.block.pb ∧ xrun = s.block.xrun) ∧
        (¬ s.block.cs.toNat + 1 < s.cfg.bs → cs = 0 ∧ pb.toNat = (s.block.pb.toNat + 1) % s.cfg.nb ∧
          xrun = (decide (pb = s.block.rb) || s.block.xrun)))

/-- Rules R174, R187: from a state with the invariant and outside FAULT, with no command between the ticks, the consumer enters slot
`rb` and sets `xrun` after exactly `T = ((rb - pb - 1) mod NB) * BS + (BS - cs)` ticks, whatever the gate levels: before
that `xrun` keeps its value, from then on it is set. -/
def Obligations.UnderrunAfterExactlyTTicks : Prop :=
  ∀ (s : State) (gates : List Bool), s.Inv → s.block.fault = false → s.inputs = gates.map .tick →
    let T : Int := (((s.block.rb.toNat : Int) - s.block.pb.toNat - 1) % s.cfg.nb) * s.cfg.bs + (s.cfg.bs - s.block.cs.toNat)
    ∃ t, runSteps gates.length s = some t ∧ t.inputs = [] ∧
      t.block.xrun = (s.block.xrun || decide (T ≤ gates.length)) ∧
      ((gates.length : Int) = T → t.block.pb = s.block.rb ∧ t.block.cs = 0)

/-- Rule R185: any number of edges in a run of ticks sets the one trigger flag, and no tick clears it: after the ticks it
is set exactly when it was, or when some tick saw a rising edge. -/
def Obligations.EdgesCoalesce : Prop :=
  ∀ (s : State) (gates : List Bool), s.Inv → s.block.fault = false → s.inputs = gates.map .tick →
    ∃ t, runSteps gates.length s = some t ∧ t.block.gatePrev = (s.block.gatePrev :: gates).getLast (by simp) ∧
      (t.block.trigPending = true ↔ s.block.trigPending = true ∨
        ∃ n : Nat, (s.block.gatePrev :: gates)[n]? = some false ∧ gates[n]? = some true)

/-- Rule R188 (a), (c): a pass starts only where the render slot is not the consumer's; outside a pass no command reaches the
ring. -/
def Obligations.PassStartsOffTheConsumersSlot : Prop :=
  ∀ (i : Instr) (s t : State), exec i s = .next t →
    (s.block.rendering = false → t.block.rendering = true → t.block.rb ≠ t.block.pb) ∧
    (s.block.rendering = false → t.block.mem = s.block.mem)

/-- Rule R63: `free = (pb - rb) mod NB`: RBEGIN answers `OK` only where `free` is not 0, ADV lowers it by one where it is not 0, and a tick that wraps
raises it by one modulo `NB`. -/
def Obligations.FreeSlotsAreAccountedFor : Prop :=
  ∀ (s t : State), s.Inv → s.block.fault = false →
    (((s.block.free s.cfg : Nat) : Int) = ((s.block.pb.toNat : Int) - s.block.rb.toNat) % s.cfg.nb) ∧
    (∀ v, exec .rbegin s = .next t → t.resp = some ⟨.ok, v⟩ → s.block.free s.cfg ≠ 0) ∧
    (exec .adv s = .next t → t.block.rendering ≠ s.block.rendering → s.block.free s.cfg ≠ 0 →
      t.block.free t.cfg + 1 = s.block.free s.cfg) ∧
    (∀ g rest, s.inputs = .tick g :: rest → step s = .next t → t.block.pb ≠ s.block.pb →
      t.block.free t.cfg = (s.block.free s.cfg + 1) % s.cfg.nb)

/-! ### The whole machine -/

/-- Rule R227: FAULT. RD and NOP answer as in every state, STATUS with its bit 5 set and, in a state with the invariant,
FCAUSE 1; every other command, legal or not, is refused `FAULTED`; TICK and ADCDONE change nothing; RESET resets; no step
but RESET changes any state of the block. -/
def Obligations.FaultIsFrozenUntilReset : Prop :=
  ∀ (s : State) (a : Input) (rest : List Input), s.block.fault = true → s.inputs = a :: rest →
    (∀ w, a = .cmd w → fieldOp w ≠ 0x00 → fieldOp w ≠ 0x01 →
      step s = .next { s with inputs := rest, resp := some ⟨.faulted, 0⟩ }) ∧
    (∀ i, i ≠ .nop → (∀ r, i ≠ .rd r) → exec i s = .next { s with resp := some ⟨.faulted, 0⟩ }) ∧
    (exec .nop s = .next { s with resp := some ⟨.ok, 0⟩ }) ∧
    (∀ r, (Instr.rd r).wellFormed s.cfg = true → ∃ reg, regOf s.cfg r = some reg ∧
      exec (.rd r) s = .next { s with resp := some ⟨.ok, readReg s.block reg⟩ }) ∧
    (∃ v : Value, exec (.rd 0x01) s = .next { s with resp := some ⟨.ok, v⟩ } ∧ v.getLsbD 5 = true) ∧
    (s.Inv → exec (.rd 0x02) s = .next { s with resp := some ⟨.ok, 1⟩ }) ∧
    (∀ g, a = .tick g → step s = .next { s with inputs := rest, resp := none }) ∧
    (∀ vs, a = .adcDone vs → vs.length = s.cfg.nch → s.block.convPending = true →
      step s = .next { s with inputs := rest, resp := none }) ∧
    (a = .reset → step s = .next { s with block := Block.reset s.cfg, inputs := rest, resp := none }) ∧
    (∀ t, a ≠ .reset → step s = .next t → t.block = s.block)

/-- Rule R223: a refusal, and the negative answers `CAL_FAIL` and `NOT_READY`, leave the block's state bit for bit; so does `FAULTED`
from a command that met FAULT. -/
def Obligations.RefusalsArePrecise : Prop :=
  ∀ (i : Instr) (s t : State) (st : Status) (v : Value), exec i s = .next t → t.resp = some ⟨st, v⟩ → st ≠ .ok →
    v = 0 ∧ t.cfg = s.cfg ∧ t.inputs = s.inputs ∧ (t.block = s.block ∨ (st = .faulted ∧ s.block.fault = false))

/-- Rules R74, R222: every command that steps gives exactly one response, with a status that its row of rule R222 allows. -/
def Obligations.StatusesOfEachCommand : Prop :=
  ∀ (i : Instr) (s t : State), exec i s = .next t → ∃ st v, t.resp = some ⟨st, v⟩ ∧
    st ∈ (match i with
      | .nop => [Status.ok]
      | .rd _ => [.ok, .badArg]
      | .wr _ _ => [.ok, .faulted, .badArg]
      | .val _ => [.ok, .faulted, .badArg]
      | .lock _ _ => [.ok, .faulted, .badArg]
      | .unlock _ => [.ok, .faulted, .badArg]
      | .lockm _ => [.ok, .faulted, .badArg]
      | .qnt _ => [.ok, .faulted, .badArg]
      | .upd _ _ => [.ok, .faulted, .badArg, .unconfig]
      | .updall => [.ok, .faulted, .unconfig]
      | .cal3 => [.ok, .faulted, .calFail]
      | .rbegin => [.ok, .faulted, .badSeq, .notReady]
      | .swr _ _ => [.ok, .faulted, .badArg, .badSeq]
      | .rsync _ => [.ok, .faulted, .badArg, .badSeq]
      | .adv => [.ok, .faulted, .badSeq]
      | .conv => [.ok, .faulted]
      | .unlockm => [.ok, .faulted]
      | .eval => [.ok, .faulted]
      | .evali _ _ => [.ok, .faulted]
      | .cal0 => [.ok, .faulted]
      | .cal1 => [.ok, .faulted]
      | .trgtake => [.ok, .faulted]
      | .trgset => [.ok, .faulted])

/-- Rules R49, R236: the HOST cannot do another agent's steps: no command writes `pb`, `cs`, `gate_prev`, `xrun`, `DACOUT`, the
sync plane or a raw latch, clears `conv_pending`, or leaves FAULT; none touches the configuration or the inputs. -/
def Obligations.CommandsKeepOtherAgentsState : Prop :=
  ∀ (i : Instr) (s t : State), exec i s = .next t →
    t.cfg = s.cfg ∧ t.inputs = s.inputs ∧ t.block.pb = s.block.pb ∧ t.block.cs = s.block.cs ∧
    t.block.gatePrev = s.block.gatePrev ∧ t.block.xrun = s.block.xrun ∧ t.block.dacout = s.block.dacout ∧
    t.block.mem.sync = s.block.mem.sync ∧ t.block.chans.map (·.raw) = s.block.chans.map (·.raw) ∧
    (s.block.convPending = true → t.block.convPending = true) ∧ (s.block.fault = true → t.block.fault = true)

/-- Rule R49: each of the sixteen pieces of state that the HOST alone writes is written only by the commands that rules
R22 to R43 name. -/
def Obligations.RegistersHaveTheirWriters : Prop :=
  ∀ (i : Instr) (s t : State), exec i s = .next t →
    (t.block.chans.map (·.k) ≠ s.block.chans.map (·.k) → i.mnemonic = "WR") ∧
    (t.block.chans.map (·.lkt) ≠ s.block.chans.map (·.lkt) → i.mnemonic = "WR") ∧
    (t.block.chans.map (·.offs) ≠ s.block.chans.map (·.offs) → i.mnemonic ∈ ["WR", "CAL0"]) ∧
    (t.block.chans.map (·.sm) ≠ s.block.chans.map (·.sm) → i.mnemonic ∈ ["UPD", "UPDALL"]) ∧
    (t.block.chans.map (·.lockedv) ≠ s.block.chans.map (·.lockedv) → i.mnemonic ∈ ["LOCK", "LOCKM"]) ∧
    (t.block.chans.map (·.snapv) ≠ s.block.chans.map (·.snapv) → i.mnemonic ∈ ["LOCK", "LOCKM", "UNLOCK", "UNLOCKM"]) ∧
    (t.block.chans.map (·.isLocked) ≠ s.block.chans.map (·.isLocked) →
      i.mnemonic ∈ ["LOCK", "LOCKM", "UNLOCK", "UNLOCKM"]) ∧
    (t.block.chans.map (·.isSnapped) ≠ s.block.chans.map (·.isSnapped) →
      i.mnemonic ∈ ["LOCK", "LOCKM", "UNLOCK", "UNLOCKM", "UPD", "UPDALL"]) ∧
    (t.block.law ≠ s.block.law → i.mnemonic = "WR") ∧
    (t.block.calScale ≠ s.block.calScale → i.mnemonic ∈ ["WR", "CAL3"]) ∧
    (t.block.calOffset ≠ s.block.calOffset → i.mnemonic ∈ ["WR", "CAL3"]) ∧
    (t.block.calR1 ≠ s.block.calR1 → i.mnemonic = "CAL1") ∧
    (t.block.pitch ≠ s.block.pitch → i.mnemonic ∈ ["EVAL", "EVALI", "QNT"]) ∧
    (t.block.rb ≠ s.block.rb → i.mnemonic = "ADV") ∧
    (t.block.rendering ≠ s.block.rendering → i.mnemonic ∈ ["RBEGIN", "ADV"]) ∧
    (t.block.mem.audio ≠ s.block.mem.audio → i.mnemonic = "SWR")

/-- Rules R49, R236: the events cannot do the HOST's steps: a tick writes only `pb`, `cs`, `gate_prev`, `xrun`, `DACOUT`, the sync plane and
`trig_pending`, which it never clears; a scan writes only the raw latches and `conv_pending`. A reset keeps the model's own
configuration and inputs (its choice, log entry 16). -/
def Obligations.EventsKeepTheHostsState : Prop :=
  ∀ (s t : State) (rest : List Input), step s = .next t →
    (∀ g, s.inputs = .tick g :: rest →
      t = { s with
        block := { s.block with
          pb := t.block.pb, cs := t.block.cs, gatePrev := t.block.gatePrev, xrun := t.block.xrun,
          dacout := t.block.dacout, trigPending := t.block.trigPending, mem := { s.block.mem with sync := t.block.mem.sync } }
        inputs := rest
        resp := none } ∧
      (s.block.trigPending = true → t.block.trigPending = true) ∧ (s.block.xrun = true → t.block.xrun = true)) ∧
    (∀ vs, s.inputs = .adcDone vs :: rest →
      t.block = { s.block with chans := t.block.chans, convPending := t.block.convPending } ∧
      t.block.chans.map (fun c => { c with raw := 0 }) = s.block.chans.map (fun c => { c with raw := 0 })) ∧
    (s.inputs = .reset :: rest → t.cfg = s.cfg ∧ t.inputs = rest ∧ t.resp = none)

/-- Rules R220, R226: the one command that enters FAULT is SWR, with a legal index, outside a pass, while `rb = pb`; it writes `fault`
and `FCAUSE` and nothing else. -/
def Obligations.OnlyACollisionEntersFault : Prop :=
  ∀ (i : Instr) (s t : State), exec i s = .next t → s.block.fault = false → t.block.fault = true →
    ∃ idx sample, i = .swr idx sample ∧ idx.toNat < s.cfg.bs ∧ s.block.rendering = false ∧ s.block.rb = s.block.pb ∧
      t = { s with block := { s.block with fault := true, fcause := .ringCollision }, resp := some ⟨.faulted, 0⟩ }

/-- Rule R250: RESET, from every state, FAULT and the middle of a pass included, puts every piece of the block's state at
its reset value, and it is the only way out of FAULT. -/
def Obligations.ResetFromEveryState : Prop :=
  (∀ s t : State, step s = .next t → s.block.fault = true → t.block.fault = false → ∃ rest, s.inputs = .reset :: rest) ∧
  (∀ (s : State) (rest : List Input), s.inputs = .reset :: rest → ∃ t, step s = .next t ∧
    t.block.chans = List.replicate s.cfg.nch
      { k := 0, sm := 0, raw := 0, isLocked := false, isSnapped := true, lockedv := 0, snapv := 0, offs := 0, lkt := 0 } ∧
    t.block.convPending = false ∧ t.block.law = .external ∧ t.block.calScale = 0 ∧ t.block.calOffset = 0 ∧
    t.block.calR1 = 0 ∧ t.block.pitch = 0 ∧ t.block.rb = 0 ∧ (s.cfg.Legal → t.block.pb.toNat = s.cfg.nb / 2) ∧
    t.block.cs = 0 ∧ t.block.rendering = false ∧ t.block.trigPending = false ∧ t.block.xrun = false ∧
    t.block.gatePrev = false ∧ t.block.fault = false ∧ t.block.fcause = .none ∧ t.block.dacout = 0x8000 ∧
    (∀ key, t.block.audioAt key = 0) ∧ (∀ key, t.block.syncAt key = 0))

/-- Rules R48, R188 (b): every step keeps the invariant of reachable states: the smoothed values and the pitch in range, LOCKED never
snapped, plain channels never locked, the ring indices in range, `FCAUSE` in step with `fault`, the render slot entered by the
consumer in mid-pass only with `xrun` set, and the ring memory in canonical form. -/
def Obligations.StepKeepsInvariant : Prop :=
  ∀ s t : State, s.Inv → step s = .next t → t.Inv

/-- Rules R47, R48: the state after reset meets the invariant, in the reference configuration and in every legal one. -/
def Obligations.ResetMeetsInvariant : Prop :=
  State.reset.Inv ∧ ∀ cfg : Config, cfg.Legal → (State.resetIn cfg).Inv

/-- Rules R9, R48 (e), R51: from a state with the invariant no step stops with a fault, and a step is refused only for a scan that
cannot happen: every command, tick and reset has a next state. -/
def Obligations.EveryInputSteps : Prop :=
  ∀ s : State, s.Inv →
    (∃ t, step s = .next t) ∨
    (∃ vs rest, s.inputs = .adcDone vs :: rest ∧ (s.block.convPending = false ∨ vs.length ≠ s.cfg.nch))
end

