-- ==== Sys2Proof/Laws/State.lean ====
section
/-!
SUPPORT. One lemma per field and update: what each named update of the state leaves and writes. All hold by `rfl`.
-/

namespace Sys2Proof.Machine

section Machine

variable (s : State) (b : Block) (r : Option Response) (is : List Input)

@[simp] theorem State.withBlock_cfg : (s.withBlock b).cfg = s.cfg := rfl
@[simp] theorem State.withBlock_block : (s.withBlock b).block = b := rfl
@[simp] theorem State.withBlock_inputs : (s.withBlock b).inputs = s.inputs := rfl
@[simp] theorem State.withBlock_resp : (s.withBlock b).resp = s.resp := rfl
@[simp] theorem State.withResp_cfg : (s.withResp r).cfg = s.cfg := rfl
@[simp] theorem State.withResp_block : (s.withResp r).block = s.block := rfl
@[simp] theorem State.withResp_inputs : (s.withResp r).inputs = s.inputs := rfl
@[simp] theorem State.withResp_resp : (s.withResp r).resp = r := rfl
@[simp] theorem State.withInputs_cfg : (s.withInputs is).cfg = s.cfg := rfl
@[simp] theorem State.withInputs_block : (s.withInputs is).block = s.block := rfl
@[simp] theorem State.withInputs_inputs : (s.withInputs is).inputs = is := rfl
@[simp] theorem State.withInputs_resp : (s.withInputs is).resp = s.resp := rfl

end Machine

section Channels

variable (b : Block) (ch : Nat) (c : Channel) (f : Nat → Channel → Channel)

@[simp] theorem Block.setChan_chans : (b.setChan ch c).chans = b.chans.set ch c := rfl
@[simp] theorem Block.setChan_convPending : (b.setChan ch c).convPending = b.convPending := rfl
@[simp] theorem Block.setChan_law : (b.setChan ch c).law = b.law := rfl
@[simp] theorem Block.setChan_calScale : (b.setChan ch c).calScale = b.calScale := rfl
@[simp] theorem Block.setChan_calOffset : (b.setChan ch c).calOffset = b.calOffset := rfl
@[simp] theorem Block.setChan_calR1 : (b.setChan ch c).calR1 = b.calR1 := rfl
@[simp] theorem Block.setChan_pitch : (b.setChan ch c).pitch = b.pitch := rfl
@[simp] theorem Block.setChan_rb : (b.setChan ch c).rb = b.rb := rfl
@[simp] theorem Block.setChan_pb : (b.setChan ch c).pb = b.pb := rfl
@[simp] theorem Block.setChan_cs : (b.setChan ch c).cs = b.cs := rfl
@[simp] theorem Block.setChan_rendering : (b.setChan ch c).rendering = b.rendering := rfl
@[simp] theorem Block.setChan_trigPending : (b.setChan ch c).trigPending = b.trigPending := rfl
@[simp] theorem Block.setChan_xrun : (b.setChan ch c).xrun = b.xrun := rfl
@[simp] theorem Block.setChan_gatePrev : (b.setChan ch c).gatePrev = b.gatePrev := rfl
@[simp] theorem Block.setChan_fault : (b.setChan ch c).fault = b.fault := rfl
@[simp] theorem Block.setChan_fcause : (b.setChan ch c).fcause = b.fcause := rfl
@[simp] theorem Block.setChan_dacout : (b.setChan ch c).dacout = b.dacout := rfl
@[simp] theorem Block.setChan_mem : (b.setChan ch c).mem = b.mem := rfl

@[simp] theorem Block.mapChans_chans : (b.mapChans f).chans = b.chans.mapIdx f := rfl
@[simp] theorem Block.mapChans_convPending : (b.mapChans f).convPending = b.convPending := rfl
@[simp] theorem Block.mapChans_law : (b.mapChans f).law = b.law := rfl
@[simp] theorem Block.mapChans_calScale : (b.mapChans f).calScale = b.calScale := rfl
@[simp] theorem Block.mapChans_calOffset : (b.mapChans f).calOffset = b.calOffset := rfl
@[simp] theorem Block.mapChans_calR1 : (b.mapChans f).calR1 = b.calR1 := rfl
@[simp] theorem Block.mapChans_pitch : (b.mapChans f).pitch = b.pitch := rfl
@[simp] theorem Block.mapChans_rb : (b.mapChans f).rb = b.rb := rfl
@[simp] theorem Block.mapChans_pb : (b.mapChans f).pb = b.pb := rfl
@[simp] theorem Block.mapChans_cs : (b.mapChans f).cs = b.cs := rfl
@[simp] theorem Block.mapChans_rendering : (b.mapChans f).rendering = b.rendering := rfl
@[simp] theorem Block.mapChans_trigPending : (b.mapChans f).trigPending = b.trigPending := rfl
@[simp] theorem Block.mapChans_xrun : (b.mapChans f).xrun = b.xrun := rfl
@[simp] theorem Block.mapChans_gatePrev : (b.mapChans f).gatePrev = b.gatePrev := rfl
@[simp] theorem Block.mapChans_fault : (b.mapChans f).fault = b.fault := rfl
@[simp] theorem Block.mapChans_fcause : (b.mapChans f).fcause = b.fcause := rfl
@[simp] theorem Block.mapChans_dacout : (b.mapChans f).dacout = b.dacout := rfl
@[simp] theorem Block.mapChans_mem : (b.mapChans f).mem = b.mem := rfl

end Channels

section Ring

variable (b : Block) (key : Nat) (v : Half) (e : BitVec 1)

@[simp] theorem Block.setAudio_chans : (b.setAudio key v).chans = b.chans := rfl
@[simp] theorem Block.setAudio_convPending : (b.setAudio key v).convPending = b.convPending := rfl
@[simp] theorem Block.setAudio_law : (b.setAudio key v).law = b.law := rfl
@[simp] theorem Block.setAudio_calScale : (b.setAudio key v).calScale = b.calScale := rfl
@[simp] theorem Block.setAudio_calOffset : (b.setAudio key v).calOffset = b.calOffset := rfl
@[simp] theorem Block.setAudio_calR1 : (b.setAudio key v).calR1 = b.calR1 := rfl
@[simp] theorem Block.setAudio_pitch : (b.setAudio key v).pitch = b.pitch := rfl
@[simp] theorem Block.setAudio_rb : (b.setAudio key v).rb = b.rb := rfl
@[simp] theorem Block.setAudio_pb : (b.setAudio key v).pb = b.pb := rfl
@[simp] theorem Block.setAudio_cs : (b.setAudio key v).cs = b.cs := rfl
@[simp] theorem Block.setAudio_rendering : (b.setAudio key v).rendering = b.rendering := rfl
@[simp] theorem Block.setAudio_trigPending : (b.setAudio key v).trigPending = b.trigPending := rfl
@[simp] theorem Block.setAudio_xrun : (b.setAudio key v).xrun = b.xrun := rfl
@[simp] theorem Block.setAudio_gatePrev : (b.setAudio key v).gatePrev = b.gatePrev := rfl
@[simp] theorem Block.setAudio_fault : (b.setAudio key v).fault = b.fault := rfl
@[simp] theorem Block.setAudio_fcause : (b.setAudio key v).fcause = b.fcause := rfl
@[simp] theorem Block.setAudio_dacout : (b.setAudio key v).dacout = b.dacout := rfl
@[simp] theorem Block.setAudio_sync : (b.setAudio key v).mem.sync = b.mem.sync := rfl
@[simp] theorem Block.setAudio_audio : (b.setAudio key v).mem.audio = planeWrite b.mem.audio key v := rfl

@[simp] theorem Block.setSync_chans : (b.setSync key e).chans = b.chans := rfl
@[simp] theorem Block.setSync_convPending : (b.setSync key e).convPending = b.convPending := rfl
@[simp] theorem Block.setSync_law : (b.setSync key e).law = b.law := rfl
@[simp] theorem Block.setSync_calScale : (b.setSync key e).calScale = b.calScale := rfl
@[simp] theorem Block.setSync_calOffset : (b.setSync key e).calOffset = b.calOffset := rfl
@[simp] theorem Block.setSync_calR1 : (b.setSync key e).calR1 = b.calR1 := rfl
@[simp] theorem Block.setSync_pitch : (b.setSync key e).pitch = b.pitch := rfl
@[simp] theorem Block.setSync_rb : (b.setSync key e).rb = b.rb := rfl
@[simp] theorem Block.setSync_pb : (b.setSync key e).pb = b.pb := rfl
@[simp] theorem Block.setSync_cs : (b.setSync key e).cs = b.cs := rfl
@[simp] theorem Block.setSync_rendering : (b.setSync key e).rendering = b.rendering := rfl
@[simp] theorem Block.setSync_trigPending : (b.setSync key e).trigPending = b.trigPending := rfl
@[simp] theorem Block.setSync_xrun : (b.setSync key e).xrun = b.xrun := rfl
@[simp] theorem Block.setSync_gatePrev : (b.setSync key e).gatePrev = b.gatePrev := rfl
@[simp] theorem Block.setSync_fault : (b.setSync key e).fault = b.fault := rfl
@[simp] theorem Block.setSync_fcause : (b.setSync key e).fcause = b.fcause := rfl
@[simp] theorem Block.setSync_dacout : (b.setSync key e).dacout = b.dacout := rfl
@[simp] theorem Block.setSync_audio : (b.setSync key e).mem.audio = b.mem.audio := rfl
@[simp] theorem Block.setSync_sync : (b.setSync key e).mem.sync = planeWrite b.mem.sync key e := rfl

end Ring

end Sys2Proof.Machine
end

