-- ==== Sys2Proof/Laws/Memory.lean ====
section
/-!
SUPPORT. The laws of a ring plane (rule R52): reading back what was written, leaving every other element alone, and
keeping the canonical form and the range of the keys.
-/

namespace Sys2Proof.Machine

variable {w : Nat}

@[simp] theorem planeRead_nil (a : Nat) : planeRead ([] : Plane w) a = 0 := rfl

@[simp] theorem planeRead_cons (k : Nat) (v : BitVec w) (p : Plane w) (a : Nat) :
    planeRead ((k, v) :: p) a = if k = a then v else planeRead p a := rfl

/-- A key that is not listed reads as 0. -/
theorem planeRead_of_absent (p : Plane w) (a : Nat) (h : ∀ x ∈ p, x.1 ≠ a) : planeRead p a = 0 := by
  induction p with
  | nil => rfl
  | cons x p ih =>
    obtain ⟨k, v⟩ := x
    have hk : k ≠ a := h (k, v) (by simp)
    simp [hk, ih fun y hy => h y (by simp [hy])]

/-- What `planeCons` reads as, where the key is not listed behind it. -/
theorem planeRead_planeCons (a : Nat) (v : BitVec w) (p : Plane w) (x : Nat) (h : ∀ y ∈ p, y.1 ≠ a) :
    planeRead (planeCons a v p) x = if a = x then v else planeRead p x := by
  unfold planeCons
  split
  · rename_i hv
    split
    · rename_i hax
      rw [hv, ← hax, planeRead_of_absent p a h]
    · rfl
  · rfl

/-- An element of `planeWrite` is the new one or an old one. -/
theorem mem_planeWrite (p : Plane w) (a : Nat) (v : BitVec w) (x : Nat × BitVec w) (h : x ∈ planeWrite p a v) :
    x = (a, v) ∧ v ≠ 0 ∨ x ∈ p := by
  induction p with
  | nil =>
    simp only [planeWrite, planeCons] at h
    split at h <;> simp_all
  | cons y p ih =>
    obtain ⟨k, u⟩ := y
    simp only [planeWrite, planeCons] at h
    split at h
    · split at h <;> simp_all
    · split at h
      · split at h <;> simp_all; tauto
      · rcases List.mem_cons.1 h with h | h
        · exact .inr (by simp [h])
        · exact (ih h).imp_right (List.mem_cons_of_mem _)

/-- Every operation on a plane keeps the canonical form. -/
theorem planeWrite_wf (p : Plane w) (a : Nat) (v : BitVec w) (h : planeWf p) : planeWf (planeWrite p a v) := by
  refine ⟨?_, fun x hx => ?_⟩
  · induction p with
    | nil => unfold planeWrite planeCons; split <;> simp
    | cons y p ih =>
      obtain ⟨k, u⟩ := y
      obtain ⟨hs, hz⟩ := h
      obtain ⟨hk, hp⟩ := List.pairwise_cons.1 hs
      simp only [planeWrite, planeCons]
      split
      · rename_i hak
        split
        · exact hs
        · refine List.pairwise_cons.2 ⟨fun x hx => ?_, hs⟩
          rcases List.mem_cons.1 hx with rfl | hx
          · exact hak
          · exact Nat.lt_trans hak (hk x hx)
      · split
        · rename_i hak
          split
          · exact hp
          · exact List.pairwise_cons.2 ⟨fun x hx => hak ▸ hk x hx, hp⟩
        · rename_i h1 h2
          refine List.pairwise_cons.2 ⟨fun x hx => ?_, ih ⟨hp, fun x hx => hz x (by simp [hx])⟩⟩
          rcases mem_planeWrite p a v x hx with ⟨rfl, -⟩ | hx
          · show k < a
            omega
          · exact hk x hx
  · rcases mem_planeWrite p a v x hx with ⟨rfl, hv⟩ | hx
    · exact hv
    · exact h.2 x hx

/-- The keys of a plane stay below a bound that the written key is below. -/
theorem planeWrite_keys (p : Plane w) (a : Nat) (v : BitVec w) (n : Nat) (ha : a < n) (h : ∀ x ∈ p, x.1 < n) :
    ∀ x ∈ planeWrite p a v, x.1 < n := by
  intro x hx
  rcases mem_planeWrite p a v x hx with ⟨rfl, -⟩ | hx
  · exact ha
  · exact h x hx

/-- Read after write (rule R52), on a plane in canonical form. -/
theorem planeRead_planeWrite (p : Plane w) (a : Nat) (v : BitVec w) (x : Nat) (h : planeWf p) :
    planeRead (planeWrite p a v) x = if a = x then v else planeRead p x := by
  induction p with
  | nil => exact planeRead_planeCons a v [] x (by simp)
  | cons y p ih =>
    obtain ⟨k, u⟩ := y
    obtain ⟨hs, hz⟩ := h
    obtain ⟨hk, hp⟩ := List.pairwise_cons.1 hs
    simp only [planeWrite]
    split
    · rename_i hak
      refine planeRead_planeCons a v _ x fun z hz => ?_
      rcases List.mem_cons.1 hz with rfl | hz
      · show k ≠ a
        omega
      · have := hk z hz
        simp only at this
        omega
    · split
      · rename_i hak
        subst hak
        rw [planeRead_planeCons a v p x fun z hz => (Nat.ne_of_gt (hk z hz))]
        by_cases hax : a = x <;> simp [hax]
      · rename_i h1 h2
        rw [planeRead_cons, planeRead_cons, ih ⟨hp, fun z hz' => hz z (by simp [hz'])⟩]
        by_cases hkx : k = x
        · have : a ≠ x := by omega
          simp [hkx, this]
        · simp [hkx]

/-- Reading the audio plane after a write to it. -/
theorem Block.audioAt_setAudio (b : Block) (key : Nat) (v : Half) (x : Nat) (h : b.mem.wf) :
    (b.setAudio key v).audioAt x = if key = x then v else b.audioAt x :=
  planeRead_planeWrite b.mem.audio key v x h.1

/-- Reading the sync plane after a write to it. -/
theorem Block.syncAt_setSync (b : Block) (key : Nat) (e : BitVec 1) (x : Nat) (h : b.mem.wf) :
    (b.setSync key e).syncAt x = if key = x then e else b.syncAt x :=
  planeRead_planeWrite b.mem.sync key e x h.2

/-- A write to the audio plane keeps the canonical form of the ring memory. -/
theorem Block.setAudio_wf (b : Block) (key : Nat) (v : Half) (h : b.mem.wf) : (b.setAudio key v).mem.wf :=
  ⟨planeWrite_wf b.mem.audio key v h.1, h.2⟩

/-- A write to the sync plane keeps the canonical form of the ring memory. -/
theorem Block.setSync_wf (b : Block) (key : Nat) (e : BitVec 1) (h : b.mem.wf) : (b.setSync key e).mem.wf :=
  ⟨h.1, planeWrite_wf b.mem.sync key e h.2⟩

/-- The ring memory after reset is in canonical form. -/
theorem reset_mem_wf (cfg : Config) : (Block.reset cfg).mem.wf := by
  simp [Block.reset, RingMemory.wf, planeWf]

/-- The key of a ring address is below the number of elements of a plane (rule R51). -/
theorem key_lt {cfg : Config} {slot idx : Nat} (h : slot < cfg.nb) (hi : idx < cfg.bs) :
    slot * cfg.bs + idx < cfg.nb * cfg.bs := by
  have h1 : (slot + 1) * cfg.bs ≤ cfg.nb * cfg.bs := Nat.mul_le_mul_right _ h
  have h2 : (slot + 1) * cfg.bs = slot * cfg.bs + cfg.bs := Nat.succ_mul _ _
  omega

/-- Different ring addresses have different keys (rule R51). -/
theorem key_injective {bs slot idx slot' idx' : Nat} (hi : idx < bs) (hi' : idx' < bs)
    (h : slot * bs + idx = slot' * bs + idx') : slot = slot' ∧ idx = idx' := by
  have h1 : (slot * bs + idx) / bs = slot := by
    rw [Nat.mul_comm, Nat.mul_add_div (by omega), Nat.div_eq_of_lt hi, Nat.add_zero]
  have h2 : (slot' * bs + idx') / bs = slot' := by
    rw [Nat.mul_comm, Nat.mul_add_div (by omega), Nat.div_eq_of_lt hi', Nat.add_zero]
  have hs : slot = slot' := by rw [← h1, ← h2, h]
  subst hs
  exact ⟨rfl, by omega⟩

end Sys2Proof.Machine
end

