-- ==== Sys2Proof/Laws/Ops.lean ====
section
/-!
SUPPORT. What each shared operation can do, said once: the responses, the guards, the ring access, the channel updates,
and the command port. Proofs about a meaning cite these and do not unfold the operations.
-/

namespace Sys2Proof.Machine

variable {s t : State}

/-- A response changes port `resp` and nothing else. -/
theorem respond_next {st : Status} {v : Value} (h : s.respond st v = .next t) :
    t = { s with resp := some ⟨st, v⟩ } := by
  simp only [State.respond, Host.Outcome.next.injEq] at h
  exact h.symm

/-- A refusal leaves everything but port `resp` (rule R223). -/
theorem refuse_next {st : Status} (h : s.refuse st = .next t) : t = { s with resp := some ⟨st, 0⟩ } :=
  respond_next h

/-- A completed command leaves the configuration and the inputs. -/
theorem complete_next {b : Block} {v : Value} (h : s.complete b v = .next t) :
    t = { s with block := b, resp := some ⟨.ok, v⟩ } :=
  respond_next h

/-- Taking the fault writes `fault` and `FCAUSE` and nothing else (rule R226). -/
theorem raiseFault_next {cause : FaultCause} (h : s.raiseFault cause = .next t) :
    t = { s with block := { s.block with fault := true, fcause := cause }, resp := some ⟨.faulted, 0⟩ } :=
  respond_next h

/-- An event gives no response. -/
theorem advance_next {b : Block} (h : s.advance b = .next t) : t = { s with block := b, resp := none } := by
  simp only [State.advance, Host.Outcome.next.injEq] at h
  exact h.symm

@[simp] theorem unlessFaulted_of_fault (k : Result) (h : s.block.fault = true) :
    s.unlessFaulted k = s.refuse .faulted := by simp [State.unlessFaulted, h]

@[simp] theorem unlessFaulted_of_live (k : Result) (h : s.block.fault = false) : s.unlessFaulted k = k := by
  simp [State.unlessFaulted, h]

/-- The two cases of the FAULT check (rule R224, step 1). -/
theorem unlessFaulted_next {k : Result} (h : s.unlessFaulted k = .next t) :
    s.block.fault = true ∧ t = { s with resp := some ⟨.faulted, 0⟩ } ∨ s.block.fault = false ∧ k = .next t := by
  cases hf : s.block.fault
  · exact .inr ⟨rfl, by simpa [hf] using h⟩
  · exact .inl ⟨rfl, refuse_next (by simpa [hf] using h)⟩

@[simp] theorem require_true (st : Status) (k : Result) : s.require true st k = k := rfl

@[simp] theorem require_false (st : Status) (k : Result) : s.require false st k = s.refuse st := rfl

/-- The two cases of a later check (rule R224). -/
theorem require_next {cond : Bool} {st : Status} {k : Result} (h : s.require cond st k = .next t) :
    cond = false ∧ t = { s with resp := some ⟨st, 0⟩ } ∨ cond = true ∧ k = .next t := by
  cases cond
  · exact .inl ⟨rfl, refuse_next h⟩
  · exact .inr ⟨rfl, h⟩

/-- The key of an address that exists. -/
theorem ringKey_eq {cfg : Config} {slot idx : Nat} (h : slot < cfg.nb) (hi : idx < cfg.bs) :
    ringKey cfg slot idx = some (slot * cfg.bs + idx) := by simp [ringKey, h, hi]

@[simp] theorem atRing_eq (k : Nat → Result) {slot idx : Nat} (h : slot < s.cfg.nb) (hi : idx < s.cfg.bs) :
    s.atRing slot idx k = k (slot * s.cfg.bs + idx) := by simp [State.atRing, ringKey_eq h hi]

/-- A ring access that ends in a next state was to an address that exists. -/
theorem atRing_next {slot idx : Nat} {k : Nat → Result} (h : s.atRing slot idx k = .next t) :
    slot < s.cfg.nb ∧ idx < s.cfg.bs ∧ k (slot * s.cfg.bs + idx) = .next t := by
  by_cases hc : slot < s.cfg.nb ∧ idx < s.cfg.bs
  · exact ⟨hc.1, hc.2, by simpa [hc] using h⟩
  · simp [State.atRing, ringKey, hc] at h

/-- Reading channels after one was replaced. -/
theorem Block.chan_setChan (b : Block) (ch : Nat) (c : Channel) (x : Nat) (h : ch < b.chans.length) :
    (b.setChan ch c).chan x = if ch = x then c else b.chan x := by
  simp only [Block.chan, Block.setChan, List.getD_eq_getElem?_getD, List.getElem?_set]
  split
  · simp_all
  · rfl

/-- Reading channels after all were rewritten. -/
theorem Block.chan_mapChans (b : Block) (f : Nat → Channel → Channel) (x : Nat) (h : x < b.chans.length) :
    (b.mapChans f).chan x = f x (b.chan x) := by
  simp [Block.chan, Block.mapChans, h]

/-- What the command port makes of a word (rule R224, steps 1 and 2). -/
theorem acceptWord_cases (fault : Bool) (w : CmdWord) :
    fault = true ∧ servedInFault w = false ∧ acceptWord fault w = .error .faulted ∨
    (fault = true → servedInFault w = true) ∧
      ((∃ i, decode w = .command i ∧ acceptWord fault w = .ok i) ∨
       ∃ e, decode w = .rejected e ∧ acceptWord fault w = .error .badOp) := by
  cases fault <;> cases hs : servedInFault w <;> cases hd : decode w <;> simp [acceptWord, hs, hd]

end Sys2Proof.Machine
end

