-- ==== Sys2Proof/Laws/Channels.lean ====
section
/-!
SUPPORT. The arithmetic of the rules with its ranges, and what each operation on a channel writes and keeps.
-/

namespace Sys2Proof.Machine

/-! ### Notation -/

/-- A value in `0 .. 65535` fits a 16-bit register (rule R13). -/
theorem u16_toNat {x : Int} (h0 : 0 ≤ x) (h1 : x ≤ 65535) : ((u16 x).toNat : Int) = x := by
  simp only [u16, BitVec.toNat_ofInt]
  omega

/-- A 16-bit register read and stored again. -/
@[simp] theorem u16_natCast (x : Half) : u16 (x.toNat : Int) = x := by
  simp [u16]

/-- A value in `-2^31 .. 2^31 - 1` fits a signed 32-bit register (rules R13, R205). -/
theorem u32_toInt {x : Int} (h0 : -2147483648 ≤ x) (h1 : x ≤ 2147483647) : (u32 x).toInt = x := by
  simp only [u32, BitVec.toInt_ofInt]
  exact Int.bmod_eq_of_le (by omega) (by omega)

@[simp] theorem u32_toInt_self (x : Value) : u32 x.toInt = x := by simp [u32]

/-- The clamp to `0 .. n` (rule R15). -/
theorem clamp_eq (x : Int) (n : Nat) : clamp x 0 n = max 0 (min x n) := by
  unfold clamp
  split
  · omega
  · split <;> omega

/-- A non-negative number divided toward zero is divided by the floor (rule R14). -/
theorem tdiv_eq_ediv {a b : Int} (h : 0 ≤ a) : tdiv a b = a / b := Int.tdiv_eq_ediv_of_nonneg h

/-! ### The smoother (rule R100) -/

/-- The smoother as a floor, where its operands are not negative. -/
theorem ema_eq {s raw k : Int} (hs : 0 ≤ s) (hr : 0 ≤ raw) (hk : 1 ≤ k) : ema s raw k = ((k - 1) * s + raw) / k :=
  tdiv_eq_ediv (by have := Int.mul_nonneg (by omega : 0 ≤ k - 1) hs; omega)

/-- The smoother as a step toward the input (rule R103). -/
theorem ema_eq_step {s raw k : Int} (hs : 0 ≤ s) (hr : 0 ≤ raw) (hk : 1 ≤ k) : ema s raw k = s + (raw - s) / k := by
  rw [ema_eq hs hr hk, show (k - 1) * s + raw = raw - s + s * k by ring, Int.add_mul_ediv_right _ _ (by omega)]
  omega

/-- The smoothed value stays in `0 .. 65535` (rule R48 (a)). -/
theorem ema_range {s raw k : Int} (hs : 0 ≤ s) (hs' : s ≤ 65535) (hr : 0 ≤ raw) (hr' : raw ≤ 65535) (hk : 1 ≤ k) :
    0 ≤ ema s raw k ∧ ema s raw k ≤ 65535 := by
  rw [ema_eq hs hr hk]
  have h1 : (k - 1) * s ≤ (k - 1) * 65535 := Int.mul_le_mul_of_nonneg_left hs' (by omega)
  have h0 : 0 ≤ (k - 1) * s := Int.mul_nonneg (by omega) hs
  exact ⟨Int.ediv_nonneg (by omega) (by omega), Int.ediv_le_of_le_mul (by omega) (by linarith)⟩

/-! ### The channel operations -/

variable (c : Channel) (tol : Nat) (raw target : Half)

@[simp] theorem snapCheck_k : (c.snapCheck tol).k = c.k := by unfold Channel.snapCheck; split <;> rfl
@[simp] theorem snapCheck_sm : (c.snapCheck tol).sm = c.sm := by unfold Channel.snapCheck; split <;> rfl
@[simp] theorem snapCheck_raw : (c.snapCheck tol).raw = c.raw := by unfold Channel.snapCheck; split <;> rfl
@[simp] theorem snapCheck_isLocked : (c.snapCheck tol).isLocked = c.isLocked := by
  unfold Channel.snapCheck; split <;> rfl
@[simp] theorem snapCheck_isSnapped : (c.snapCheck tol).isSnapped = (c.isSnapped || c.snaps tol) := by
  unfold Channel.snapCheck; split <;> simp_all
@[simp] theorem snapCheck_lockedv : (c.snapCheck tol).lockedv = c.lockedv := by
  unfold Channel.snapCheck; split <;> rfl
@[simp] theorem snapCheck_snapv : (c.snapCheck tol).snapv = c.snapv := by unfold Channel.snapCheck; split <;> rfl
@[simp] theorem snapCheck_offs : (c.snapCheck tol).offs = c.offs := by unfold Channel.snapCheck; split <;> rfl
@[simp] theorem snapCheck_lkt : (c.snapCheck tol).lkt = c.lkt := by unfold Channel.snapCheck; split <;> rfl

@[simp] theorem update_k : (c.update tol raw).k = c.k := by simp [Channel.update]
@[simp] theorem update_sm : (c.update tol raw).sm = u32 (ema c.sm.toInt raw.toNat c.k.toNat) := by
  simp [Channel.update]
@[simp] theorem update_raw : (c.update tol raw).raw = c.raw := by simp [Channel.update]
@[simp] theorem update_isLocked : (c.update tol raw).isLocked = c.isLocked := by simp [Channel.update]
@[simp] theorem update_lockedv : (c.update tol raw).lockedv = c.lockedv := by simp [Channel.update]
@[simp] theorem update_snapv : (c.update tol raw).snapv = c.snapv := by simp [Channel.update]
@[simp] theorem update_offs : (c.update tol raw).offs = c.offs := by simp [Channel.update]
@[simp] theorem update_lkt : (c.update tol raw).lkt = c.lkt := by simp [Channel.update]

/-- `is_snapped` after an update: kept, or set by the snap check on the new smoothed value (rule R124). -/
theorem update_isSnapped : (c.update tol raw).isSnapped =
    (c.isSnapped || (!c.isLocked && !c.isSnapped &&
      decide (((c.update tol raw).sm.toInt - c.snapv.toNat).natAbs ≤ tol))) := by
  simp [Channel.update, Channel.snaps]

/-- A channel is its nine registers. -/
theorem channel_ext {c d : Channel} (h1 : c.k = d.k) (h2 : c.sm = d.sm) (h3 : c.raw = d.raw)
    (h4 : c.isLocked = d.isLocked) (h5 : c.isSnapped = d.isSnapped) (h6 : c.lockedv = d.lockedv)
    (h7 : c.snapv = d.snapv) (h8 : c.offs = d.offs) (h9 : c.lkt = d.lkt) : c = d := by
  cases c; cases d; simp_all

/-- The effective value of a channel that is as it should be lies in `0 .. 65535` (rule R121). -/
theorem value_range {p : Bool} {c : Channel} (h : ChannelOk p c) : 0 ≤ c.value ∧ c.value ≤ 65535 := by
  have h1 := c.lockedv.isLt
  have h2 := c.snapv.isLt
  unfold Channel.value
  split
  · omega
  · split
    · exact ⟨h.1, h.2.1⟩
    · omega

/-- An update keeps the channel as it should be (rule R48). -/
theorem channelOk_update {p : Bool} {c : Channel} (tol : Nat) (raw : Half) (h : ChannelOk p c) (hk : c.k ≠ 0) :
    ChannelOk p (c.update tol raw) := by
  obtain ⟨h0, h1, h2, h3⟩ := h
  have hr := raw.isLt
  have hk' : 1 ≤ c.k.toNat := by
    rcases Nat.eq_zero_or_pos c.k.toNat with hz | hp
    · exact absurd (BitVec.eq_of_toNat_eq (by simpa using hz)) hk
    · exact hp
  obtain ⟨e0, e1⟩ := ema_range (s := c.sm.toInt) (raw := raw.toNat) (k := c.k.toNat) h0 h1 (by omega) (by omega)
    (by omega)
  have hsm : (c.update tol raw).sm.toInt = ema c.sm.toInt raw.toNat c.k.toNat := by
    rw [update_sm, u32_toInt (by omega) (by omega)]
  refine ⟨by omega, by omega, ?_, ?_⟩
  · intro hl
    rw [update_isLocked] at hl
    simp [update_isSnapped, h2 hl, hl]
  · intro hp
    obtain ⟨a1, a2, a3, a4⟩ := h3 hp
    simp [update_isSnapped, a1, a2, a3, a4]

/-- LOCK keeps a pot channel as it should be. -/
theorem channelOk_lock {c : Channel} (target : Half) (h : ChannelOk true c) : ChannelOk true (c.lock target) :=
  ⟨h.1, h.2.1, fun _ => rfl, fun hp => absurd hp (by decide)⟩

/-- UNLOCK keeps a pot channel as it should be. -/
theorem channelOk_unlock {c : Channel} (h : ChannelOk true c) : ChannelOk true c.unlock := by
  unfold Channel.unlock
  split
  · exact ⟨h.1, h.2.1, fun _ => rfl, fun hp => absurd hp (by decide)⟩
  · exact h

/-- The value captured by LOCK is the effective value before it (rule R122). -/
theorem lock_captures {p : Bool} {c : Channel} (target : Half) (h : ChannelOk p c) :
    ((c.lock target).lockedv.toNat : Int) = c.value :=
  u16_toNat (value_range h).1 (value_range h).2

/-- The number of channels after one of them was replaced, and after all were rewritten. -/
@[simp] theorem length_setChan (b : Block) (ch : Nat) : (b.setChan ch c).chans.length = b.chans.length := by simp

@[simp] theorem length_mapChans (b : Block) (f : Nat → Channel → Channel) :
    (b.mapChans f).chans.length = b.chans.length := by simp

/-- A replaced channel that is as it should be keeps the channels as they should be. -/
theorem channelsOk_setChan {cfg : Config} {b : Block} {c : Channel} {ch : Nat} (h : ChannelsOk cfg b)
    (hc : ch < cfg.nch → ChannelOk (cfg.isPot ch) c) : ChannelsOk cfg (b.setChan ch c) := by
  refine ⟨by simpa using h.1, fun x hx => ?_⟩
  by_cases hch : ch < cfg.nch
  · rw [Block.chan_setChan b ch c x (by rw [h.1]; exact hch)]
    split
    · rename_i he
      exact he ▸ hc hch
    · exact h.2 x hx
  · have : b.setChan ch c = b := by
      simp [Block.setChan, List.set_eq_of_length_le (show b.chans.length ≤ ch by rw [h.1]; omega)]
    rw [this]
    exact h.2 x hx

/-- Channels rewritten one by one, each as it should be. -/
theorem channelsOk_mapChans {cfg : Config} {b : Block} {f : Nat → Channel → Channel} (h : ChannelsOk cfg b)
    (hf : ∀ ch, ch < cfg.nch → ChannelOk (cfg.isPot ch) (f ch (b.chan ch))) : ChannelsOk cfg (b.mapChans f) := by
  refine ⟨by simpa using h.1, fun x hx => ?_⟩
  rw [Block.chan_mapChans b f x (by rw [h.1]; exact hx)]
  exact hf x hx

/-- Every window configured, said of the list and of the channel numbers. -/
theorem all_configured {b : Block} {n : Nat} (h : b.chans.length = n) :
    b.chans.all Channel.configured = true ↔ ∀ ch, ch < n → (b.chan ch).k ≠ 0 := by
  subst h
  simp only [List.all_eq_true, Channel.configured, bne_iff_ne]
  constructor
  · intro ha ch hch
    have := ha b.chans[ch] (List.getElem_mem hch)
    simpa [Block.chan, hch] using this
  · intro ha x hx
    obtain ⟨i, hi, rfl⟩ := List.mem_iff_getElem.1 hx
    simpa [Block.chan, hi] using ha i hi

/-- A register of every channel after one channel was replaced by one with the same register (rule R49). -/
theorem map_setChan {α : Type} (f : Channel → α) (b : Block) (ch : Nat) {c : Channel} (h : f c = f (b.chan ch)) :
    (b.setChan ch c).chans.map f = b.chans.map f := by
  refine List.ext_getElem (by simp) fun n h1 h2 => ?_
  have hn : n < b.chans.length := by simpa using h2
  simp only [Block.setChan, List.getElem_map, List.getElem_set]
  split
  · rename_i he
    subst he
    simp [h, Block.chan, hn]
  · rfl

/-- A register of every channel after the channels were rewritten without touching it (rule R49). -/
theorem map_mapChans {α : Type} (f : Channel → α) (b : Block) {g : Nat → Channel → Channel}
    (h : ∀ ch c, f (g ch c) = f c) : (b.mapChans g).chans.map f = b.chans.map f :=
  List.ext_getElem (by simp) fun n _ _ => by simp [Block.mapChans, h]

/-- A channel that the list holds, read through `chan`. -/
theorem getElem?_chan {b : Block} {ch : Nat} (h : ch < b.chans.length) : b.chans[ch]? = some (b.chan ch) := by
  simp [Block.chan, h]

end Sys2Proof.Machine
end

