-- ==== Sys2Proof/Laws/Decode.lean ====
section
/-!
SUPPORT. The fields of a packed word, and a word as its fields: what every proof about the decoder and the encoder cites.
-/

namespace Sys2Proof

/-- Bit `i` of a packed word (rule R70). -/
theorem getLsbD_packWord (op : BitVec 8) (a : Sel) (b : Half) (c : Value) (i : Nat) :
    (packWord op a b c).getLsbD i =
      if i < 32 then c.getLsbD i
      else if i < 48 then b.getLsbD (i - 32)
      else if i < 56 then a.getLsbD (i - 48)
      else op.getLsbD (i - 56) := by
  simp only [packWord, BitVec.getLsbD_append]
  by_cases h1 : i < 32
  · simp [h1]
  · by_cases h2 : i < 48
    · simp [h1, h2, show i - 32 < 16 by omega]
    · by_cases h3 : i < 56
      · simp [h1, h2, h3, show ¬ i - 32 < 16 by omega, show i - 32 - 16 = i - 48 by omega,
          show ¬ 8 ≤ i - 48 by omega]
      · simp [h1, h2, h3, show ¬ i - 32 < 16 by omega, show ¬ i - 32 - 16 < 8 by omega,
          show i - 32 - 16 - 8 = i - 56 by omega]

@[simp] theorem fieldOp_packWord (op : BitVec 8) (a : Sel) (b : Half) (c : Value) :
    fieldOp (packWord op a b c) = op := by
  refine BitVec.eq_of_getLsbD_eq fun i hi => ?_
  simp [fieldOp, getLsbD_packWord, hi, show ¬ 56 + i < 32 by omega, show ¬ 56 + i < 48 by omega]

@[simp] theorem fieldA_packWord (op : BitVec 8) (a : Sel) (b : Half) (c : Value) :
    fieldA (packWord op a b c) = a := by
  refine BitVec.eq_of_getLsbD_eq fun i hi => ?_
  simp [fieldA, getLsbD_packWord, hi, show ¬ 48 + i < 32 by omega, show 48 + i < 56 by omega]

@[simp] theorem fieldB_packWord (op : BitVec 8) (a : Sel) (b : Half) (c : Value) :
    fieldB (packWord op a b c) = b := by
  refine BitVec.eq_of_getLsbD_eq fun i hi => ?_
  simp [fieldB, getLsbD_packWord, hi, show 32 + i < 48 by omega]

@[simp] theorem fieldC_packWord (op : BitVec 8) (a : Sel) (b : Half) (c : Value) :
    fieldC (packWord op a b c) = c := by
  refine BitVec.eq_of_getLsbD_eq fun i hi => ?_
  simp [fieldC, getLsbD_packWord, hi]

/-- `c[31:16]` and `c[15:0]` are the halves of field `c` (rule R70). -/
theorem fieldCHigh_eq (w : CmdWord) : fieldCHigh w = (fieldC w).extractLsb' 16 16 := by
  ext i hi
  simp [fieldCHigh, fieldC]

theorem fieldCLow_eq (w : CmdWord) : fieldCLow w = (fieldC w).extractLsb' 0 16 := by
  ext i hi
  simp [fieldCLow, fieldC]

@[simp] theorem lowOperand_high (x : Half) : (lowOperand x).extractLsb' 16 16 = 0#16 := by
  ext i hi
  simp [lowOperand]

@[simp] theorem lowOperand_low (x : Half) : (lowOperand x).extractLsb' 0 16 = x := by
  ext i hi
  simp [lowOperand, show i < 32 by omega, BitVec.getLsbD_eq_getElem hi]

/-- A value whose high half is zero is its low half as an operand. -/
theorem lowOperand_of_high_zero (c : Value) (h : c.extractLsb' 16 16 = 0#16) : lowOperand (c.extractLsb' 0 16) = c := by
  ext i hi
  have hb := congrArg (fun x => x.getLsbD (i - 16)) h
  simp only [BitVec.getLsbD_extractLsb', BitVec.getLsbD_zero, Bool.and_eq_false_imp, decide_eq_true_eq] at hb
  by_cases h16 : i < 16
  · simp [lowOperand, h16, BitVec.getLsbD_eq_getElem hi]
  · have := hb (by omega)
    rw [show 16 + (i - 16) = i by omega, BitVec.getLsbD_eq_getElem hi] at this
    simp [lowOperand, BitVec.getLsbD_extractLsb', h16, this]

/-- A word is its four fields packed (rule R70). -/
theorem packWord_fields (w : CmdWord) : packWord (fieldOp w) (fieldA w) (fieldB w) (fieldC w) = w := by
  refine BitVec.eq_of_getLsbD_eq fun i hi => ?_
  rw [getLsbD_packWord]
  simp only [fieldOp, fieldA, fieldB, fieldC, BitVec.getLsbD_extractLsb']
  by_cases h1 : i < 32
  · simp [h1]
  · by_cases h2 : i < 48
    · simp [h1, h2, show i - 32 < 16 by omega, show 32 + (i - 32) = i by omega]
    · by_cases h3 : i < 56
      · simp [h1, h2, h3, show i - 48 < 8 by omega, show 48 + (i - 48) = i by omega]
      · simp [h1, h2, h3, show i - 56 < 8 by omega, show 56 + (i - 56) = i by omega]

/-- Words with equal fields are equal. -/
theorem word_ext {v w : CmdWord} (h1 : fieldOp v = fieldOp w) (h2 : fieldA v = fieldA w) (h3 : fieldB v = fieldB w)
    (h4 : fieldC v = fieldC w) : v = w := by
  rw [← packWord_fields v, ← packWord_fields w, h1, h2, h3, h4]

/-- Masking goes field by field (rule R78). -/
theorem fieldOp_and (v w : CmdWord) : fieldOp (v &&& w) = fieldOp v &&& fieldOp w := by
  ext i hi
  simp [fieldOp]

theorem fieldA_and (v w : CmdWord) : fieldA (v &&& w) = fieldA v &&& fieldA w := by
  ext i hi
  simp [fieldA]

theorem fieldB_and (v w : CmdWord) : fieldB (v &&& w) = fieldB v &&& fieldB w := by
  ext i hi
  simp [fieldB]

theorem fieldC_and (v w : CmdWord) : fieldC (v &&& w) = fieldC v &&& fieldC w := by
  ext i hi
  simp [fieldC]

/-- The bytes of a 64-bit number give it back (rule R54). -/
theorem wordOfBytes_bytesOfNat (n x : Nat) (h : x < 256 ^ n) : wordOfBytes (bytesOfNat n x) = x := by
  induction n generalizing x with
  | zero => simp [bytesOfNat, wordOfBytes] at *; omega
  | succ n ih =>
    have hd : x / 256 < 256 ^ n := Nat.div_lt_of_lt_mul (by rwa [Nat.pow_succ, Nat.mul_comm] at h)
    simp only [bytesOfNat, wordOfBytes, ih _ hd, BitVec.toNat_ofNat]
    omega

@[simp] theorem length_bytesOfNat (n x : Nat) : (bytesOfNat n x).length = n := by
  induction n generalizing x with
  | zero => rfl
  | succ n ih => simp [bytesOfNat, ih]

/-- Decoding the eight bytes of a word is decoding the word (rule R54). -/
theorem decodeBytes_bytesOfNat (w : CmdWord) : decodeBytes (bytesOfNat 8 w.toNat) = decode w := by
  have h : w.toNat < 256 ^ 8 := by have := w.isLt; omega
  simp [decodeBytes, wordOfBytes_bytesOfNat 8 w.toNat h]

/-- What the reserved-field check answers (rule R72). -/
theorem whenReservedZero_command {zero : Bool} {i j : Instr} (h : whenReservedZero zero i = .command j) :
    zero = true ∧ i = j := by
  cases zero <;> simp_all [whenReservedZero]

end Sys2Proof
end

