-- ==== Sys2Proof/Laws/Pitch.lean ====
section
/-!
SUPPORT. The arithmetic of the pitch laws, the quantiser and the calibration.
-/

namespace Sys2Proof.Machine

/-! ### The one write of the pitch laws -/

@[simp] theorem Block.setPitch_chans (b : Block) (p : Half) : (b.setPitch p).chans = b.chans := rfl
@[simp] theorem Block.setPitch_convPending (b : Block) (p : Half) : (b.setPitch p).convPending = b.convPending := rfl
@[simp] theorem Block.setPitch_law (b : Block) (p : Half) : (b.setPitch p).law = b.law := rfl
@[simp] theorem Block.setPitch_calScale (b : Block) (p : Half) : (b.setPitch p).calScale = b.calScale := rfl
@[simp] theorem Block.setPitch_calOffset (b : Block) (p : Half) : (b.setPitch p).calOffset = b.calOffset := rfl
@[simp] theorem Block.setPitch_calR1 (b : Block) (p : Half) : (b.setPitch p).calR1 = b.calR1 := rfl
@[simp] theorem Block.setPitch_pitch (b : Block) (p : Half) : (b.setPitch p).pitch = p := rfl
@[simp] theorem Block.setPitch_rb (b : Block) (p : Half) : (b.setPitch p).rb = b.rb := rfl
@[simp] theorem Block.setPitch_pb (b : Block) (p : Half) : (b.setPitch p).pb = b.pb := rfl
@[simp] theorem Block.setPitch_cs (b : Block) (p : Half) : (b.setPitch p).cs = b.cs := rfl
@[simp] theorem Block.setPitch_rendering (b : Block) (p : Half) : (b.setPitch p).rendering = b.rendering := rfl
@[simp] theorem Block.setPitch_trigPending (b : Block) (p : Half) : (b.setPitch p).trigPending = b.trigPending := rfl
@[simp] theorem Block.setPitch_xrun (b : Block) (p : Half) : (b.setPitch p).xrun = b.xrun := rfl
@[simp] theorem Block.setPitch_gatePrev (b : Block) (p : Half) : (b.setPitch p).gatePrev = b.gatePrev := rfl
@[simp] theorem Block.setPitch_fault (b : Block) (p : Half) : (b.setPitch p).fault = b.fault := rfl
@[simp] theorem Block.setPitch_fcause (b : Block) (p : Half) : (b.setPitch p).fcause = b.fcause := rfl
@[simp] theorem Block.setPitch_dacout (b : Block) (p : Half) : (b.setPitch p).dacout = b.dacout := rfl
@[simp] theorem Block.setPitch_mem (b : Block) (p : Half) : (b.setPitch p).mem = b.mem := rfl

/-! ### The arithmetic -/

/-- The evaluator stays in `0 .. PITCH_MAX` (rule R149). -/
theorem evaluate_range (b : Block) (cfg : Config) (cv co : Int) :
    0 ≤ b.evaluate cfg cv co ∧ b.evaluate cfg cv co ≤ cfg.pitchMax := by
  unfold Block.evaluate
  rw [clamp_eq]
  omega

/-- The mask-and-add idiom rounds down to a multiple of the grid step (rule R154). -/
theorem mask_is_floor (x : Nat) (hx : x < 2 ^ 32) (n : Nat) (hn : n ≤ 16) :
    (BitVec.ofNat 32 x &&& ~~~(BitVec.ofNat 32 (2 ^ n - 1))).toNat = x / 2 ^ n * 2 ^ n := by
  have hpow : 2 ^ n ≤ 2 ^ 16 := Nat.pow_le_pow_right (by omega) hn
  rw [← Nat.shiftLeft_eq, ← Nat.shiftRight_eq_div_pow]
  refine Nat.eq_of_testBit_eq fun i => ?_
  rw [Nat.testBit_shiftLeft, Nat.testBit_shiftRight, ← BitVec.getLsbD]
  simp only [BitVec.getLsbD_and, BitVec.getLsbD_not, BitVec.getLsbD_ofNat]
  by_cases hi : i < 32
  · by_cases hin : n ≤ i
    · simp [hi, hin, Nat.testBit_two_pow_sub_one, show ¬ i < n by omega, show n + (i - n) = i by omega]
    · simp [hi, hin, Nat.testBit_two_pow_sub_one, show i < n by omega]
  · have hxi : x < 2 ^ i := lt_of_lt_of_le hx (Nat.pow_le_pow_right (by omega) (by omega))
    simp [hi, show n ≤ i by omega, show n + (i - n) = i by omega, Nat.testBit_lt_two_pow hxi]

/-- `round_to_grid` for the two grids of QNT, as arithmetic (rule R154). -/
theorem roundToGrid_eq (cfg : Config) (p g : Nat) (hp : p ≤ 65535) (hg : g = 64 ∨ g = 128) :
    roundToGrid cfg p g = (min ((p + g / 2) / g * g) cfg.pitchMax : Nat) := by
  have key : (BitVec.ofNat 32 (p + g / 2) &&& ~~~(BitVec.ofNat 32 (g - 1))).toNat = (p + g / 2) / g * g := by
    rcases hg with rfl | rfl
    · exact mask_is_floor (p + 64 / 2) (by omega) 6 (by omega)
    · exact mask_is_floor (p + 128 / 2) (by omega) 7 (by omega)
  unfold roundToGrid
  rw [key, clamp_eq]
  omega

/-- A division toward zero by a number that is not 0 does not grow (rule R158). -/
theorem natAbs_tdiv_le (a b : Int) : (tdiv a b).natAbs ≤ a.natAbs := by
  rw [tdiv, Int.natAbs_tdiv]
  exact Nat.div_le_self _ _

/-- The ranges of CAL3's results (rule R158): the scale fits and is never 0, the offset is below `2^28`. -/
theorem calibration_ranges {r1 r2 : Int} (h1 : 0 ≤ r1) (h1' : r1 ≤ 65535) (h2 : 0 ≤ r2) (h2' : r2 ≤ 65535)
    (hne : r2 ≠ r1) :
    -12582912 ≤ calScaleOf r1 r2 ∧ calScaleOf r1 r2 ≤ 12582912 ∧ calScaleOf r1 r2 ≠ 0 ∧
    -268435456 < calOffsetOf r1 (calScaleOf r1 r2) ∧ calOffsetOf r1 (calScaleOf r1 r2) < 268435456 := by
  have hs : (calScaleOf r1 r2).natAbs ≤ 12582912 := natAbs_tdiv_le (Config.calSpan * 4096) (r2 - r1)
  have hz : (calScaleOf r1 r2).natAbs ≠ 0 := by
    rw [calScaleOf, tdiv, Int.natAbs_tdiv]
    have hd : 0 < (r2 - r1).natAbs := by omega
    have : 0 < (Config.calSpan * 4096).natAbs / (r2 - r1).natAbs :=
      Nat.div_pos (show (r2 - r1).natAbs ≤ 12582912 by omega) hd
    exact Nat.pos_iff_ne_zero.1 this
  generalize calScaleOf r1 r2 = scale at *
  have hm : (r1 * scale).natAbs ≤ 65535 * 12582912 := by
    rw [Int.natAbs_mul]
    exact Nat.mul_le_mul (by omega) hs
  have ht : (tdiv (r1 * scale) 4096).natAbs ≤ 65535 * 12582912 / 4096 := by
    rw [tdiv, Int.natAbs_tdiv]
    exact Nat.div_le_div_right hm
  have hl : Config.calLowCode = 4608 := by decide
  unfold calOffsetOf
  rw [hl]
  omega

end Sys2Proof.Machine
end

