-- ==== Sys2Proof/Laws/Inversion.lean ====
section
/-!
SUPPORT. What a command can do, said once. `Completes i s b v`: command `i` in state `s` passes its checks, leaves the
block in `b` and answers `(OK, v)`. `exec_next` gives the three cases of a command's step (rules R9, R220); every
statement about all commands is a case split on it.
-/

namespace Sys2Proof.Machine

/-- A completed command (rule R9): its checks, the block it leaves, and the value it answers. -/
def Completes (i : Instr) (s : State) (b : Block) (v : Value) : Prop :=
  match i with
  | .nop => b = s.block ∧ v = 0
  | .rd r => ∃ reg, regOf s.cfg r = some reg ∧ b = s.block ∧ v = readReg s.block reg
  | .wr r x => ∃ reg, regOf s.cfg r = some reg ∧ writeReg s.block x reg = some b ∧ v = 0
  | .upd ch raw => ch.toNat < s.cfg.nch ∧ (s.block.chan ch.toNat).k ≠ 0 ∧
      b = s.block.setChan ch.toNat ((s.block.chan ch.toNat).update s.cfg.snapTol raw) ∧ v = (((s.block.chan ch.toNat).update s.cfg.snapTol raw)).sm
  | .updall => s.block.chans.all Channel.configured = true ∧
      b = s.block.mapChans (fun _ c => c.update s.cfg.snapTol c.raw) ∧ v = 0
  | .conv => b = { s.block with convPending := true } ∧ v = 0
  | .val ch => ch.toNat < s.cfg.nch ∧ b = s.block ∧ v = u32 (s.block.value ch.toNat)
  | .lock ch target => s.cfg.isPot ch.toNat = true ∧
      b = s.block.setChan ch.toNat ((s.block.chan ch.toNat).lock target) ∧ v = 0
  | .unlock ch => s.cfg.isPot ch.toNat = true ∧
      b = s.block.setChan ch.toNat (s.block.chan ch.toNat).unlock ∧ v = 0
  | .lockm mask => maskLegal s.cfg mask = true ∧
      b = s.block.mapChans (fun ch c => if mask.getLsbD ch then c.lock c.lkt else c) ∧ v = 0
  | .unlockm => b = s.block.mapChans (fun ch c => if s.cfg.isPot ch then c.unlock else c) ∧ v = 0
  | .eval => ∃ p, p = u16 (s.block.evaluate s.cfg (s.block.value s.cfg.chCv) (s.block.value s.cfg.chCoarse)) ∧
      b = s.block.setPitch p ∧ v = p.zeroExtend 32
  | .evali cv co => ∃ p, p = u16 (s.block.evaluate s.cfg cv.toNat co.toNat) ∧ b = s.block.setPitch p ∧
      v = p.zeroExtend 32
  | .qnt grid => ∃ p, (gridStep grid = none ∧ p = s.block.pitch ∨
      ∃ g, gridStep grid = some g ∧ p = u16 (roundToGrid s.cfg s.block.pitch.toNat g)) ∧
      grid.toNat ≤ 2 ∧ b = s.block.setPitch p ∧ v = p.zeroExtend 32
  | .cal0 => b = s.block.mapChans (fun ch c => if s.cfg.isPot ch then { c with offs := u16 c.value } else c) ∧ v = 0
  | .cal1 => ∃ r, r = u16 (s.block.value s.cfg.chCv) ∧ b = { s.block with calR1 := r } ∧ v = r.zeroExtend 32
  | .cal3 => ∃ scale, s.block.value s.cfg.chCv ≠ s.block.calR1.toNat ∧
      scale = calScaleOf s.block.calR1.toNat (s.block.value s.cfg.chCv) ∧
      b = { s.block with calScale := u32 scale, calOffset := u32 (calOffsetOf s.block.calR1.toNat scale) } ∧
      v = u32 scale
  | .rbegin => s.block.rendering = false ∧ s.block.rb ≠ s.block.pb ∧ b = { s.block with rendering := true } ∧
      v = s.block.rb.zeroExtend 32
  | .swr idx sample => s.block.rendering = true ∧ s.block.rb.toNat < s.cfg.nb ∧ idx.toNat < s.cfg.bs ∧
      b = s.block.setAudio (s.block.rb.toNat * s.cfg.bs + idx.toNat) sample ∧ v = 0
  | .rsync idx => s.block.rendering = true ∧ s.block.rb.toNat < s.cfg.nb ∧ idx.toNat < s.cfg.bs ∧ b = s.block ∧
      v = (s.block.syncAt (s.block.rb.toNat * s.cfg.bs + idx.toNat)).zeroExtend 32
  | .adv => s.block.rendering = true ∧ b = { s.block with rb := nextSlot s.cfg s.block.rb, rendering := false } ∧
      v = (nextSlot s.cfg s.block.rb).zeroExtend 32
  | .trgtake => b = { s.block with trigPending := false } ∧
      v = (BitVec.ofBool s.block.trigPending).zeroExtend 32
  | .trgset => b = { s.block with trigPending := true } ∧ v = 0

/-- The statuses with which a command can leave the block as it was (rule R222). -/
def refusalsOf : Instr → List Status
  | .nop => []
  | .rd _ => [.badArg]
  | .wr _ _ => [.faulted, .badArg]
  | .upd _ _ => [.faulted, .badArg, .unconfig]
  | .updall => [.faulted, .unconfig]
  | .conv => [.faulted]
  | .val _ => [.faulted, .badArg]
  | .lock _ _ => [.faulted, .badArg]
  | .unlock _ => [.faulted, .badArg]
  | .lockm _ => [.faulted, .badArg]
  | .unlockm => [.faulted]
  | .eval => [.faulted]
  | .evali _ _ => [.faulted]
  | .qnt _ => [.faulted, .badArg]
  | .cal0 => [.faulted]
  | .cal1 => [.faulted]
  | .cal3 => [.faulted, .calFail]
  | .rbegin => [.faulted, .badSeq, .notReady]
  | .swr _ _ => [.faulted, .badArg, .badSeq]
  | .rsync _ => [.faulted, .badArg, .badSeq]
  | .adv => [.faulted, .badSeq]
  | .trgtake => [.faulted]
  | .trgset => [.faulted]

/-- The outcome of a command that steps: it is turned away with nothing written, or it completes, or it is the SWR that
enters FAULT. -/
inductive CommandCase (i : Instr) (s t : State) : Prop where
  | turnedAway (st : Status) (hst : st ∈ refusalsOf i) (h : t = { s with resp := some ⟨st, 0⟩ })
  | completes (b : Block) (v : Value) (hlive : i = .nop ∨ (∃ r, i = .rd r) ∨ s.block.fault = false)
      (hc : Completes i s b v) (h : t = { s with block := b, resp := some ⟨.ok, v⟩ })
  | collides (idx sample : Half) (hi : i = .swr idx sample) (hidx : idx.toNat < s.cfg.bs)
      (hlive : s.block.fault = false) (hr : s.block.rendering = false) (hrb : s.block.rb = s.block.pb)
      (h : t = { s with block := { s.block with fault := true, fcause := .ringCollision }, resp := some ⟨.faulted, 0⟩ })

variable {s t : State}

/-- A command behind the FAULT check. -/
theorem live_cases {i : Instr} {k : Result} (hf : Status.faulted ∈ refusalsOf i) (h : s.unlessFaulted k = .next t)
    (hk : s.block.fault = false → k = .next t → CommandCase i s t) : CommandCase i s t := by
  rcases unlessFaulted_next h with ⟨-, rfl⟩ | ⟨hl, h⟩
  · exact .turnedAway .faulted hf rfl
  · exact hk hl h

/-- A command behind a later check. -/
theorem checked_cases {i : Instr} {cond : Bool} {st : Status} {k : Result} (hst : st ∈ refusalsOf i)
    (h : s.require cond st k = .next t) (hk : cond = true → k = .next t → CommandCase i s t) : CommandCase i s t := by
  rcases require_next h with ⟨-, rfl⟩ | ⟨hc, h⟩
  · exact .turnedAway st hst rfl
  · exact hk hc h

/-- Every command that steps is one of the three cases. -/
theorem exec_next (i : Instr) (h : exec i s = .next t) : CommandCase i s t := by
  cases i with
  | nop => exact .completes s.block 0 (.inl rfl) ⟨rfl, rfl⟩ (respond_next h)
  | rd r =>
    simp only [exec, execRd] at h
    split at h
    · rename_i reg hr
      exact .completes s.block _ (.inr (.inl ⟨r, rfl⟩)) ⟨reg, hr, rfl, rfl⟩ (respond_next h)
    · exact .turnedAway .badArg (by simp [refusalsOf]) (refuse_next h)
  | wr r v =>
    refine live_cases (by simp [refusalsOf]) h fun hl h => ?_
    split at h
    · rename_i b hb
      obtain ⟨reg, hr, hw⟩ := Option.bind_eq_some_iff.1 hb
      exact .completes b 0 (.inr (.inr hl)) ⟨reg, hr, hw, rfl⟩ (complete_next h)
    · exact .turnedAway .badArg (by simp [refusalsOf]) (refuse_next h)
  | upd ch raw =>
    refine live_cases (by simp [refusalsOf]) h fun hl h => ?_
    refine checked_cases (by simp [refusalsOf]) h fun hch h => ?_
    refine checked_cases (by simp [refusalsOf]) h fun hk h => ?_
    exact .completes _ _ (.inr (.inr hl))
      ⟨by simpa [channelExists] using hch, by simpa [Channel.configured] using hk, rfl, rfl⟩ (complete_next h)
  | updall =>
    refine live_cases (by simp [refusalsOf]) h fun hl h => ?_
    refine checked_cases (by simp [refusalsOf]) h fun hk h => ?_
    exact .completes _ _ (.inr (.inr hl)) ⟨hk, rfl, rfl⟩ (complete_next h)
  | conv =>
    refine live_cases (by simp [refusalsOf]) h fun hl h => ?_
    exact .completes _ _ (.inr (.inr hl)) ⟨rfl, rfl⟩ (complete_next h)
  | val ch =>
    refine live_cases (by simp [refusalsOf]) h fun hl h => ?_
    refine checked_cases (by simp [refusalsOf]) h fun hch h => ?_
    exact .completes s.block _ (.inr (.inr hl)) ⟨by simpa [channelExists] using hch, rfl, rfl⟩ (respond_next h)
  | lock ch target =>
    refine live_cases (by simp [refusalsOf]) h fun hl h => ?_
    refine checked_cases (by simp [refusalsOf]) h fun hp h => ?_
    exact .completes _ _ (.inr (.inr hl)) ⟨hp, rfl, rfl⟩ (complete_next h)
  | unlock ch =>
    refine live_cases (by simp [refusalsOf]) h fun hl h => ?_
    refine checked_cases (by simp [refusalsOf]) h fun hp h => ?_
    exact .completes _ _ (.inr (.inr hl)) ⟨hp, rfl, rfl⟩ (complete_next h)
  | lockm mask =>
    refine live_cases (by simp [refusalsOf]) h fun hl h => ?_
    refine checked_cases (by simp [refusalsOf]) h fun hm h => ?_
    exact .completes _ _ (.inr (.inr hl)) ⟨hm, rfl, rfl⟩ (complete_next h)
  | unlockm =>
    refine live_cases (by simp [refusalsOf]) h fun hl h => ?_
    exact .completes _ _ (.inr (.inr hl)) ⟨rfl, rfl⟩ (complete_next h)
  | eval =>
    refine live_cases (by simp [refusalsOf]) h fun hl h => ?_
    exact .completes _ _ (.inr (.inr hl)) ⟨_, rfl, rfl, rfl⟩ (complete_next h)
  | evali cv co =>
    refine live_cases (by simp [refusalsOf]) h fun hl h => ?_
    exact .completes _ _ (.inr (.inr hl)) ⟨_, rfl, rfl, rfl⟩ (complete_next h)
  | qnt grid =>
    refine live_cases (by simp [refusalsOf]) h fun hl h => ?_
    refine checked_cases (by simp [refusalsOf]) h fun hg h => ?_
    have hg' : grid.toNat ≤ 2 := by simpa [gridLegal] using hg
    split at h
    · rename_i g hs
      exact .completes _ _ (.inr (.inr hl)) ⟨_, .inr ⟨g, hs, rfl⟩, hg', rfl, rfl⟩ (complete_next h)
    · rename_i hs
      exact .completes _ _ (.inr (.inr hl)) ⟨_, .inl ⟨hs, rfl⟩, hg', rfl, rfl⟩ (complete_next h)
  | cal0 =>
    refine live_cases (by simp [refusalsOf]) h fun hl h => ?_
    exact .completes _ _ (.inr (.inr hl)) ⟨rfl, rfl⟩ (complete_next h)
  | cal1 =>
    refine live_cases (by simp [refusalsOf]) h fun hl h => ?_
    exact .completes _ _ (.inr (.inr hl)) ⟨_, rfl, rfl, rfl⟩ (complete_next h)
  | cal3 =>
    refine live_cases (by simp [refusalsOf]) h fun hl h => ?_
    refine checked_cases (by simp [refusalsOf]) h fun hne h => ?_
    exact .completes _ _ (.inr (.inr hl)) ⟨_, by simpa using hne, rfl, rfl, rfl⟩ (complete_next h)
  | rbegin =>
    refine live_cases (by simp [refusalsOf]) h fun hl h => ?_
    refine checked_cases (by simp [refusalsOf]) h fun hr h => ?_
    refine checked_cases (by simp [refusalsOf]) h fun hn h => ?_
    exact .completes _ _ (.inr (.inr hl)) ⟨by simpa using hr, by simpa using hn, rfl, rfl⟩ (complete_next h)
  | swr idx sample =>
    refine live_cases (by simp [refusalsOf]) h fun hl h => ?_
    refine checked_cases (by simp [refusalsOf]) h fun hi h => ?_
    split at h
    · rename_i hr
      obtain ⟨h1, h2, h⟩ := atRing_next h
      exact .completes _ _ (.inr (.inr hl)) ⟨hr, h1, h2, rfl, rfl⟩ (complete_next h)
    · rename_i hr
      split at h
      · rename_i hrb
        exact .collides idx sample rfl (by simpa [indexExists] using hi) hl (by simpa using hr) hrb (raiseFault_next h)
      · exact .turnedAway .badSeq (by simp [refusalsOf]) (refuse_next h)
  | rsync idx =>
    refine live_cases (by simp [refusalsOf]) h fun hl h => ?_
    refine checked_cases (by simp [refusalsOf]) h fun hi h => ?_
    refine checked_cases (by simp [refusalsOf]) h fun hr h => ?_
    obtain ⟨h1, h2, h⟩ := atRing_next h
    exact .completes s.block _ (.inr (.inr hl)) ⟨hr, h1, h2, rfl, rfl⟩ (respond_next h)
  | adv =>
    refine live_cases (by simp [refusalsOf]) h fun hl h => ?_
    refine checked_cases (by simp [refusalsOf]) h fun hr h => ?_
    exact .completes _ _ (.inr (.inr hl)) ⟨hr, rfl, rfl⟩ (complete_next h)
  | trgtake =>
    refine live_cases (by simp [refusalsOf]) h fun hl h => ?_
    exact .completes _ _ (.inr (.inr hl)) ⟨rfl, rfl⟩ (complete_next h)
  | trgset =>
    refine live_cases (by simp [refusalsOf]) h fun hl h => ?_
    exact .completes _ _ (.inr (.inr hl)) ⟨rfl, rfl⟩ (complete_next h)

/-- What an update, an UPD or an UPDALL, does to the channels (rules R101, R104): each keeps all its registers or is updated with
some raw sample. -/
theorem update_next {i : Instr} (hi : i = .updall ∨ ∃ c raw, i = .upd c raw) (h : exec i s = .next t) :
    t.cfg = s.cfg ∧ t.block.chans.length = s.block.chans.length ∧
    ∀ ch, ch < s.block.chans.length → t.block.chan ch = s.block.chan ch ∨
      ∃ raw, t.block.chan ch = (s.block.chan ch).update s.cfg.snapTol raw := by
  cases exec_next i h with
  | turnedAway st _ ht => subst ht; exact ⟨rfl, rfl, fun _ _ => .inl rfl⟩
  | collides idx sample hs => rcases hi with rfl | ⟨c, raw, rfl⟩ <;> cases hs
  | completes b v _ hc ht =>
    subst ht
    rcases hi with rfl | ⟨c, raw, rfl⟩
    · obtain ⟨-, rfl, -⟩ := hc
      exact ⟨rfl, by simp, fun ch hch => .inr ⟨_, Block.chan_mapChans _ _ _ hch⟩⟩
    · obtain ⟨-, -, rfl, -⟩ := hc
      refine ⟨rfl, by simp, fun ch hch => ?_⟩
      by_cases he : ch = c.toNat
      · exact .inr ⟨raw, by subst he; simp [Block.chan_setChan _ _ _ _ hch]⟩
      · exact .inl (by
          by_cases hl : c.toNat < s.block.chans.length
          · simp [Block.chan_setChan _ _ _ _ hl, Ne.symm he]
          · simp [Block.setChan, List.set_eq_of_length_le (Nat.le_of_not_lt hl)])

/-- What a WR that was accepted has written (rule R204). -/
theorem writeReg_some {b b' : Block} {v : Value} {reg : Reg} (h : writeReg b v reg = some b') :
    (∃ l, lawOfCode v.toNat = some l ∧ reg = .law ∧ b' = { b with law := l }) ∨
    (reg = .calScale ∧ b' = { b with calScale := v }) ∨
    (reg = .calOffset ∧ b' = { b with calOffset := v }) ∨
    (∃ ch, reg = .k ch ∧ 1 ≤ v.toNat ∧ v.toNat ≤ 255 ∧ b' = b.setChan ch { b.chan ch with k := v.truncate 8 }) ∨
    (∃ ch, reg = .offs ch ∧ v.toNat ≤ 65535 ∧ b' = b.setChan ch { b.chan ch with offs := v.truncate 16 }) ∨
    (∃ ch, reg = .lkt ch ∧ v.toNat ≤ 65535 ∧ b' = b.setChan ch { b.chan ch with lkt := v.truncate 16 }) := by
  cases reg <;> simp only [writeReg, Option.map_eq_some_iff, Option.ite_none_right_eq_some, Option.some.injEq,
    reduceCtorEq] at h
  case law =>
    obtain ⟨l, hl, rfl⟩ := h
    exact .inl ⟨l, hl, rfl, rfl⟩
  case calScale => exact .inr (.inl ⟨rfl, h.symm⟩)
  case calOffset => exact .inr (.inr (.inl ⟨rfl, h.symm⟩))
  case k ch => exact .inr (.inr (.inr (.inl ⟨ch, rfl, h.1.1, h.1.2, h.2.symm⟩)))
  case offs ch => exact .inr (.inr (.inr (.inr (.inl ⟨ch, rfl, h.1, h.2.symm⟩))))
  case lkt ch => exact .inr (.inr (.inr (.inr (.inr ⟨ch, rfl, h.1, h.2.symm⟩))))

end Sys2Proof.Machine
end

