-- ==== Sys2Proof/Laws/Operands.lean ====
section
/-!
SUPPORT. The operand forms, said once: the reserved fields of a command word, register numbers, masks, ring indices, and
what a tick does to the registers of the scheduler.
-/

namespace Sys2Proof.Machine

/-- What the command port makes of a word whose decoding is behind a reserved-field check (rules R72, R76). -/
theorem acceptWord_of_decode {w : CmdWord} {zero : Bool} {i : Instr} (h : decode w = whenReservedZero zero i) :
    acceptWord false w = if zero = true then .ok i else .error .badOp := by
  simp only [acceptWord, h, Bool.false_and]
  cases zero <;> rfl

/-- The register of group `g` for channel `ch` (rule R203). -/
theorem regOf_group (cfg : Config) (g ch : Nat) (hn : cfg.nch ≤ 16) (hch : ch < cfg.nch) (h1 : 1 ≤ g) (h8 : g ≤ 8) :
    regOf cfg (BitVec.ofNat 8 (g * 16 + ch)) = groupReg g ch := by
  unfold regOf
  simp only [BitVec.toNat_ofNat]
  rw [Nat.mod_eq_of_lt (by omega), if_neg (by omega), if_pos (by rw [show (g * 16 + ch) % 16 = ch by omega]; exact hch)]
  congr 1 <;> omega

/-- The channel of a writable channel register exists (rule R203). -/
theorem regOf_channel {cfg : Config} {r : Sel} {reg : Reg} (h : regOf cfg r = some reg) (ch : Nat)
    (hreg : reg = .k ch ∨ reg = .offs ch ∨ reg = .lkt ch) : ch < cfg.nch := by
  unfold regOf at h
  split at h
  · unfold globalReg at h
    split at h <;> simp at h <;> subst h <;> simp at hreg
  · split at h
    · unfold groupReg at h
      split at h <;> simp at h <;> subst h <;> simp at hreg <;> omega
    · simp at h

/-- A legal mask names pot channels only (rule R125). -/
theorem maskLegal_iff {cfg : Config} (mask : Half) (hc : cfg.Legal) :
    maskLegal cfg mask = true ↔ ∀ ch, mask.getLsbD ch = true → ch < cfg.nch ∧ cfg.pots.getLsbD ch = true := by
  simp only [maskLegal, beq_iff_eq]
  constructor
  · intro h ch hm
    have h16 : ch < 16 := BitVec.lt_of_getLsbD hm
    have := congrArg (fun x => x.getLsbD ch) h
    simp [hm, h16] at this
    refine ⟨?_, this⟩
    by_contra hc2
    have h3 : cfg.pots.toNat < 2 ^ ch := lt_of_lt_of_le hc.2.2.1 (Nat.pow_le_pow_right (by omega) (by omega))
    rw [← BitVec.getLsbD_eq_getElem, ← BitVec.testBit_toNat, Nat.testBit_lt_two_pow h3] at this
    cases this
  · intro h
    refine BitVec.eq_of_getLsbD_eq fun i hi => ?_
    rw [BitVec.getLsbD_and, BitVec.getLsbD_not]
    cases hm : mask.getLsbD i with
    | false => simp
    | true => simp only [(h i hm).2]; simp

/-- A channel put back as it was changes nothing. -/
@[simp] theorem set_chan_self (b : Block) (ch : Nat) : b.chans.set ch (b.chan ch) = b.chans := by
  by_cases h : ch < b.chans.length
  · simp [Block.chan, h]
  · exact List.set_eq_of_length_le (by omega)

/-- A channel after all were rewritten, as an element of the list. -/
theorem getElem?_mapIdx_chan {b : Block} {f : Nat → Channel → Channel} {ch : Nat} (h : ch < b.chans.length) :
    (b.chans.mapIdx f)[ch]? = some (f ch (b.chan ch)) := by
  simp [Block.chan, h]

/-- The slot after a slot, as a number (rules R173, R182). -/
theorem nextSlot_toNat {cfg : Config} (h : cfg.Legal) (slot : BitVec 4) :
    (nextSlot cfg slot).toNat = (slot.toNat + 1) % cfg.nb := by
  have h2 : (slot.toNat + 1) % cfg.nb < cfg.nb := Nat.mod_lt _ (by have := h.2.2.2.2.2.2.1; omega)
  have h16 := h.2.2.2.2.2.2.2.1
  simp only [nextSlot, BitVec.toNat_ofNat]
  omega

/-- What a tick does to the registers of the scheduler, whatever element the consumer stands on (rule R170). -/
theorem tickAt_registers (b : Block) (cfg : Config) (key : Nat) (g : Bool) :
    (b.tickAt cfg key g).rb = b.rb ∧ (b.tickAt cfg key g).fault = b.fault ∧ (b.tickAt cfg key g).gatePrev = g ∧
    (b.tickAt cfg key g).trigPending = (risingEdge g b.gatePrev || b.trigPending) ∧
    (b.cs.toNat + 1 < cfg.bs → (b.tickAt cfg key g).cs = b.cs + 1 ∧ (b.tickAt cfg key g).pb = b.pb ∧
      (b.tickAt cfg key g).xrun = b.xrun) ∧
    (¬ b.cs.toNat + 1 < cfg.bs → (b.tickAt cfg key g).cs = 0 ∧ (b.tickAt cfg key g).pb = nextSlot cfg b.pb ∧
      (b.tickAt cfg key g).xrun = (nextSlot cfg b.pb == b.rb || b.xrun)) := by
  by_cases h : b.cs.toNat + 1 < cfg.bs <;>
    simp [Block.tickAt, Block.advanceConsumer, h, trigAfterEdge, xrunAfterEntering]

end Sys2Proof.Machine
end

