-- ==== Sys2Proof/Laws/PerInstr.lean ====
section
/-!
SUPPORT. Per command: its encoding selects a row of the opcode table that carries its mnemonic (rule R78).
-/

namespace Sys2Proof.Laws.EncodingSelectsRow

/-- The encoding of the command selects a row with the command's mnemonic. -/
def Statement (i : Instr) : Prop := ∃ r ∈ opcodeTable, r.mnemonic = i.mnemonic ∧ r.selects (encode i) = true

/-- Masking, field by field, is enough to select a row. -/
theorem selects_of_fields {r : TableRow} {w : CmdWord} (h1 : fieldOp w &&& fieldOp r.mask = fieldOp r.pattern)
    (h2 : fieldA w &&& fieldA r.mask = fieldA r.pattern) (h3 : fieldB w &&& fieldB r.mask = fieldB r.pattern)
    (h4 : fieldC w &&& fieldC r.mask = fieldC r.pattern) : r.selects w = true := by
  simp only [TableRow.selects, beq_iff_eq]
  exact word_ext (by rw [fieldOp_and, h1]) (by rw [fieldA_and, h2]) (by rw [fieldB_and, h3]) (by rw [fieldC_and, h4])

/-- The low half of the mask `0xFFFF0000` is zero. -/
theorem mask_low_bits : ∀ j : Fin 16, (0xFFFF0000#32).getLsbD j = false := by decide

/-- The mask `0xFFFF0000` clears an operand in `c[15:0]`. -/
theorem lowOperand_and_mask (x : Half) : lowOperand x &&& 0xFFFF0000#32 = 0#32 := by
  refine BitVec.eq_of_getLsbD_eq fun i hi => ?_
  by_cases h : i < 16
  · simp [mask_low_bits ⟨i, h⟩]
  · simp [lowOperand, BitVec.getLsbD_of_ge x i (by omega)]

variable (r ch grid : Sel) (v : Value) (x y : Half)

theorem nop : Statement .nop := ⟨opcodeTable[0], by decide, rfl, by decide⟩
theorem rd : Statement (.rd r) := ⟨opcodeTable[1], by decide, rfl, selects_of_fields
  (by simp only [encode, fieldOp_packWord]; decide)
  (by simp only [encode, fieldA_packWord]; exact BitVec.and_zero)
  (by simp only [encode, fieldB_packWord]; decide)
  (by simp only [encode, fieldC_packWord]; decide)⟩
theorem wr : Statement (.wr r v) := ⟨opcodeTable[2], by decide, rfl, selects_of_fields
  (by simp only [encode, fieldOp_packWord]; decide)
  (by simp only [encode, fieldA_packWord]; exact BitVec.and_zero)
  (by simp only [encode, fieldB_packWord]; decide)
  (by simp only [encode, fieldC_packWord]; exact BitVec.and_zero)⟩
theorem upd : Statement (.upd ch x) := ⟨opcodeTable[3], by decide, rfl, selects_of_fields
  (by simp only [encode, fieldOp_packWord]; decide)
  (by simp only [encode, fieldA_packWord]; exact BitVec.and_zero)
  (by simp only [encode, fieldB_packWord]; decide)
  (by simp only [encode, fieldC_packWord]; exact lowOperand_and_mask x)⟩
theorem updall : Statement .updall := ⟨opcodeTable[4], by decide, rfl, by decide⟩
theorem conv : Statement .conv := ⟨opcodeTable[5], by decide, rfl, by decide⟩
theorem val : Statement (.val ch) := ⟨opcodeTable[6], by decide, rfl, selects_of_fields
  (by simp only [encode, fieldOp_packWord]; decide)
  (by simp only [encode, fieldA_packWord]; exact BitVec.and_zero)
  (by simp only [encode, fieldB_packWord]; decide)
  (by simp only [encode, fieldC_packWord]; decide)⟩
theorem lock : Statement (.lock ch x) := ⟨opcodeTable[7], by decide, rfl, selects_of_fields
  (by simp only [encode, fieldOp_packWord]; decide)
  (by simp only [encode, fieldA_packWord]; exact BitVec.and_zero)
  (by simp only [encode, fieldB_packWord]; decide)
  (by simp only [encode, fieldC_packWord]; exact lowOperand_and_mask x)⟩
theorem unlock : Statement (.unlock ch) := ⟨opcodeTable[8], by decide, rfl, selects_of_fields
  (by simp only [encode, fieldOp_packWord]; decide)
  (by simp only [encode, fieldA_packWord]; exact BitVec.and_zero)
  (by simp only [encode, fieldB_packWord]; decide)
  (by simp only [encode, fieldC_packWord]; decide)⟩
theorem lockm : Statement (.lockm x) := ⟨opcodeTable[9], by decide, rfl, selects_of_fields
  (by simp only [encode, fieldOp_packWord]; decide)
  (by simp only [encode, fieldA_packWord]; decide)
  (by simp only [encode, fieldB_packWord]; decide)
  (by simp only [encode, fieldC_packWord]; exact lowOperand_and_mask x)⟩
theorem unlockm : Statement .unlockm := ⟨opcodeTable[10], by decide, rfl, by decide⟩
theorem eval : Statement .eval := ⟨opcodeTable[11], by decide, rfl, by decide⟩
theorem evali : Statement (.evali x y) := ⟨opcodeTable[12], by decide, rfl, selects_of_fields
  (by simp only [encode, fieldOp_packWord]; decide)
  (by simp only [encode, fieldA_packWord]; decide)
  (by simp only [encode, fieldB_packWord]; exact BitVec.and_zero)
  (by simp only [encode, fieldC_packWord]; exact lowOperand_and_mask y)⟩
theorem qnt : Statement (.qnt grid) := ⟨opcodeTable[13], by decide, rfl, selects_of_fields
  (by simp only [encode, fieldOp_packWord]; decide)
  (by simp only [encode, fieldA_packWord]; exact BitVec.and_zero)
  (by simp only [encode, fieldB_packWord]; decide)
  (by simp only [encode, fieldC_packWord]; decide)⟩
theorem cal0 : Statement .cal0 := ⟨opcodeTable[14], by decide, rfl, by decide⟩
theorem cal1 : Statement .cal1 := ⟨opcodeTable[15], by decide, rfl, by decide⟩
theorem cal3 : Statement .cal3 := ⟨opcodeTable[16], by decide, rfl, by decide⟩
theorem rbegin : Statement .rbegin := ⟨opcodeTable[17], by decide, rfl, by decide⟩
theorem swr : Statement (.swr x y) := ⟨opcodeTable[18], by decide, rfl, selects_of_fields
  (by simp only [encode, fieldOp_packWord]; decide)
  (by simp only [encode, fieldA_packWord]; decide)
  (by simp only [encode, fieldB_packWord]; exact BitVec.and_zero)
  (by simp only [encode, fieldC_packWord]; exact lowOperand_and_mask y)⟩
theorem rsync : Statement (.rsync x) := ⟨opcodeTable[19], by decide, rfl, selects_of_fields
  (by simp only [encode, fieldOp_packWord]; decide)
  (by simp only [encode, fieldA_packWord]; decide)
  (by simp only [encode, fieldB_packWord]; exact BitVec.and_zero)
  (by simp only [encode, fieldC_packWord]; decide)⟩
theorem adv : Statement .adv := ⟨opcodeTable[20], by decide, rfl, by decide⟩
theorem trgtake : Statement .trgtake := ⟨opcodeTable[21], by decide, rfl, by decide⟩
theorem trgset : Statement .trgset := ⟨opcodeTable[22], by decide, rfl, by decide⟩

end Sys2Proof.Laws.EncodingSelectsRow
end

