-- ==== Sys2Proof/Tests/Slice0.lean ====
section
/-!
SUPPORT. The model's own tests. Words and answers are those of spec/95_test_vectors.md, whose number (V.., P..) each
test names, or hand calculations from the rule named. Every test is one step, or one decoding, on a small state. The last
section shows, for every statement with hypotheses, a state and operands that meet them, at the boundary values of its
clauses.
-/

open Sys2Proof Sys2Proof.Machine

namespace Sys2Proof.Tests

/-! ### Helpers -/

/-- The reset state in the reference configuration with its block changed. -/
def live (f : Block → Block) : State := { State.reset with block := f State.reset.block }

/-- The same with one input waiting. -/
def waitingFor (a : Input) (s : State) : State := { s with inputs := [a] }

/-- The response of a step that goes on. -/
def answer : Result → Option Response
  | .next t => t.resp
  | .fault _ => none
  | .refused _ => none

/-- A command that steps and leaves a value read from the block other than it was. -/
def writes {α : Type} [DecidableEq α] (i : Instr) (s : State) (f : Block → α) : Bool :=
  match exec i s with
  | .next t => decide (f t.block ≠ f s.block)
  | .fault _ => false
  | .refused _ => false

/-- A property of the state after a step that goes on. -/
def leaves (r : Result) (p : State → Bool) : Bool :=
  match r with
  | .next t => p t
  | .fault _ => false
  | .refused _ => false

/-- P1 after step 6: channel 5 TRACKING at 577 with window 4. -/
def tracking : State := live fun b => b.setChan 5 { Channel.reset with k := 4, sm := 577 }

/-- P1 after step 12: channel 5 LOCKED at 577. -/
def locked : State := live fun b => b.setChan 5
  { Channel.reset with k := 4, sm := 1432, isLocked := true, isSnapped := false, lockedv := 577, snapv := 9000 }

/-- V21: channel 6 WAITING at 1000 with window 1. -/
def waiting : State := live fun b => b.setChan 6
  { Channel.reset with k := 1, sm := 1000, isSnapped := false, lockedv := 1000, snapv := 1000 }

/-- P2 before step 9: the low reading 1000 recorded, the CV channel at 1480. -/
def reading : State := live fun b =>
  { b.setChan 0 { Channel.reset with k := 1, sm := 1480 } with calR1 := 1000 }

/-- P2 before step 14: calibrated, the CV channel at 1240, the coarse pot at its centre. -/
def calibrated : State := live fun b =>
  { (b.setChan 0 { Channel.reset with k := 1, sm := 1240 }).setChan 4 { Channel.reset with k := 1, sm := 32768 } with
    calR1 := 1000, calScale := 26214, calOffset := 0xFFFFF901 }

/-- V25 before its first LOCKM: every window 1, every latch and smoothed value 9, the targets of channels 4 and 5 staged. -/
def scanned : State := live fun b =>
  { b with chans := List.replicate 4 { Channel.reset with k := 1, sm := 9, raw := 9 } ++
      List.replicate 4 { Channel.reset with k := 1, sm := 9, raw := 9, lkt := 100 } }

/-- Every window 1 and every channel configured for an UPDALL: channel 4 LOCKED at 577 with its latch at 1000, channels 5 and 6
WAITING at 1000 with their latches at distances 64 and 65 from it (V21), channel 7 TRACKING. -/
def bank : State := live fun b =>
  let pot : Channel := { Channel.reset with k := 1, sm := 9, isSnapped := false, lockedv := 1000, snapv := 1000, raw := 1064 }
  { b with chans := List.replicate 4 { Channel.reset with k := 1 } ++
      [{ pot with isLocked := true, lockedv := 577, raw := 1000 }, pot, { pot with raw := 1065 },
        { Channel.reset with k := 1 }] }

/-- A conversion requested. -/
def requested : State := live fun b => { b with convPending := true }

/-- A pass open on slot 0. -/
def pass : State := live fun b => { b with rendering := true }

/-- V53: the ring full. -/
def fullRing : State := live fun b => { b with rb := 2 }

/-- V57: FAULT entered with the ring full. -/
def collided : State := live fun b => { b with rb := 2, fault := true, fcause := .ringCollision }

/-- The last sample of slot 1, with slot 2 next and the producer there: the underrun of rule R174 is one tick away. -/
def brink : State := live fun b => { b with pb := 3, cs := 23 }

/-- A conversion requested before FAULT was entered. -/
def frozenScan : State := live fun b => { b with rb := 2, fault := true, fcause := .ringCollision, convPending := true }

/-- Double buffering (V58). -/
def twoSlots : Config := { Config.reference with nb := 2 }

/-! ### Decoding: a word of the spec for every command -/

theorem test_decode_system :
    decode 0x0000000000000000 = .command .nop ∧ decode 0x0108000000000000 = .command (.rd 0x08) ∧
    decode 0x02050000FFFFF901 = .command (.wr 0x05 0xFFFFF901) := by decide

theorem test_decode_smoothing :
    decode 0x10050000000003E8 = .command (.upd 5 1000) ∧ decode 0x1100000000000000 = .command .updall ∧
    decode 0x1200000000000000 = .command .conv ∧ decode 0x1307000000000000 = .command (.val 7) := by decide

theorem test_decode_lock :
    decode 0x2005000000002328 = .command (.lock 5 9000) ∧ decode 0x2105000000000000 = .command (.unlock 5) ∧
    decode 0x2200000000000030 = .command (.lockm 0x0030) ∧ decode 0x2300000000000000 = .command .unlockm := by decide

theorem test_decode_pitch :
    decode 0x3000000000000000 = .command .eval ∧ decode 0x310080F00000C000 = .command (.evali 33008 49152) ∧
    decode 0x3202000000000000 = .command (.qnt 2) ∧ decode 0x3300000000000000 = .command .cal0 ∧
    decode 0x3400000000000000 = .command .cal1 ∧ decode 0x3500000000000000 = .command .cal3 := by decide

theorem test_decode_scheduler :
    decode 0x4000000000000000 = .command .rbegin ∧ decode 0x4100001700008000 = .command (.swr 23 0x8000) ∧
    decode 0x4200000400000000 = .command (.rsync 4) ∧ decode 0x4300000000000000 = .command .adv ∧
    decode 0x4400000000000000 = .command .trgtake ∧ decode 0x4500000000000000 = .command .trgset := by decide

/-- V62, V20, V42, V10, V60: unknown opcodes and reserved bits. -/
theorem test_decode_rejects :
    decode 0x0300000000000000 = .rejected .unknownOpcode ∧ decode 0xFF00000000000000 = .rejected .unknownOpcode ∧
    decode 0x0000000000000001 = .rejected .reservedBits ∧ decode 0x4101000000000000 = .rejected .reservedBits ∧
    decode 0x3101000000000000 = .rejected .reservedBits ∧ decode 0x2200000000010000 = .rejected .reservedBits ∧
    decode 0x3200000000000001 = .rejected .reservedBits ∧ decode 0x1005000100000005 = .rejected .reservedBits ∧
    decode 0x0100000100000000 = .rejected .reservedBits := by decide

/-- Rule R54: the eight bytes of a word, least significant first; any other number of bytes is no command. -/
theorem test_decode_bytes :
    decodeBytes [0x28, 0x23, 0x00, 0x00, 0x00, 0x00, 0x05, 0x20] = .command (.lock 5 9000) ∧
    decodeBytes [0x00, 0x00, 0x00] = .rejected .notOneWord ∧
    decodeTableWord 64 0x4100001700008000 = some (.swr 23 0x8000) := by decide

/-! ### Well-formedness: an ill-formed operand for each check, and the boundary beside it -/

theorem test_wellFormed_rd :
    (Instr.rd 0x09).wellFormed Config.reference = true ∧ (Instr.rd 0x0A).wellFormed Config.reference = false ∧
    (Instr.rd 0x17).wellFormed Config.reference = true ∧ (Instr.rd 0x18).wellFormed Config.reference = false ∧
    (Instr.rd 0x87).wellFormed Config.reference = true ∧ (Instr.rd 0x90).wellFormed Config.reference = false := by decide

theorem test_wellFormed_wr :
    (Instr.wr 0x03 4).wellFormed Config.reference = true ∧ (Instr.wr 0x03 5).wellFormed Config.reference = false ∧
    (Instr.wr 0x15 255).wellFormed Config.reference = true ∧ (Instr.wr 0x15 0).wellFormed Config.reference = false ∧
    (Instr.wr 0x15 256).wellFormed Config.reference = false ∧ (Instr.wr 0x20 1).wellFormed Config.reference = false ∧
    (Instr.wr 0x60 65535).wellFormed Config.reference = true ∧ (Instr.wr 0x60 65536).wellFormed Config.reference = false ∧
    (Instr.wr 0x87 1).wellFormed Config.reference = true ∧ (Instr.wr 0x88 1).wellFormed Config.reference = false := by
  decide

theorem test_wellFormed_channels :
    (Instr.upd 7 0).wellFormed Config.reference = true ∧ (Instr.upd 8 0).wellFormed Config.reference = false ∧
    (Instr.val 7).wellFormed Config.reference = true ∧ (Instr.val 8).wellFormed Config.reference = false ∧
    (Instr.lock 7 0).wellFormed Config.reference = true ∧ (Instr.lock 3 0).wellFormed Config.reference = false ∧
    (Instr.lock 8 0).wellFormed Config.reference = false ∧ (Instr.unlock 4).wellFormed Config.reference = true ∧
    (Instr.unlock 2).wellFormed Config.reference = false ∧ (Instr.lockm 0xF0).wellFormed Config.reference = true ∧
    (Instr.lockm 0x31).wellFormed Config.reference = false ∧
    (Instr.lockm 0x100).wellFormed Config.reference = false := by decide

theorem test_wellFormed_indices :
    (Instr.qnt 2).wellFormed Config.reference = true ∧ (Instr.qnt 3).wellFormed Config.reference = false ∧
    (Instr.swr 23 0).wellFormed Config.reference = true ∧ (Instr.swr 24 0).wellFormed Config.reference = false ∧
    (Instr.rsync 23).wellFormed Config.reference = true ∧ (Instr.rsync 24).wellFormed Config.reference = false := by decide

/-! ### One step of each command -/

/-- V62. -/
theorem test_nop : answer (exec .nop State.reset) = some ⟨.ok, 0⟩ := by decide

/-- V60. -/
theorem test_rd_reset :
    answer (exec (.rd 0x00) State.reset) = some ⟨.ok, 0x454D4131⟩ ∧
    answer (exec (.rd 0x08) State.reset) = some ⟨.ok, 0x0200⟩ ∧
    answer (exec (.rd 0x09) State.reset) = some ⟨.ok, 0x8000⟩ ∧
    answer (exec (.rd 0x35) State.reset) = some ⟨.ok, 2⟩ ∧
    answer (exec (.rd 0x0A) State.reset) = some ⟨.badArg, 0⟩ := by decide

/-- P4 steps 20, 21, and V57: reads in FAULT. -/
theorem test_rd_fault :
    answer (exec (.rd 0x01) collided) = some ⟨.ok, 0x20⟩ ∧ answer (exec (.rd 0x02) collided) = some ⟨.ok, 1⟩ ∧
    answer (exec (.rd 0x08) collided) = some ⟨.ok, 0x2200⟩ := by decide

/-- V61. -/
theorem test_wr_keeps_patterns :
    leaves (exec (.wr 0x05 0xFFFFF901) State.reset) (fun t => t.block.calOffset.toInt == -1791) = true ∧
    leaves (exec (.wr 0x87 0x1234) State.reset) (fun t => (t.block.chan 7).lkt == 0x1234) = true := by decide

/-- V61. -/
theorem test_wr_refuses :
    answer (exec (.wr 0x15 0) State.reset) = some ⟨.badArg, 0⟩ ∧
    answer (exec (.wr 0x00 0) State.reset) = some ⟨.badArg, 0⟩ ∧
    answer (exec (.wr 0x03 5) State.reset) = some ⟨.badArg, 0⟩ := by decide

/-- P1 step 17's neighbours: `tdiv(3 * 577 + 4000, 4) = 1432`; V10: no window. -/
theorem test_upd :
    answer (exec (.upd 5 4000) tracking) = some ⟨.ok, 1432⟩ ∧
    answer (exec (.upd 5 1000) State.reset) = some ⟨.unconfig, 0⟩ ∧
    answer (exec (.upd 9 5) State.reset) = some ⟨.badArg, 0⟩ := by decide

/-- V21: distance 65 does not snap, distance 64 does, on either side. -/
theorem test_upd_snap :
    leaves (exec (.upd 6 1065) waiting) (fun t => (t.block.chan 6).isSnapped) = false ∧
    leaves (exec (.upd 6 1064) waiting) (fun t => (t.block.chan 6).isSnapped) = true ∧
    leaves (exec (.upd 6 935) waiting) (fun t => (t.block.chan 6).isSnapped) = false ∧
    leaves (exec (.upd 6 936) waiting) (fun t => (t.block.chan 6).isSnapped) = true := by decide

/-- V12 (one window missing) and V11. -/
theorem test_updall :
    answer (exec .updall tracking) = some ⟨.unconfig, 0⟩ ∧
    leaves (exec .updall scanned) (fun t => (t.block.chan 3).sm == 9) = true := by decide

/-- V11. -/
theorem test_conv : leaves (exec .conv State.reset) (fun t => t.block.convPending && t.adcReq) = true := by decide

/-- V14, P1 step 12, V21. -/
theorem test_val :
    answer (exec (.val 8) State.reset) = some ⟨.badArg, 0⟩ ∧ answer (exec (.val 5) locked) = some ⟨.ok, 577⟩ ∧
    answer (exec (.val 6) waiting) = some ⟨.ok, 1000⟩ ∧ answer (exec (.val 5) tracking) = some ⟨.ok, 577⟩ := by decide

/-- P1 step 7. -/
theorem test_lock :
    leaves (exec (.lock 5 9000) tracking) (fun t => decide (t.block.chan 5 =
      { Channel.reset with k := 4, sm := 577, isLocked := true, isSnapped := false, lockedv := 577, snapv := 9000 })) = true := by
  decide

/-- V23: a waiting channel chains its pending value; V20. -/
theorem test_lock_chains :
    leaves (exec (.lock 6 222) waiting) (fun t => (t.block.chan 6).lockedv == 1000 && (t.block.chan 6).snapv == 222) = true ∧
    answer (exec (.lock 3 5) State.reset) = some ⟨.badArg, 0⟩ := by decide

/-- P1 step 13; V24. -/
theorem test_unlock :
    leaves (exec (.unlock 5) locked) (fun t => !(t.block.chan 5).isLocked && !(t.block.chan 5).isSnapped &&
      (t.block.chan 5).snapv == 577) = true ∧
    leaves (exec (.unlock 4) State.reset) (fun t => decide (t.block = State.reset.block)) = true := by decide

/-- V25, V20: the masked channels, each with its staged target, and no other. -/
theorem test_lockm :
    leaves (exec (.lockm 0x30) scanned) (fun t => (t.block.chan 4).isLocked && (t.block.chan 5).snapv == 100 &&
      (t.block.chan 4).lockedv == 9 && !(t.block.chan 6).isLocked) = true ∧
    answer (exec (.lockm 0x31) scanned) = some ⟨.badArg, 0⟩ := by decide

/-- V25. -/
theorem test_unlockm :
    leaves (exec .unlockm locked) (fun t => (t.block.chan 5).snapv == 577 && (t.block.chan 4).isSnapped) = true := by decide

/-- P2 step 14. -/
theorem test_eval : answer (exec .eval calibrated) = some ⟨.ok, 6144⟩ := by decide

/-- V32: a clamped row at either end, and a row in range. -/
theorem test_evali_external :
    answer (exec (.evali 0 0) calibrated) = some ⟨.ok, 0⟩ ∧
    answer (exec (.evali 65535 65535) calibrated) = some ⟨.ok, 16383⟩ ∧
    answer (exec (.evali 1245 65535) calibrated) = some ⟨.ok, 9247⟩ := by decide

/-- V34, V33, V35. -/
theorem test_evali_laws :
    answer (exec (.evali 33008 49152) { calibrated with block := { calibrated.block with law := .free } }) =
      some ⟨.ok, 10751⟩ ∧
    answer (exec (.evali 65535 65535) (live fun b => { b with law := .fixed440 })) = some ⟨.ok, 8832⟩ ∧
    answer (exec (.evali 1245 65535) (live fun b => { b with law := .extended })) = some ⟨.ok, 8347⟩ := by decide

/-- V42, rows 9247, 95 and 16352. -/
theorem test_qnt :
    answer (exec (.qnt 2) (live fun b => { b with pitch := 9247 })) = some ⟨.ok, 9216⟩ ∧
    answer (exec (.qnt 1) (live fun b => { b with pitch := 95 })) = some ⟨.ok, 64⟩ ∧
    answer (exec (.qnt 1) (live fun b => { b with pitch := 16352 })) = some ⟨.ok, 16383⟩ ∧
    answer (exec (.qnt 0) (live fun b => { b with pitch := 63 })) = some ⟨.ok, 63⟩ ∧
    answer (exec (.qnt 3) State.reset) = some ⟨.badArg, 0⟩ := by decide

/-- V25: pot channels only, the effective value and not the smoothed one. -/
theorem test_cal0 :
    leaves (exec .cal0 scanned) (fun t => (t.block.chan 4).offs == 9 && (t.block.chan 0).offs == 0) = true ∧
    leaves (exec .cal0 locked) (fun t => (t.block.chan 5).offs == 577) = true := by decide

/-- P2 step 5 with the reading 1480. -/
theorem test_cal1 : leaves (exec .cal1 reading) (fun t => t.block.calR1 == 1480) = true := by decide

/-- V40 row 1, and its last row. -/
theorem test_cal3 :
    answer (exec .cal3 reading) = some ⟨.ok, 0x6666⟩ ∧
    leaves (exec .cal3 reading) (fun t => t.block.calOffset == 0xFFFFF901) = true ∧
    answer (exec .cal3 State.reset) = some ⟨.calFail, 0⟩ := by decide

/-- V40 row 2: a falling pair. -/
theorem test_cal3_falling :
    answer (exec .cal3 (live fun b => { b.setChan 0 { Channel.reset with k := 1, sm := 1000 } with calR1 := 1480 })) =
      some ⟨.ok, 0xFFFF999A⟩ := by decide

/-- V50, V53. -/
theorem test_rbegin :
    answer (exec .rbegin State.reset) = some ⟨.ok, 0⟩ ∧ answer (exec .rbegin pass) = some ⟨.badSeq, 0⟩ ∧
    answer (exec .rbegin fullRing) = some ⟨.notReady, 0⟩ := by decide

/-- P3 steps 5, 6. -/
theorem test_swr :
    leaves (exec (.swr 23 0x8000) pass) (fun t => t.block.mem.audio == [(23, 0x8000#16)]) = true ∧
    answer (exec (.swr 24 1) pass) = some ⟨.badArg, 0⟩ := by decide

/-- V50, V57, V51. -/
theorem test_swr_outside_a_pass :
    answer (exec (.swr 0 1) State.reset) = some ⟨.badSeq, 0⟩ ∧
    leaves (exec (.swr 0 1) fullRing) (fun t => t.block.fault && t.block.mem.audio.isEmpty) = true ∧
    leaves (exec (.swr 24 1) fullRing) (fun t => t.block.fault) = false := by decide

/-- P3 step 25, with the sync bit at slot 0. -/
theorem test_rsync :
    answer (exec (.rsync 1) { pass with block := { pass.block with mem := { audio := [], sync := [(1, 1)] } } }) =
      some ⟨.ok, 1⟩ ∧
    answer (exec (.rsync 0) State.reset) = some ⟨.badSeq, 0⟩ := by decide

/-- P3 step 8, P4 step 13 (the wrap), V50. -/
theorem test_adv :
    answer (exec .adv pass) = some ⟨.ok, 1⟩ ∧
    answer (exec .adv { pass with block := { pass.block with rb := 3 } }) = some ⟨.ok, 0⟩ ∧
    answer (exec .adv State.reset) = some ⟨.badSeq, 0⟩ := by decide

/-- V56. -/
theorem test_trgtake :
    answer (exec .trgtake (live fun b => { b with trigPending := true })) = some ⟨.ok, 1⟩ ∧
    answer (exec .trgtake State.reset) = some ⟨.ok, 0⟩ := by decide

/-- V56. -/
theorem test_trgset : leaves (exec .trgset State.reset) (fun t => t.block.trigPending) = true := by decide

/-! ### One step of each event, and the command port -/

/-- V55: a high gate at the first tick is an edge, stored at slot 2. -/
theorem test_tick_edge :
    leaves (step (waitingFor (.tick true) State.reset)) (fun t => t.block.trigPending && t.block.gatePrev &&
      t.block.cs == 1 && t.block.mem.sync == [(48, 1#1)]) = true := by decide

/-- V52 (the underrun) and V54 (the sample conversion). -/
theorem test_tick_wrap :
    leaves (step (waitingFor (.tick false) brink)) (fun t => t.block.pb == 0 && t.block.cs == 0 && t.block.xrun) = true ∧
    dacCode 0x0000 = 0x8000 ∧ dacCode 0x1234 = 0x9234 ∧ dacCode 0x7FFF = 0xFFFF ∧ dacCode 0xFFFF = 0x7FFF ∧
    dacCode 0x8000 = 0x0000 := by decide

/-- V11, V13. -/
theorem test_adcDone :
    leaves (step (waitingFor (.adcDone [10, 20, 30, 40, 50, 60, 70, 80]) requested))
      (fun t => !t.block.convPending && (t.block.chan 3).raw == 40 && (t.block.chan 3).sm == 0) = true ∧
    leaves (step (waitingFor (.adcDone [10, 20, 30, 40, 50, 60, 70, 80]) State.reset)) (fun _ => true) = false := by decide

/-- V80. -/
theorem test_reset_event :
    leaves (step (waitingFor .reset collided)) (fun t => decide (t.block = State.reset.block)) = true := by decide

/-- V57, V70: FAULTED comes before BAD_OP, but not for RD. -/
theorem test_port_order :
    answer (step (waitingFor (.cmd 0xEE00000000000000) collided)) = some ⟨.faulted, 0⟩ ∧
    answer (step (waitingFor (.cmd 0x0100000100000000) collided)) = some ⟨.badOp, 0⟩ ∧
    answer (step (waitingFor (.cmd 0x1009000000010005) State.reset)) = some ⟨.badOp, 0⟩ := by decide

/-- `withFetchWord` makes the next step run exactly the word given. -/
theorem test_fetch :
    answer (step (State.reset.withFetchWord 64 0x0108000000000000)) = some ⟨.ok, 0x0200⟩ ∧
    answer (step (State.reset.withFetchWord 64 0x4000000000000000)) = some ⟨.ok, 0⟩ := by decide

/-- Rules R80, R81: assembler syntax and a pseudo-command. -/
theorem test_assembly :
    assembly (.swr 23 0x8000) = "SWR 23, -32768" ∧ assembly .adv = "ADV" ∧
    (Pseudo.lockpots 0x30 [100, 200]).expand = [.wr 0x84 100, .wr 0x85 200, .lockm 0x30] := by decide

/-! ### The statements' hypotheses are met -/

/-- The invariant as a computation. -/
theorem inv_iff (s : State) : s.Inv ↔ (decide s.cfg.Legal && decide (BlockOk s.cfg s.block)) = true := by
  simp only [Bool.and_eq_true, decide_eq_true_eq]

/-- The states used below meet the invariant. -/
theorem test_meets_Inv_channels : tracking.Inv ∧ locked.Inv ∧ waiting.Inv ∧ scanned.Inv ∧ requested.Inv := by
  simp only [inv_iff]
  decide

theorem test_meets_Inv_pitch : reading.Inv ∧ calibrated.Inv ∧ twoSlots.Legal ∧ (State.resetIn twoSlots).Inv := by
  simp only [inv_iff]
  decide

theorem test_meets_Inv_ring : pass.Inv ∧ fullRing.Inv ∧ collided.Inv ∧ brink.Inv ∧ frozenScan.Inv := by
  simp only [inv_iff]
  decide

theorem test_meets_EncodeOfDecode :
    decode 0x0200000000000000 = .command (.wr 0 0) ∧ decode 0x02FF0000FFFFFFFF = .command (.wr 0xFF 0xFFFFFFFF) := by decide

theorem test_meets_MaskAndMatchSelectTheCommand :
    (⟨"NOP", 0x0000000000000000, 0xFFFFFFFFFFFFFFFF⟩ : TableRow) ∈ opcodeTable ∧
    fieldOp 0x0000000000000001 = fieldOp 0x0000000000000000 ∧
    0x0000000000000001#64 &&& 0xFFFFFFFFFFFFFFFF ≠ 0x0000000000000000 ∧
    0x0000000000000000#64 &&& 0xFFFFFFFFFFFFFFFF = 0x0000000000000000 := by decide

theorem test_meets_StepRunsDecodedCommand :
    (waitingFor (.cmd 0x2005000000002328) collided).inputs = .cmd 0x2005000000002328 :: [] ∧
    decode 0x2005000000002328 = .command (.lock 5 9000) := by decide

theorem test_meets_StepRunsEvents :
    (waitingFor (.tick true) State.reset).inputs = .tick true :: [] ∧
    (waitingFor (.adcDone [1]) State.reset).inputs = .adcDone [1] :: [] ∧
    (waitingFor .reset State.reset).inputs = .reset :: [] ∧ State.reset.inputs = [] := by decide

/-- Outside FAULT, in it, and in it with the opcode of RD. -/
theorem test_meets_IllegalWordIsRefused :
    (waitingFor (.cmd 0xEE00000000000000) State.reset).inputs = .cmd 0xEE00000000000000 :: [] ∧
    State.reset.block.fault = false ∧ collided.block.fault = true ∧
    decode 0xEE00000000000000 = .rejected .unknownOpcode ∧ decode 0x0100000100000000 = .rejected .reservedBits := by decide

theorem test_meets_NopAnswersOk : fieldOp 0x0000000000000000 = 0x00 ∧ fieldOp 0x00FFFFFFFFFFFFFF = 0x00 := by decide

/-- The lowest and the highest channel. -/
theorem test_meets_RdReadsChannelRegisters :
    collided.cfg.nch ≤ 16 ∧ 0 < collided.cfg.nch ∧ 7 < collided.cfg.nch := by decide

theorem test_meets_WrStoresLegalValues :
    fieldOp 0x0215000000000004 = 0x02 ∧ collided.block.fault = true ∧ (Instr.wr 0x15 0).wellFormed locked.cfg = false ∧
    locked.block.fault = false ∧ locked.cfg.nch ≤ 16 ∧ 7 < locked.cfg.nch ∧ (1#8 : BitVec 8) ≠ 0 ∧ (255#8 : BitVec 8) ≠ 0 ∧
    (255 : Value) = (255#8).zeroExtend 32 ∧ (65535 : Value) = (65535#16).zeroExtend 32 := by decide

theorem test_meets_RdReturnsWhatWrWrote :
    State.reset.Inv ∧ ∃ t, exec (.wr 0x15 255) State.reset = .next t ∧ t.resp = some ⟨.ok, 0⟩ := ⟨by simp only [inv_iff]; decide, _, rfl, rfl⟩

/-- Outside FAULT on either side of the equivalence, and RD in FAULT. -/
theorem test_meets_BadArgExactlyWhenIllFormed :
    State.reset.block.fault = false ∧ (Instr.upd 8 0).wellFormed State.reset.cfg = false ∧
    (Instr.upd 7 0).wellFormed State.reset.cfg = true ∧ collided.block.fault = true ∧
    (Instr.rd 0x0A).wellFormed collided.cfg = false ∧ (Instr.rd 0x09).wellFormed collided.cfg = true := by decide

/-- The smallest and the largest window, and both ends of the range. -/
theorem test_meets_SmootherFormulaAndRange :
    (1 : Int) ≤ 1 ∧ (255 : Int) ≤ 255 ∧ (0 : Int) ≤ 0 ∧ (65535 : Int) ≤ 65535 ∧ ema 65535 65535 255 = 65535 ∧
    ema 0 65535 4 = 16383 := by decide

/-- V5: the two forms differ where the input is below and 4 does not divide the difference, and agree in the other two cases. -/
theorem test_meets_SmootherAgainstSecondForm :
    ema 10 9 4 = 9 ∧ 10 + Int.tdiv (9 - 10) 4 = 10 ∧ ema 10 11 4 = 10 ∧ 10 + Int.tdiv (11 - 10) 4 = 10 ∧
    ema 10 2 4 = 8 ∧ 10 + Int.tdiv (2 - 10) 4 = 8 := by decide

/-- V3 at its fixed point 97, and one below it. -/
theorem test_meets_SmootherFixedPointsAndBounds : ema 97 100 4 = 97 ∧ ema 96 100 4 = 97 ∧ ema 100 100 4 = 100 := by decide

/-- V4, its first two updates; and a start already there. -/
theorem test_meets_SmootherArrivesFromAbove :
    ((0 : Int) ≤ 100 ∧ (100 : Int) ≤ 200 ∧ (1 : Int) ≤ 4) ∧ ema 200 100 4 = 175 ∧ ema 175 100 4 = 156 := by decide

/-- No such channel, no window, and windows 1 and 4. -/
theorem test_meets_UpdUpdatesOneChannel :
    fieldOp 0x10050000000003E8 = 0x10 ∧ State.reset.block.fault = false ∧ State.reset.cfg.nch ≤ (8#8).toNat ∧
    (7#8).toNat < State.reset.cfg.nch ∧ (State.reset.block.chan 7).k = 0 ∧ tracking.block.fault = false ∧
    (tracking.block.chan 5).k ≠ 0 ∧ (waiting.block.chan 6).k ≠ 0 := by decide

theorem test_meets_UpdallUpdatesEveryChannel :
    fieldOp 0x1100000000000000 = 0x11 ∧ (tracking.block.fault = false ∧ tracking.block.chans.length = tracking.cfg.nch ∧
      (7 < tracking.cfg.nch ∧ (tracking.block.chan 7).k = 0)) ∧
    (scanned.block.fault = false ∧ scanned.block.chans.length = scanned.cfg.nch ∧
      ∀ ch, ch < scanned.cfg.nch → (scanned.block.chan ch).k ≠ 0) := by decide

theorem test_meets_ConvRequestsAScan :
    fieldOp 0x1200000000000000 = 0x12 ∧ State.reset.block.fault = false ∧ requested.block.fault = false := by decide

/-- The three clauses: no request, a request in FAULT, a request outside it. -/
theorem test_meets_AdcDoneLoadsTheLatches :
    [1, 2, 3, 4, 5, 6, 7, 8#16].length = requested.cfg.nch ∧ requested.block.chans.length = requested.cfg.nch ∧
    State.reset.block.convPending = false ∧ requested.block.convPending = true ∧ requested.block.fault = false ∧
    frozenScan.block.convPending = true ∧ frozenScan.block.fault = true ∧
    (waitingFor (.adcDone [1, 2, 3, 4, 5, 6, 7, 8]) requested).inputs = .adcDone [1, 2, 3, 4, 5, 6, 7, 8] :: [] := by decide

/-- No such channel, and each lock state, and a plain channel. -/
theorem test_meets_ValAnswersEffectiveValue :
    fieldOp 0x1307000000000000 = 0x13 ∧ State.reset.cfg.nch ≤ (8#8).toNat ∧ (7#8).toNat < State.reset.cfg.nch ∧
    locked.Inv ∧ waiting.Inv ∧ tracking.Inv ∧ locked.block.fault = false ∧ waiting.block.fault = false ∧
    tracking.block.fault = false ∧ (locked.block.chan 5).isLocked = true ∧
    (waiting.block.chan 6).isLocked = false ∧ (waiting.block.chan 6).isSnapped = false ∧
    (tracking.block.chan 5).isLocked = false ∧ (tracking.block.chan 5).isSnapped = true ∧
    tracking.cfg.isPot 3 = false := by
  simp only [inv_iff]
  decide

/-- Distances 64 and 65 (V21), LOCKED, TRACKING. -/
theorem test_meets_SnapCheckIsInclusive :
    let c := { Channel.reset with isSnapped := false, snapv := 1000 }
    (c.isLocked = false ∧ c.isSnapped = false) ∧ |({ c with sm := 1064 } : Channel).sm.toInt - 1000| ≤ 64 ∧
    ¬ |({ c with sm := 1065 } : Channel).sm.toInt - 1000| ≤ 64 ∧ (locked.block.chan 5).isLocked = true ∧
    Channel.reset.isSnapped = true := by decide

/-- A plain channel, no such channel, and a pot in each lock state. -/
theorem test_meets_LockCapturesEffectiveValue :
    fieldOp 0x2005000000002328 = 0x20 ∧ tracking.cfg.isPot (3#8).toNat = false ∧ tracking.cfg.isPot (8#8).toNat = false ∧
    (4#8).toNat < tracking.cfg.nch ∧ tracking.cfg.pots.getLsbD (4#8).toNat = true ∧
    tracking.cfg.pots.getLsbD (7#8).toNat = true ∧
    tracking.Inv ∧ waiting.Inv ∧ locked.Inv ∧ tracking.block.fault = false ∧ waiting.block.fault = false ∧ locked.block.fault = false := by
  simp only [inv_iff]
  decide

theorem test_meets_UnlockWaitsToSnap :
    fieldOp 0x2105000000000000 = 0x21 ∧ locked.block.fault = false ∧ locked.cfg.isPot (2#8).toNat = false ∧
    locked.cfg.isPot (4#8).toNat = true ∧ (locked.block.chan 4).isLocked = false ∧
    locked.cfg.isPot (5#8).toNat = true ∧ (locked.block.chan 5).isLocked = true := by decide

/-- A mask with a plain channel, one beyond the channels, the empty mask, and the mask of every pot. -/
theorem test_meets_LockmLocksMaskedChannels :
    fieldOp 0x2200000000000030 = 0x22 ∧ scanned.Inv ∧ scanned.block.fault = false ∧
    ((0x31#16).getLsbD 0 = true ∧ ¬ (0 < scanned.cfg.nch ∧ scanned.cfg.pots.getLsbD 0 = true)) ∧
    ((0x100#16).getLsbD 8 = true ∧ ¬ (8 < scanned.cfg.nch ∧ scanned.cfg.pots.getLsbD 8 = true)) ∧
    (∀ ch, ch < 16 → (0#16).getLsbD ch = true → ch < scanned.cfg.nch ∧ scanned.cfg.pots.getLsbD ch = true) ∧
    (∀ ch, ch < 16 → (0xF0#16).getLsbD ch = true → ch < scanned.cfg.nch ∧ scanned.cfg.pots.getLsbD ch = true) := by
  simp only [inv_iff]
  decide

theorem test_meets_UnlockmUnlocksEveryPot :
    fieldOp 0x2300000000000000 = 0x23 ∧ locked.block.fault = false ∧ locked.block.chans.length = locked.cfg.nch ∧
    4 < locked.cfg.nch ∧ locked.cfg.pots.getLsbD 5 = true := by decide

theorem test_meets_LockUnlockKeepsTheValue :
    (waiting.Inv ∧ waiting.block.fault = false ∧ waiting.cfg.isPot (6#8).toNat = true) ∧
    ∃ t, execAll [.lock 6 222, .unlock 6] waiting = some t := ⟨by simp only [inv_iff]; decide, _, rfl⟩

/-- UPDALL and UPD in one sequence: LOCKED; WAITING and snapped; WAITING and still waiting; TRACKING. And no update at all. -/
theorem test_meets_FrozenUntilTheSnap :
    (bank.Inv ∧ 4 < bank.cfg.nch ∧ 7 < bank.cfg.nch ∧ (bank.block.chan 4).isLocked = true ∧
      (bank.block.chan 7).isSnapped = true) ∧
    (∀ i ∈ [Instr.updall, .upd 4 1000, .upd 8 0], i = .updall ∨ ∃ c raw, i = .upd c raw) ∧
    (∃ t, execAll [.updall, .upd 4 1000, .upd 8 0] bank = some t ∧ (t.block.chan 4).isLocked = true ∧
      (t.block.chan 5).isSnapped = true ∧ (t.block.chan 6).isSnapped = false ∧ (t.block.chan 7).isSnapped = true) ∧
    ∃ t, execAll [] bank = some t :=
  ⟨by simp only [inv_iff]; decide, by simp, ⟨_, rfl, by decide⟩, ⟨_, rfl⟩⟩

/-- Either update, at the distance 64 that just snaps. -/
theorem test_meets_NoJumpAtTheSnap :
    (waiting.Inv ∧ bank.Inv) ∧ (waiting.block.chan 6).isSnapped = false ∧ (bank.block.chan 5).isSnapped = false ∧
    (∃ t, exec (.upd 6 1064) waiting = .next t ∧ (t.block.chan 6).isSnapped = true) ∧
    ∃ t, exec .updall bank = .next t ∧ (t.block.chan 5).isSnapped = true :=
  ⟨by simp only [inv_iff]; decide, by decide, by decide, ⟨_, rfl, by decide⟩, ⟨_, rfl, by decide⟩⟩

/-- Each law is some block's. -/
theorem test_meets_PitchLawFormulas :
    State.reset.block.law = .external ∧ ({ State.reset.block with law := .lfo } : Block).law = .lfo ∧
    ({ State.reset.block with law := .free } : Block).law = .free ∧
    ({ State.reset.block with law := .fixed440 } : Block).law = .fixed440 ∧
    ({ State.reset.block with law := .extended } : Block).law = .extended := by decide

theorem test_meets_EvalStoresAndAnswersThePitch :
    fieldOp 0x3000000000000000 = 0x30 ∧ fieldOp 0x310080F00000C000 = 0x31 ∧ calibrated.Inv ∧ calibrated.block.fault = false := by
  simp only [inv_iff]
  decide

theorem test_meets_FixedLawIgnoresItsInputs :
    (live fun b => { b with law := .fixed440 }).block.law = .fixed440 := by decide

/-- Grid codes 0 to 3. -/
theorem test_meets_QntRoundsToTheGrid :
    fieldOp 0x3202000000000000 = 0x32 ∧ calibrated.Inv ∧ calibrated.block.fault = false ∧ 2 < (3#8).toNat ∧
    ((1 : Sel) = 1 ∧ 64 = 64) ∧ ((2 : Sel) = 2 ∧ 128 = 128) ∧ (live fun b => { b with pitch := 16383 }).Inv := by
  simp only [inv_iff]
  decide

theorem test_meets_QuantiserIsIdempotent :
    (live fun b => { b with pitch := 16320 }).Inv ∧ State.reset.block.fault = false ∧ (2#8).toNat ≤ 2 ∧
    ∃ t, exec (.qnt 2) (live fun b => { b with pitch := 16320 }) = .next t := ⟨by simp only [inv_iff]; decide, by decide, by decide, _, rfl⟩

theorem test_meets_Cal0CapturesOffsets :
    fieldOp 0x3300000000000000 = 0x33 ∧ locked.Inv ∧ locked.block.fault = false ∧ locked.cfg.pots.getLsbD 3 = false ∧
    locked.cfg.pots.getLsbD 4 = true := by
  simp only [inv_iff]
  decide

theorem test_meets_Cal1RecordsTheReading :
    fieldOp 0x3400000000000000 = 0x34 ∧ reading.Inv ∧ reading.block.fault = false := by
  simp only [inv_iff]
  decide

theorem test_meets_Cal3ComputesTheCalibration :
    fieldOp 0x3500000000000000 = 0x35 ∧ State.reset.Inv ∧ State.reset.block.fault = false ∧
    State.reset.block.value State.reset.cfg.chCv = State.reset.block.calR1.toNat ∧
    reading.Inv ∧ reading.block.fault = false ∧
    reading.block.value reading.cfg.chCv ≠ reading.block.calR1.toNat := by
  simp only [inv_iff]
  decide

theorem test_meets_CalibrationMapsItsReadings :
    reading.Inv ∧ reading.block.fault = false ∧
    ∃ t v, exec .cal3 reading = .next t ∧ t.resp = some ⟨.ok, v⟩ := ⟨by simp only [inv_iff]; decide, by decide, _, _, rfl, rfl⟩

theorem test_meets_RbeginOpensAPass :
    fieldOp 0x4000000000000000 = 0x40 ∧ pass.block.fault = false ∧ pass.block.rendering = true ∧
    fullRing.block.rendering = false ∧ fullRing.block.rb = fullRing.block.pb ∧ fullRing.block.fault = false ∧
    State.reset.block.rendering = false ∧ State.reset.block.rb ≠ State.reset.block.pb := by decide

/-- Indices 24 and 23; a pass, a full ring, neither. -/
theorem test_meets_SwrWritesOrCollides :
    fieldOp 0x4100001700008000 = 0x41 ∧ pass.Inv ∧ fullRing.Inv ∧ State.reset.Inv ∧ pass.cfg.bs ≤ (24#16).toNat ∧
    (23#16).toNat < pass.cfg.bs ∧ pass.block.rendering = true ∧ fullRing.block.rendering = false ∧
    fullRing.block.rb = fullRing.block.pb ∧ State.reset.block.rb ≠ State.reset.block.pb ∧
    State.reset.block.rendering = false ∧ pass.block.fault = false := by
  simp only [inv_iff]
  decide

theorem test_meets_RsyncReadsTheSyncBit :
    fieldOp 0x4200000100000000 = 0x42 ∧ pass.block.fault = false ∧ pass.block.rb.toNat < pass.cfg.nb ∧
    pass.cfg.bs ≤ (24#16).toNat ∧ (23#16).toNat < pass.cfg.bs ∧ pass.block.rendering = true ∧
    State.reset.block.rendering = false := by decide

/-- No pass; a pass on slot 0; a pass on the last slot. -/
theorem test_meets_AdvHandsTheSlotOver :
    fieldOp 0x4300000000000000 = 0x43 ∧ pass.cfg.Legal ∧ pass.block.fault = false ∧ pass.block.rendering = true ∧
    State.reset.block.rendering = false ∧ (live fun b => { b with rb := 3, rendering := true }).Inv := by
  simp only [inv_iff]
  decide

theorem test_meets_TriggerFlagCommands :
    fieldOp 0x4400000000000000 = 0x44 ∧ fieldOp 0x4500000000000000 = 0x45 ∧ State.reset.block.fault = false := by decide

/-- FAULT; inside a slot; at the end of the last slot. -/
theorem test_meets_TickPlaysCapturesAndAdvances :
    (waitingFor (.tick true) collided).Inv ∧ collided.block.fault = true ∧ (waitingFor (.tick true) pass).Inv ∧
    pass.block.fault = false ∧ pass.block.cs.toNat + 1 < pass.cfg.bs ∧ (waitingFor (.tick true) brink).Inv ∧
    brink.block.fault = false ∧ ¬ brink.block.cs.toNat + 1 < brink.cfg.bs ∧
    (waitingFor (.tick true) brink).inputs = .tick true :: [] := by
  simp only [inv_iff]
  decide

/-- One tick before the underrun, with no tick, with one and with two to come: `T = 1`. -/
theorem test_meets_UnderrunAfterExactlyTTicks :
    brink.Inv ∧ brink.block.fault = false ∧ brink.inputs = ([] : List Bool).map .tick ∧
    (waitingFor (.tick false) brink).inputs = [false].map .tick ∧
    (((brink.block.rb.toNat : Int) - brink.block.pb.toNat - 1) % brink.cfg.nb) * brink.cfg.bs +
      (brink.cfg.bs - brink.block.cs.toNat) = 1 := by
  simp only [inv_iff]
  decide

theorem test_meets_EdgesCoalesce :
    ({ State.reset with inputs := [false, true, true, false, true].map .tick } : State).Inv ∧
    State.reset.block.fault = false ∧
    ([false, false, true, true, false, true] : List Bool)[1]? = some false ∧
    ([false, true, true, false, true] : List Bool)[1]? = some true := by
  simp only [inv_iff]
  decide

theorem test_meets_PassStartsOffTheConsumersSlot :
    State.reset.block.rendering = false ∧ ∃ t, exec .rbegin State.reset = .next t ∧ t.block.rendering = true :=
  ⟨by decide, _, rfl, by decide⟩

/-- RBEGIN and ADV with the smallest number of free slots, and the tick that frees one. -/
theorem test_meets_FreeSlotsAreAccountedFor :
    ((live fun b => { b with rb := 1, rendering := true }).Inv ∧
      (live fun b => { b with rb := 1, rendering := true }).block.free Config.reference = 1 ∧ brink.Inv) ∧
    (∃ t v, exec .rbegin (live fun b => { b with rb := 1 }) = .next t ∧ t.resp = some ⟨.ok, v⟩) ∧
    (∃ t, exec .adv (live fun b => { b with rb := 1, rendering := true }) = .next t ∧ t.block.rendering = false) ∧
    (∃ t, step (waitingFor (.tick true) brink) = .next t ∧ t.block.pb ≠ brink.block.pb) :=
  ⟨by simp only [inv_iff]; decide, ⟨_, _, rfl, rfl⟩, ⟨_, rfl, by decide⟩, ⟨_, rfl, by decide⟩⟩

theorem test_meets_FaultIsFrozenUntilReset :
    (collided.Inv ∧ collided.block.fault = true ∧ fieldOp 0xEE00000000000000 ≠ 0x00 ∧ fieldOp 0xEE00000000000000 ≠ 0x01 ∧
      (Instr.rd 0x09).wellFormed collided.cfg = true ∧ (Instr.rd 0x87).wellFormed collided.cfg = true) ∧
    ((waitingFor .reset collided).inputs = .reset :: [] ∧ frozenScan.block.convPending = true ∧
      frozenScan.block.fault = true ∧ [1, 2, 3, 4, 5, 6, 7, 8#16].length = frozenScan.cfg.nch) ∧
    ∃ t, step (waitingFor (.tick true) collided) = .next t := ⟨by simp only [inv_iff]; decide, by decide, _, rfl⟩

theorem test_meets_RefusalsArePrecise :
    (∃ t, exec .adv State.reset = .next t ∧ t.resp = some ⟨.badSeq, 0⟩) ∧
    (∃ t, exec (.swr 0 1) fullRing = .next t ∧ t.resp = some ⟨.faulted, 0⟩) := ⟨⟨_, rfl, rfl⟩, ⟨_, rfl, rfl⟩⟩

theorem test_meets_StatusesOfEachCommand : ∃ t, exec .rbegin fullRing = .next t := ⟨_, rfl⟩

theorem test_meets_CommandsKeepOtherAgentsState :
    requested.block.convPending = true ∧ collided.block.fault = true ∧ (∃ t, exec .adv collided = .next t) ∧
    ∃ t, exec .conv requested = .next t := ⟨by decide, by decide, ⟨_, rfl⟩, ⟨_, rfl⟩⟩

/-- A command that writes, for each of the sixteen registers in turn, and four writers of `is_snapped`. -/
theorem test_meets_RegistersHaveTheirWriters :
    (writes (.wr 0x15 1) tracking (·.chans.map (·.k)) && writes (.wr 0x85 1) tracking (·.chans.map (·.lkt)) &&
      writes .cal0 tracking (·.chans.map (·.offs)) && writes .updall bank (·.chans.map (·.sm)) &&
      writes (.lock 5 9000) tracking (·.chans.map (·.lockedv)) && writes (.unlock 5) locked (·.chans.map (·.snapv)) &&
      writes .unlockm locked (·.chans.map (·.isLocked))) = true ∧
    (writes (.lock 5 9000) tracking (·.chans.map (·.isSnapped)) && writes (.lockm 0x20) tracking (·.chans.map (·.isSnapped)) &&
      writes (.upd 6 1064) waiting (·.chans.map (·.isSnapped)) && writes .updall bank (·.chans.map (·.isSnapped))) = true ∧
    (writes (.wr 0x03 4) tracking (·.law) && writes .cal3 reading (·.calScale) && writes .cal3 reading (·.calOffset) &&
      writes .cal1 calibrated (·.calR1) && writes .eval calibrated (·.pitch) &&
      writes .adv pass (·.rb) && writes .rbegin State.reset (·.rendering) && writes (.swr 23 1) pass (·.mem.audio)) = true := by
  decide

theorem test_meets_EventsKeepTheHostsState :
    (∃ t, step (waitingFor (.tick true) State.reset) = .next t) ∧
    (∃ t, step (waitingFor (.adcDone [1, 2, 3, 4, 5, 6, 7, 8]) requested) = .next t) := ⟨⟨_, rfl⟩, ⟨_, rfl⟩⟩

theorem test_meets_OnlyACollisionEntersFault :
    fullRing.block.fault = false ∧ ∃ t, exec (.swr 23 1) fullRing = .next t ∧ t.block.fault = true :=
  ⟨by decide, _, rfl, by decide⟩

theorem test_meets_ResetFromEveryState :
    ((waitingFor .reset collided).inputs = .reset :: [] ∧ collided.cfg.Legal ∧ twoSlots.Legal) ∧
    ∃ t, step (waitingFor .reset collided) = .next t ∧ collided.block.fault = true ∧ t.block.fault = false :=
  ⟨by decide, _, rfl, by decide, by decide⟩

theorem test_meets_StepKeepsInvariant :
    (waitingFor (.tick true) brink).Inv ∧ ∃ t, step (waitingFor (.tick true) brink) = .next t := ⟨by simp only [inv_iff]; decide, _, rfl⟩

/-- A scan that cannot happen is the one input without a step. -/
theorem test_meets_EveryInputSteps :
    (waitingFor (.adcDone [1]) requested).Inv ∧ [1#16].length ≠ requested.cfg.nch ∧ State.reset.Inv := by
  simp only [inv_iff]
  decide

end Sys2Proof.Tests
end

