-- ==== Sys2Proof/Proofs/RdGlobalRegisters.lean ====
section
/-!
PROOFS. RD of the registers without a channel (rules R44, R201, R203): the composite registers `STATUS` and `RING` as
sums of their fields, the register map below `0x10`, and what RD answers.
-/

namespace Sys2Proof.Machine

/-- Joining two fields is positional notation. -/
theorem toNat_append_eq_add {m n : Nat} (x : BitVec m) (y : BitVec n) :
    (x ++ y).toNat = 2 ^ n * x.toNat + y.toNat := by
  rw [BitVec.toNat_append, ← Nat.shiftLeft_add_eq_or_of_lt y.isLt, Nat.shiftLeft_eq, Nat.mul_comm]

/-- `STATUS` as the sum of its flag bits (rule R44). -/
theorem statusWord_toNat (b : Block) :
    b.statusWord.toNat = b.rendering.toNat + 2 * b.trigPending.toNat + 4 * b.xrun.toNat +
      8 * b.convPending.toNat + 16 * b.gatePrev.toNat + 32 * b.fault.toNat := by
  simp only [Block.statusWord, toNat_append_eq_add, BitVec.toNat_ofBool, BitVec.ofNat_eq_ofNat, BitVec.toNat_zero]
  omega

/-- `RING` as the sum of its indices (rule R44). -/
theorem ringWord_toNat (b : Block) :
    b.ringWord.toNat = b.cs.toNat + 256 * b.pb.toNat + 4096 * b.rb.toNat := by
  simp only [Block.ringWord, toNat_append_eq_add, BitVec.ofNat_eq_ofNat, BitVec.toNat_zero]
  omega

/-- A number below `0x10` names a register without a channel, in every configuration (rule R203). -/
theorem regOf_of_lt (cfg : Config) {r : Sel} (h : r.toNat < 16) : regOf cfg r = globalReg r.toNat := if_pos h

/-- The meaning of RD (rule R201). -/
theorem exec_rd (r : Sel) (s : State) : exec (.rd r) s = execRd r s := rfl

/-- RD of a register of the map has no check of `fault` and writes only port `resp` (rules R201, R227). -/
theorem exec_rd_of_regOf {s : State} {r : Sel} {reg : Reg} (h : regOf s.cfg r = some reg) :
    exec (.rd r) s = .next { s with resp := some ⟨.ok, readReg s.block reg⟩ } := by
  simp only [exec_rd, execRd, h]
  rfl

/-- RD of a register without a channel whose value is known (rules R201, R203). -/
theorem exec_rd_global {s : State} {r : Sel} {reg : Reg} {v : Value} (hr : r.toNat < 16)
    (hreg : globalReg r.toNat = some reg) (hv : readReg s.block reg = v) :
    exec (.rd r) s = .next { s with resp := some ⟨.ok, v⟩ } :=
  hv ▸ exec_rd_of_regOf ((regOf_of_lt s.cfg hr).trans hreg)

/-- Settles O9: the number of each register is looked up in the map, then its value is read; `STATUS` and `RING` are the
composite words of rule R44, and the closed types `FCAUSE` and `LAW` are read as their codes, case by case. -/
theorem rdReadsGlobalRegisters : Obligations.RdReadsGlobalRegisters := by
  intro s
  refine ⟨s.block.statusWord, s.block.ringWord, ?id, ?status, statusWord_toNat s.block, ?fcause, ?law, ?calScale,
    ?calOffset, ?calR1, ?pitch, ?ring, ringWord_toNat s.block, ?dacout⟩
  case fcause =>
    refine exec_rd_global (reg := .fcause) (by decide) rfl ?_
    cases hc : s.block.fcause <;> simp [readReg, FaultCause.code, hc]
  case law =>
    refine exec_rd_global (reg := .law) (by decide) rfl ?_
    cases hl : s.block.law <;> simp [readReg, Law.code, hl]
  all_goals exact exec_rd_global (by decide) rfl rfl

end Sys2Proof.Machine
end

