-- ==== Sys2Proof/Proofs/OpcodeTable.lean ====
section
/-!
PROOFS. The opcode table against the decoder (rules R71, R72, R76, R78). A row is found by its opcode; given the opcode,
selecting the row says that the reserved fields are zero, which is the check that the decoder makes.
-/

namespace Sys2Proof

/-! ### The rows of the table -/

/-- Every row asks for the whole opcode, and for nothing else than zero bits (rule R78). -/
theorem table_masks {r : TableRow} (hr : r ∈ opcodeTable) :
    fieldOp r.mask = 0xFF ∧ fieldA r.pattern = 0 ∧ fieldB r.pattern = 0 ∧ fieldC r.pattern = 0 :=
  (by decide : ∀ r ∈ opcodeTable,
    fieldOp r.mask = 0xFF ∧ fieldA r.pattern = 0 ∧ fieldB r.pattern = 0 ∧ fieldC r.pattern = 0) r hr

/-- An opcode has one row (rule R75). -/
theorem row_eq_of_fieldOp_eq {r q : TableRow} (hr : r ∈ opcodeTable) (hq : q ∈ opcodeTable)
    (h : fieldOp r.pattern = fieldOp q.pattern) : r = q :=
  (by decide : ∀ r ∈ opcodeTable, ∀ q ∈ opcodeTable, fieldOp r.pattern = fieldOp q.pattern → r = q) r hr q hq h

/-- A mnemonic has one row (rule R75). -/
theorem row_eq_of_mnemonic_eq {r q : TableRow} (hr : r ∈ opcodeTable) (hq : q ∈ opcodeTable)
    (h : r.mnemonic = q.mnemonic) : r = q :=
  (by decide : ∀ r ∈ opcodeTable, ∀ q ∈ opcodeTable, r.mnemonic = q.mnemonic → r = q) r hr q hq h

/-! ### Selecting a row, as a check of fields -/

/-- The fields of `w` below the opcode are zero where `mask` has ones (rule R72). -/
def reservedZero (mask w : CmdWord) : Bool :=
  fieldA w &&& fieldA mask == 0 && fieldB w &&& fieldB mask == 0 && fieldC w &&& fieldC mask == 0

theorem TableRow.selects_iff {r : TableRow} {w : CmdWord} : r.selects w = true ↔ w &&& r.mask = r.pattern :=
  beq_iff_eq

/-- A word selects a row when it has the row's opcode and its reserved bits are zero (rules R72, R78). -/
theorem selects_iff_reservedZero {r : TableRow} (hr : r ∈ opcodeTable) (w : CmdWord) :
    r.selects w = true ↔ fieldOp w = fieldOp r.pattern ∧ reservedZero r.mask w = true := by
  obtain ⟨hop, ha, hb, hc⟩ := table_masks hr
  have hall : fieldOp w &&& fieldOp r.mask = fieldOp w := by rw [hop]; exact BitVec.and_allOnes
  simp only [reservedZero, Bool.and_eq_true, beq_iff_eq]
  constructor
  · intro h
    have hw := TableRow.selects_iff.mp h
    refine ⟨?_, ⟨?_, ?_⟩, ?_⟩
    · rw [← hall, ← fieldOp_and, hw]
    · rw [← fieldA_and, hw, ha]
    · rw [← fieldB_and, hw, hb]
    · rw [← fieldC_and, hw, hc]
  · rintro ⟨h1, ⟨h2, h3⟩, h4⟩
    exact Laws.EncodingSelectsRow.selects_of_fields (hall.trans h1) (h2.trans ha.symm) (h3.trans hb.symm) (h4.trans hc.symm)

/-- With the row's opcode, what is left of selecting the row is the check of the reserved bits. -/
theorem selects_eq_reservedZero {r : TableRow} (hr : r ∈ opcodeTable) {w : CmdWord}
    (hop : fieldOp w = fieldOp r.pattern) : r.selects w = reservedZero r.mask w :=
  Bool.eq_iff_iff.mpr ((selects_iff_reservedZero hr w).trans (and_iff_right hop))

/-- A field of which no bit is reserved passes the check. -/
theorem and_zero_beq_zero {n : Nat} (x : BitVec n) : (x &&& 0 == 0) = true :=
  beq_iff_eq.mpr BitVec.and_zero

/-- The mask `0xFFFF0000` of field `c` reserves `c[31:16]` (rule R71). -/
theorem fieldC_and_highMask (w : CmdWord) : (fieldC w &&& 0xFFFF0000 == 0) = (fieldCHigh w == 0) := by
  rw [fieldCHigh_eq, Bool.eq_iff_iff, beq_iff_eq, beq_iff_eq]
  constructor
  · intro h
    have hhigh := congrArg (BitVec.extractLsb' 16 16) h
    rwa [BitVec.extractLsb'_and, show BitVec.extractLsb' 16 16 (0xFFFF0000 : Value) = BitVec.allOnes 16 by decide,
      BitVec.and_allOnes] at hhigh
  · intro h
    rw [← lowOperand_of_high_zero _ h]
    exact Laws.EncodingSelectsRow.lowOperand_and_mask _

/-- The check of reserved bits under a mask whose fields are known. -/
theorem reservedZero_of_fields {mask : CmdWord} {a : Sel} {b : Half} {c : Value} (ha : fieldA mask = a)
    (hb : fieldB mask = b) (hc : fieldC mask = c) (w : CmdWord) :
    reservedZero mask w = (fieldA w &&& a == 0 && fieldB w &&& b == 0 && fieldC w &&& c == 0) := by
  rw [reservedZero, ha, hb, hc]

/-! Each choice of reserved fields in rule R71, as the decoder writes its check. -/

section
variable (w : CmdWord)

theorem reservedZero_a_b_c : reservedZero 0xFFFFFFFFFFFFFFFF w = (fieldA w == 0 && fieldB w == 0 && fieldC w == 0) := by
  rw [reservedZero_of_fields (a := BitVec.allOnes 8) (b := BitVec.allOnes 16) (c := BitVec.allOnes 32) rfl rfl rfl]
  simp only [BitVec.and_allOnes]

theorem reservedZero_b_c : reservedZero 0xFF00FFFFFFFFFFFF w = (fieldB w == 0 && fieldC w == 0) := by
  rw [reservedZero_of_fields (a := 0) (b := BitVec.allOnes 16) (c := BitVec.allOnes 32) rfl rfl rfl]
  simp only [BitVec.and_allOnes, and_zero_beq_zero, Bool.true_and]

theorem reservedZero_b : reservedZero 0xFF00FFFF00000000 w = (fieldB w == 0) := by
  rw [reservedZero_of_fields (a := 0) (b := BitVec.allOnes 16) (c := 0) rfl rfl rfl]
  simp only [BitVec.and_allOnes, and_zero_beq_zero, Bool.true_and, Bool.and_true]

theorem reservedZero_b_cHigh : reservedZero 0xFF00FFFFFFFF0000 w = (fieldB w == 0 && fieldCHigh w == 0) := by
  rw [reservedZero_of_fields (a := 0) (b := BitVec.allOnes 16) (c := 0xFFFF0000) rfl rfl rfl]
  simp only [BitVec.and_allOnes, and_zero_beq_zero, Bool.true_and, fieldC_and_highMask]

theorem reservedZero_a_b_cHigh : reservedZero 0xFFFFFFFFFFFF0000 w = (fieldA w == 0 && fieldB w == 0 && fieldCHigh w == 0) := by
  rw [reservedZero_of_fields (a := BitVec.allOnes 8) (b := BitVec.allOnes 16) (c := 0xFFFF0000) rfl rfl rfl]
  simp only [BitVec.and_allOnes, fieldC_and_highMask]

theorem reservedZero_a_cHigh : reservedZero 0xFFFF0000FFFF0000 w = (fieldA w == 0 && fieldCHigh w == 0) := by
  rw [reservedZero_of_fields (a := BitVec.allOnes 8) (b := 0) (c := 0xFFFF0000) rfl rfl rfl]
  simp only [BitVec.and_allOnes, and_zero_beq_zero, Bool.and_true, fieldC_and_highMask]

theorem reservedZero_a_c : reservedZero 0xFFFF0000FFFFFFFF w = (fieldA w == 0 && fieldC w == 0) := by
  rw [reservedZero_of_fields (a := BitVec.allOnes 8) (b := 0) (c := BitVec.allOnes 32) rfl rfl rfl]
  simp only [BitVec.and_allOnes, and_zero_beq_zero, Bool.and_true]

end

/-! ### The decoder, row by row -/

/-- A word with the row's opcode is decoded to a command of the row's mnemonic, behind the check of the row's reserved bits. -/
def DecodedBy (r : TableRow) : Prop :=
  ∀ w : CmdWord, fieldOp w = fieldOp r.pattern →
    ∃ i : Instr, i.mnemonic = r.mnemonic ∧ decode w = whenReservedZero (reservedZero r.mask w) i

/-- A row is decoded as its arm of the decoder says, when the arm's check is the row's. -/
theorem decodedBy_of_arm {r : TableRow} {check : CmdWord → Bool} {i : CmdWord → Instr}
    (hreserved : ∀ w, reservedZero r.mask w = check w) (hname : ∀ w, (i w).mnemonic = r.mnemonic)
    (harm : ∀ w, fieldOp w = fieldOp r.pattern → decode w = whenReservedZero (check w) (i w)) : DecodedBy r :=
  fun w hop => ⟨i w, hname w, (harm w hop).trans (by rw [hreserved])⟩

/-- Every row of the table is an arm of the decoder: its command with the fields that are its operands, behind the check
of the fields reserved for it (rule R71). -/
theorem decodedBy_of_mem : ∀ r ∈ opcodeTable, DecodedBy r := by
  simp only [opcodeTable, List.forall_mem_cons]
  refine ⟨
    decodedBy_of_arm (i := fun _ => .nop) reservedZero_a_b_c (fun _ => rfl) ?_,
    decodedBy_of_arm (i := fun w => .rd (fieldA w)) reservedZero_b_c (fun _ => rfl) ?_,
    decodedBy_of_arm (i := fun w => .wr (fieldA w) (fieldC w)) reservedZero_b (fun _ => rfl) ?_,
    decodedBy_of_arm (i := fun w => .upd (fieldA w) (fieldCLow w)) reservedZero_b_cHigh (fun _ => rfl) ?_,
    decodedBy_of_arm (i := fun _ => .updall) reservedZero_a_b_c (fun _ => rfl) ?_,
    decodedBy_of_arm (i := fun _ => .conv) reservedZero_a_b_c (fun _ => rfl) ?_,
    decodedBy_of_arm (i := fun w => .val (fieldA w)) reservedZero_b_c (fun _ => rfl) ?_,
    decodedBy_of_arm (i := fun w => .lock (fieldA w) (fieldCLow w)) reservedZero_b_cHigh (fun _ => rfl) ?_,
    decodedBy_of_arm (i := fun w => .unlock (fieldA w)) reservedZero_b_c (fun _ => rfl) ?_,
    decodedBy_of_arm (i := fun w => .lockm (fieldCLow w)) reservedZero_a_b_cHigh (fun _ => rfl) ?_,
    decodedBy_of_arm (i := fun _ => .unlockm) reservedZero_a_b_c (fun _ => rfl) ?_,
    decodedBy_of_arm (i := fun _ => .eval) reservedZero_a_b_c (fun _ => rfl) ?_,
    decodedBy_of_arm (i := fun w => .evali (fieldB w) (fieldCLow w)) reservedZero_a_cHigh (fun _ => rfl) ?_,
    decodedBy_of_arm (i := fun w => .qnt (fieldA w)) reservedZero_b_c (fun _ => rfl) ?_,
    decodedBy_of_arm (i := fun _ => .cal0) reservedZero_a_b_c (fun _ => rfl) ?_,
    decodedBy_of_arm (i := fun _ => .cal1) reservedZero_a_b_c (fun _ => rfl) ?_,
    decodedBy_of_arm (i := fun _ => .cal3) reservedZero_a_b_c (fun _ => rfl) ?_,
    decodedBy_of_arm (i := fun _ => .rbegin) reservedZero_a_b_c (fun _ => rfl) ?_,
    decodedBy_of_arm (i := fun w => .swr (fieldB w) (fieldCLow w)) reservedZero_a_cHigh (fun _ => rfl) ?_,
    decodedBy_of_arm (i := fun w => .rsync (fieldB w)) reservedZero_a_c (fun _ => rfl) ?_,
    decodedBy_of_arm (i := fun _ => .adv) reservedZero_a_b_c (fun _ => rfl) ?_,
    decodedBy_of_arm (i := fun _ => .trgtake) reservedZero_a_b_c (fun _ => rfl) ?_,
    decodedBy_of_arm (i := fun _ => .trgset) reservedZero_a_b_c (fun _ => rfl) ?_,
    List.forall_mem_nil _⟩
  all_goals
    intro w hop
    rw [decode, hop]
    rfl

/-- Only an opcode of the table is decoded to a command (rule R76). -/
theorem exists_row_of_decode {w : CmdWord} {i : Instr} (h : decode w = .command i) :
    ∃ r ∈ opcodeTable, fieldOp w = fieldOp r.pattern := by
  have hop : (fieldOp w).toNat ∈ opcodeTable.map fun r => (fieldOp r.pattern).toNat := by
    unfold decode at h
    split at h
    case h_24 => cases h
    all_goals
      rename_i hop
      rw [hop]
      decide
  obtain ⟨r, hr, heq⟩ := List.mem_map.mp hop
  exact ⟨r, hr, BitVec.eq_of_toNat_eq heq.symm⟩

/-- With the row's opcode, the decoder's check is the selection of the row (rules R72, R78). -/
theorem decode_of_fieldOp_eq {r : TableRow} (hr : r ∈ opcodeTable) {w : CmdWord} (hop : fieldOp w = fieldOp r.pattern) :
    ∃ i : Instr, i.mnemonic = r.mnemonic ∧ decode w = whenReservedZero (r.selects w) i := by
  rw [selects_eq_reservedZero hr hop]
  exact decodedBy_of_mem r hr w hop

/-- A word selects a row exactly when it decodes to a command with the row's mnemonic (rule R78). -/
theorem selects_iff_decode {r : TableRow} (hr : r ∈ opcodeTable) (w : CmdWord) :
    r.selects w = true ↔ ∃ i, decode w = .command i ∧ i.mnemonic = r.mnemonic := by
  constructor
  · intro hsel
    obtain ⟨i, hname, hdec⟩ := decode_of_fieldOp_eq hr ((selects_iff_reservedZero hr w).mp hsel).1
    exact ⟨i, by rw [hdec, hsel]; rfl, hname⟩
  · rintro ⟨i, hdec, hname⟩
    obtain ⟨q, hq, hop⟩ := exists_row_of_decode hdec
    obtain ⟨j, hjname, hjdec⟩ := decode_of_fieldOp_eq hq hop
    obtain ⟨hsel, rfl⟩ := whenReservedZero_command (hjdec.symm.trans hdec)
    exact row_eq_of_mnemonic_eq hq hr (hjname.symm.trans hname) ▸ hsel

/-- A word with the row's opcode that does not select the row has a reserved bit set, and is `BAD_OP` (rules R72, R78). -/
theorem rejected_of_not_selects {r : TableRow} (hr : r ∈ opcodeTable) {w : CmdWord}
    (hop : fieldOp w = fieldOp r.pattern) (hsel : ¬ r.selects w = true) :
    decode w = .rejected .reservedBits ∧ Machine.acceptWord false w = .error .badOp := by
  obtain ⟨i, -, hdec⟩ := decode_of_fieldOp_eq hr hop
  rw [Bool.eq_false_iff.mpr hsel] at hdec
  exact ⟨hdec, Machine.acceptWord_of_decode hdec⟩

/-- No word selects two rows (rule R78). -/
theorem row_unique_of_selects {r q : TableRow} (hr : r ∈ opcodeTable) (hq : q ∈ opcodeTable) {w : CmdWord}
    (hrw : r.selects w = true) (hqw : q.selects w = true) : r = q := by
  obtain ⟨hrop, -⟩ := (selects_iff_reservedZero hr w).mp hrw
  obtain ⟨hqop, -⟩ := (selects_iff_reservedZero hq w).mp hqw
  exact row_eq_of_fieldOp_eq hr hq (hrop.symm.trans hqop)

/-- Settles O3: by the row of the word's opcode, behind which the decoder's check is the row's selection. -/
theorem maskAndMatchSelectTheCommand : Obligations.MaskAndMatchSelectTheCommand := by
  unfold Obligations.MaskAndMatchSelectTheCommand
  simp only [ne_eq, ← TableRow.selects_iff]
  refine ⟨fun w r hr => selects_iff_decode hr w, ?masks, fun w r hr => rejected_of_not_selects hr,
    fun w r q hr hq => row_unique_of_selects hr hq, ?lockRow, ?lockWord⟩
  all_goals decide

end Sys2Proof
end

