-- ==== Sys2Proof/Proofs/Smoothing.lean ====
section
/-!
PROOFS. The smoothing commands UPD, UPDALL, CONV and VAL (rules R100 to R109, R121): the dividend of the smoother, an
updated channel written out, the effective value in each lock state, and what each command answers in each of its cases.
-/

namespace Sys2Proof.Machine

/-! ### Responses, read forward -/

section
variable (s : State) (st : Status) (b : Block) (v : Value)

theorem respond_eq : s.respond st v = .next { s with resp := some ⟨st, v⟩ } := rfl

theorem refuse_eq : s.refuse st = .next { s with resp := some ⟨st, 0⟩ } := rfl

theorem complete_eq : s.complete b v = .next { s with block := b, resp := some ⟨.ok, v⟩ } := rfl

end

/-- The check that a channel number exists (rule R73). -/
theorem channelExists_iff {cfg : Config} {ch : Sel} : channelExists cfg ch = true ↔ ch.toNat < cfg.nch :=
  decide_eq_true_iff

theorem channelExists_eq_false {cfg : Config} {ch : Sel} (h : cfg.nch ≤ ch.toNat) : channelExists cfg ch = false :=
  decide_eq_false (Nat.not_lt.mpr h)

/-- The check that a window is configured (rule R23). -/
theorem configured_iff {c : Channel} : c.configured = true ↔ c.k ≠ 0 := bne_iff_ne

theorem configured_eq_false {c : Channel} (h : c.k = 0) : c.configured = false := by simp [Channel.configured, h]

/-- The answer to a word whose decoding is behind a reserved-field check, the check as a proposition (rules R72, R76). -/
theorem acceptWord_eq_ite {w : CmdWord} {zero : Bool} {i : Instr} {p : Prop} [Decidable p]
    (hdec : decode w = whenReservedZero zero i) (hzero : zero = true ↔ p) :
    acceptWord false w = if p then .ok i else .error .badOp := by
  rw [acceptWord_of_decode hdec]
  exact if_congr hzero rfl rfl

/-- The check of two reserved fields (rule R72). -/
theorem beq_zero_and_iff {m n : Nat} (x : BitVec m) (y : BitVec n) :
    (x == 0 && y == 0) = true ↔ x = 0 ∧ y = 0 := by
  rw [Bool.and_eq_true, beq_iff_eq, beq_iff_eq]

/-- The check of a word all of whose operand fields are reserved (rule R72). -/
theorem fields_beq_zero_iff (w : CmdWord) :
    (fieldA w == 0 && fieldB w == 0 && fieldC w == 0) = true ↔ fieldA w = 0 ∧ fieldB w = 0 ∧ fieldC w = 0 := by
  rw [Bool.and_eq_true, beq_zero_and_iff, beq_iff_eq, and_assoc]

/-! ### The dividend of the smoother (rule R100) -/

theorem dividend_nonneg {s raw k : Int} (hs : 0 ≤ s) (hr : 0 ≤ raw) (hk : 1 ≤ k) : 0 ≤ (k - 1) * s + raw :=
  Int.add_nonneg (Int.mul_nonneg (by omega) hs) hr

/-- The dividend is a weighted sum of `k` values that are each at most `m`. -/
theorem dividend_le {s raw k m : Int} (hs : s ≤ m) (hr : raw ≤ m) (hk : 1 ≤ k) : (k - 1) * s + raw ≤ k * m :=
  calc (k - 1) * s + raw ≤ (k - 1) * m + m := Int.add_le_add (Int.mul_le_mul_of_nonneg_left hs (by omega)) hr
    _ = k * m := by ring

/-- Settles O14: the dividend is not negative, so the quotient is the floor, and it is at most `k * 65535`. -/
theorem smootherFormulaAndRange : Obligations.SmootherFormulaAndRange := by
  intro s raw k hk
  refine ⟨rfl, fun hs hs' hr hr' => ?_⟩
  obtain ⟨hlow, hhigh⟩ := ema_range hs hs' hr hr' hk
  refine ⟨dividend_nonneg hs hr hk, ema_eq hs hr hk, hlow, hhigh, fun hk' => ?_⟩
  have hle := dividend_le hs' hr' hk
  omega

/-! ### An updated channel (rules R101, R124) -/

/-- An update writes `SM` and `is_snapped` and no other register; `is_snapped` is set by the snap check on the new `SM`. -/
theorem update_eq {c : Channel} {tol : Nat} {raw : Half} {sm' : Value} (hsm : (c.update tol raw).sm = sm') :
    c.update tol raw = { c with
      sm := sm'
      isSnapped := c.isSnapped ||
        decide (c.isLocked = false ∧ c.isSnapped = false ∧ |sm'.toInt - c.snapv.toNat| ≤ tol) } := by
  have hsnap : (c.update tol raw).isSnapped = (c.isSnapped ||
      decide (c.isLocked = false ∧ c.isSnapped = false ∧ |sm'.toInt - c.snapv.toNat| ≤ tol)) := by
    rw [update_isSnapped, hsm]
    simp only [Int.abs_eq_natAbs, Int.ofNat_le, Bool.decide_and, Bool.decide_eq_false, Bool.and_assoc]
  exact channel_ext (update_k ..) hsm (update_raw ..) (update_isLocked ..) hsnap (update_lockedv ..)
    (update_snapv ..) (update_offs ..) (update_lkt ..)

/-! ### UPD (rule R101) -/

/-- The meaning of UPD (rule R101). -/
theorem exec_upd (ch : Sel) (raw : Half) (s : State) : exec (.upd ch raw) s = execUpd ch raw s := rfl

section
variable {s : State} {ch : Sel} (raw : Half) (hlive : s.block.fault = false)
include hlive

theorem exec_upd_of_no_channel (hch : s.cfg.nch ≤ ch.toNat) :
    exec (.upd ch raw) s = .next { s with resp := some ⟨.badArg, 0⟩ } := by
  rw [exec_upd, execUpd, unlessFaulted_of_live _ hlive, channelExists_eq_false hch, require_false, refuse_eq]

theorem exec_upd_of_unconfigured (hch : ch.toNat < s.cfg.nch) (hk : (s.block.chan ch.toNat).k = 0) :
    exec (.upd ch raw) s = .next { s with resp := some ⟨.unconfig, 0⟩ } := by
  rw [exec_upd, execUpd, unlessFaulted_of_live _ hlive, channelExists_iff.mpr hch, require_true,
    configured_eq_false hk, require_false, refuse_eq]

theorem exec_upd_of_configured (hch : ch.toNat < s.cfg.nch) (hk : (s.block.chan ch.toNat).k ≠ 0) :
    exec (.upd ch raw) s = .next
      { s with
        block := s.block.setChan ch.toNat ((s.block.chan ch.toNat).update s.cfg.snapTol raw)
        resp := some ⟨.ok, ((s.block.chan ch.toNat).update s.cfg.snapTol raw).sm⟩ } := by
  rw [exec_upd, execUpd, unlessFaulted_of_live _ hlive, channelExists_iff.mpr hch, require_true,
    configured_iff.mpr hk, require_true, complete_eq]

end

/-- Settles O18: the checks of UPD in their order, then the updated channel written out. -/
theorem updUpdatesOneChannel : Obligations.UpdUpdatesOneChannel := by
  refine ⟨fun w hop => acceptWord_eq_ite (by rw [decode, hop]; rfl) (beq_zero_and_iff _ _),
    fun s ch raw hlive => ⟨exec_upd_of_no_channel raw hlive, exec_upd_of_unconfigured raw hlive, fun hch hk => ?_⟩⟩
  rw [exec_upd_of_configured raw hlive hch hk, update_eq (update_sm ..)]
  rfl

/-! ### UPDALL (rule R104) -/

/-- The meaning of UPDALL (rule R104). -/
theorem exec_updall (s : State) : exec .updall s = execUpdall s := rfl

section
variable {s : State} (hlive : s.block.fault = false)
include hlive

theorem exec_updall_of_unconfigured (hk : s.block.chans.all Channel.configured = false) :
    exec .updall s = .next { s with resp := some ⟨.unconfig, 0⟩ } := by
  rw [exec_updall, execUpdall, unlessFaulted_of_live _ hlive, hk, require_false, refuse_eq]

theorem exec_updall_of_configured (hk : s.block.chans.all Channel.configured = true) :
    exec .updall s = .next
      { s with
        block := s.block.mapChans fun _ c => c.update s.cfg.snapTol c.raw
        resp := some ⟨.ok, 0⟩ } := by
  rw [exec_updall, execUpdall, unlessFaulted_of_live _ hlive, hk, require_true, complete_eq]

end

/-- Settles O19: one window that is 0 refuses the whole pass; otherwise each element of the new list is the channel of its
number, updated from its own latch. -/
theorem updallUpdatesEveryChannel : Obligations.UpdallUpdatesEveryChannel := by
  refine ⟨fun w hop => acceptWord_eq_ite (by rw [decode, hop]; rfl) (fields_beq_zero_iff w),
    fun s hlive hlen => ⟨?refused, fun hk => ?updated⟩⟩
  case refused =>
    rintro ⟨ch, hch, hzero⟩
    refine exec_updall_of_unconfigured hlive (Bool.eq_false_iff.mpr fun hall => ?_)
    exact (all_configured hlen).mp hall ch hch hzero
  case updated =>
    refine ⟨_, exec_updall_of_configured hlive ((all_configured hlen).mpr hk), ?_, fun ch hch => ?_⟩
    · rw [List.length_mapIdx, hlen]
    · rw [getElem?_mapIdx_chan (hlen ▸ hch), update_eq (update_sm ..)]
      rfl

/-! ### CONV (rule R106) -/

/-- The meaning of CONV (rule R106). -/
theorem exec_conv (s : State) : exec .conv s = execConv s := rfl

/-- CONV does not look at the flag that it sets. -/
theorem exec_conv_of_live {s : State} (hlive : s.block.fault = false) :
    exec .conv s = .next { s with block := { s.block with convPending := true }, resp := some ⟨.ok, 0⟩ } := by
  rw [exec_conv, execConv, unlessFaulted_of_live _ hlive, complete_eq]

/-- Bit 3 of `STATUS` is `conv_pending` (rule R44). -/
theorem statusWord_getLsbD_three (b : Block) : b.statusWord.getLsbD 3 = b.convPending := by
  simp only [Block.statusWord, BitVec.getLsbD_append]
  simp

/-- Settles O20: by what CONV writes, and by the bit at which `STATUS` shows it. -/
theorem convRequestsAScan : Obligations.ConvRequestsAScan := by
  refine ⟨fun w hop => acceptWord_eq_ite (by rw [decode, hop]; rfl) (fields_beq_zero_iff w),
    fun s hlive => ⟨exec_conv_of_live hlive, _, exec_rd_global (reg := .status) (by decide) rfl rfl, ?_⟩⟩
  exact statusWord_getLsbD_three _

/-! ### VAL (rules R109, R121) -/

section
variable {c : Channel}

theorem value_of_locked (hl : c.isLocked = true) : c.value = c.lockedv.toNat := by simp [Channel.value, hl]

theorem value_of_waiting (hl : c.isLocked = false) (hs : c.isSnapped = false) : c.value = c.snapv.toNat := by
  simp [Channel.value, hl, hs]

theorem value_of_tracking (hl : c.isLocked = false) (hs : c.isSnapped = true) : c.value = c.sm.toInt := by
  simp [Channel.value, hl, hs]

end

/-- A 16-bit register as a response value (rule R12). -/
theorem u32_natCast (x : Half) : u32 x.toNat = x.zeroExtend 32 := by
  rw [u32, BitVec.ofInt_natCast, BitVec.ofNat_toNat]

/-- A value in `0 .. 65535` as a response value (rule R12). -/
theorem u32_toNat {x : Int} (h0 : 0 ≤ x) (h1 : x ≤ 65535) : ((u32 x).toNat : Int) = x := by
  rw [u32, BitVec.toNat_ofInt]
  omega

/-- The meaning of VAL (rule R109). -/
theorem exec_val (ch : Sel) (s : State) : exec (.val ch) s = execVal ch s := rfl

section
variable {s : State} {ch : Sel} (hlive : s.block.fault = false)
include hlive

theorem exec_val_of_no_channel (hch : s.cfg.nch ≤ ch.toNat) :
    exec (.val ch) s = .next { s with resp := some ⟨.badArg, 0⟩ } := by
  rw [exec_val, execVal, unlessFaulted_of_live _ hlive, channelExists_eq_false hch, require_false, refuse_eq]

/-- VAL of a channel that exists, by the number that its effective value is. -/
theorem exec_val_of_value {x : Int} (hch : ch.toNat < s.cfg.nch) (hx : (s.block.chan ch.toNat).value = x) :
    exec (.val ch) s = .next { s with resp := some ⟨.ok, u32 x⟩ } := by
  rw [exec_val, execVal, unlessFaulted_of_live _ hlive, channelExists_iff.mpr hch, require_true, respond_eq,
    Block.value, hx]

end

/-- Settles O22: by the lock state; a plain channel is tracking, by the invariant (rule R48), which also gives the range. -/
theorem valAnswersEffectiveValue : Obligations.ValAnswersEffectiveValue := by
  refine ⟨fun w hop => acceptWord_eq_ite (by rw [decode, hop]; rfl) (beq_zero_and_iff _ _),
    fun s ch hinv hlive => ⟨exec_val_of_no_channel hlive, fun hch => ?_⟩⟩
  obtain ⟨-, ⟨-, hchans⟩, -⟩ := hinv
  have hok := hchans ch.toNat hch
  refine ⟨fun hl => ?locked, fun hl hs => ?waiting, fun hl hs => ?tracking, fun hplain => ?plain, ?range⟩
  case locked => rw [exec_val_of_value hlive hch (value_of_locked hl), u32_natCast]
  case waiting => rw [exec_val_of_value hlive hch (value_of_waiting hl hs), u32_natCast]
  case tracking => rw [exec_val_of_value hlive hch (value_of_tracking hl hs), u32_toInt_self]
  case plain =>
    obtain ⟨-, -, -, hreset⟩ := hok
    obtain ⟨hl, hs, -, -⟩ := hreset hplain
    rw [exec_val_of_value hlive hch (value_of_tracking hl hs), u32_toInt_self]
  case range =>
    obtain ⟨hlow, hhigh⟩ := value_range hok
    refine ⟨_, exec_val_of_value hlive hch rfl, ?_⟩
    have := u32_toNat hlow hhigh
    omega

end Sys2Proof.Machine
end

