-- ==== Sys2Proof/Proofs/LockSnap.lean ====
section
/-!
PROOFS. The lock and snap rules (R122 to R126): when the snap check snaps, LOCK and UNLOCK of a channel written out, and
what LOCK, UNLOCK, LOCKM and UNLOCKM answer in each of their cases.
-/

namespace Sys2Proof.Machine

/-- The check of three reserved fields (rule R72). -/
theorem beq_zero_and_and_iff {l m n : Nat} (x : BitVec l) (y : BitVec m) (z : BitVec n) :
    (x == 0 && y == 0 && z == 0) = true ↔ x = 0 ∧ y = 0 ∧ z = 0 := by
  rw [Bool.and_eq_true, beq_zero_and_iff, beq_iff_eq, and_assoc]

/-- A pot channel is a channel that exists and whose bit of `POTS` is 1 (rules R10, R21). -/
theorem isPot_iff {cfg : Config} {ch : Nat} : cfg.isPot ch = true ↔ ch < cfg.nch ∧ cfg.pots.getLsbD ch = true := by
  rw [Config.isPot, Bool.and_eq_true, decide_eq_true_iff]

/-! ### The snap check (rule R124) -/

section
variable {c : Channel} {tol : Nat}

/-- The condition of the snap check, the distance as an absolute value (rule R124). -/
theorem snaps_iff : c.snaps tol = true ↔
    c.isLocked = false ∧ c.isSnapped = false ∧ |c.sm.toInt - c.snapv.toNat| ≤ tol := by
  simp only [Channel.snaps, Bool.and_eq_true, Bool.not_eq_true', decide_eq_true_iff, and_assoc, Int.abs_eq_natAbs,
    Int.ofNat_le]

theorem snapCheck_of_snaps (h : c.snaps tol = true) : c.snapCheck tol = { c with isSnapped := true } := if_pos h

theorem snapCheck_of_not_snaps (h : ¬ c.snaps tol = true) : c.snapCheck tol = c := if_neg h

end

/-- Settles O23: the first case is the condition of the snap check; each of the other three denies one of its parts. -/
theorem snapCheckIsInclusive : Obligations.SnapCheckIsInclusive := by
  intro c tol
  refine ⟨fun hl hs hnear => snapCheck_of_snaps (snaps_iff.mpr ⟨hl, hs, hnear⟩), fun _ _ hfar => ?far,
    fun hl => ?locked, fun hs => ?tracking⟩
  all_goals refine snapCheck_of_not_snaps fun h => ?_
  all_goals obtain ⟨hl', hs', hnear⟩ := snaps_iff.mp h
  case far => exact hfar hnear
  case locked => exact Bool.false_ne_true (hl'.symm.trans hl)
  case tracking => exact Bool.false_ne_true (hs'.symm.trans hs)

/-! ### LOCK (rule R122) -/

section
variable {c : Channel} (target : Half)

/-- A locked channel is the channel with the effective value captured and the target to snap at (rule R122). -/
theorem lock_eq : c.lock target =
    { c with lockedv := (c.lock target).lockedv, snapv := target, isLocked := true, isSnapped := false } := rfl

/-- A channel whose effective value is a 16-bit register captures that register. -/
theorem lock_lockedv_of_value {x : Half} (hx : c.value = x.toNat) : (c.lock target).lockedv = x := by
  rw [Channel.lock, hx, u16_natCast]

end

/-- The meaning of LOCK (rule R122). -/
theorem exec_lock (ch : Sel) (target : Half) (s : State) : exec (.lock ch target) s = execLock ch target s := rfl

section
variable {s : State} {ch : Sel} (target : Half) (hlive : s.block.fault = false)
include hlive

theorem exec_lock_of_no_pot (hpot : s.cfg.isPot ch.toNat = false) :
    exec (.lock ch target) s = .next { s with resp := some ⟨.badArg, 0⟩ } := by
  rw [exec_lock, execLock, unlessFaulted_of_live _ hlive, potExists, hpot, require_false, refuse_eq]

theorem exec_lock_of_pot (hpot : s.cfg.isPot ch.toNat = true) :
    exec (.lock ch target) s = .next
      { s with block := s.block.setChan ch.toNat ((s.block.chan ch.toNat).lock target), resp := some ⟨.ok, 0⟩ } := by
  rw [exec_lock, execLock, unlessFaulted_of_live _ hlive, potExists, hpot, require_true, complete_eq]

end

/-- Settles O24: the captured value is the effective value, which is a 16-bit register unless the channel is tracking; there
the invariant (rule R48) says that `SM` fits. -/
theorem lockCapturesEffectiveValue : Obligations.LockCapturesEffectiveValue := by
  refine ⟨fun w hop => acceptWord_eq_ite (by rw [decode, hop]; rfl) (beq_zero_and_iff _ _),
    fun s ch target hinv hlive => ⟨exec_lock_of_no_pot target hlive, fun hch hbit => ?_⟩⟩
  obtain ⟨-, ⟨-, hchans⟩, -⟩ := hinv
  refine ⟨((s.block.chan ch.toNat).lock target).lockedv, fun hl => ?locked, fun hl hs => ?waiting,
    fun hl hs => ?tracking, ?answer⟩
  case locked => exact lock_lockedv_of_value target (value_of_locked hl)
  case waiting => exact lock_lockedv_of_value target (value_of_waiting hl hs)
  case tracking => rw [lock_captures target (hchans ch.toNat hch), value_of_tracking hl hs]
  case answer =>
    rw [exec_lock_of_pot target hlive (isPot_iff.mpr ⟨hch, hbit⟩), lock_eq]
    rfl

/-! ### UNLOCK (rule R123) -/

section
variable {c : Channel}

theorem unlock_of_locked (hl : c.isLocked = true) :
    c.unlock = { c with snapv := c.lockedv, isLocked := false, isSnapped := false } := if_pos hl

theorem unlock_of_not_locked (hl : c.isLocked = false) : c.unlock = c := if_neg (Bool.not_eq_true _ ▸ hl)

end

/-- The meaning of UNLOCK (rule R123). -/
theorem exec_unlock (ch : Sel) (s : State) : exec (.unlock ch) s = execUnlock ch s := rfl

section
variable {s : State} {ch : Sel} (hlive : s.block.fault = false)
include hlive

theorem exec_unlock_of_no_pot (hpot : s.cfg.isPot ch.toNat = false) :
    exec (.unlock ch) s = .next { s with resp := some ⟨.badArg, 0⟩ } := by
  rw [exec_unlock, execUnlock, unlessFaulted_of_live _ hlive, potExists, hpot, require_false, refuse_eq]

theorem exec_unlock_of_pot (hpot : s.cfg.isPot ch.toNat = true) :
    exec (.unlock ch) s = .next
      { s with block := s.block.setChan ch.toNat (s.block.chan ch.toNat).unlock, resp := some ⟨.ok, 0⟩ } := by
  rw [exec_unlock, execUnlock, unlessFaulted_of_live _ hlive, potExists, hpot, require_true, complete_eq]

end

/-- Settles O25: a channel that is not LOCKED is put back as it was. -/
theorem unlockWaitsToSnap : Obligations.UnlockWaitsToSnap := by
  refine ⟨fun w hop => acceptWord_eq_ite (by rw [decode, hop]; rfl) (beq_zero_and_iff _ _),
    fun s ch hlive => ⟨exec_unlock_of_no_pot hlive, fun hpot hl => ?unchanged, fun hpot hl => ?unlocked⟩⟩
  case unchanged =>
    rw [exec_unlock_of_pot hlive hpot, unlock_of_not_locked hl, Block.setChan, set_chan_self]
  case unlocked =>
    rw [exec_unlock_of_pot hlive hpot, unlock_of_locked hl]
    rfl

/-! ### LOCKM (rule R125) -/

/-- What LOCKM makes of channel `ch` (rule R125). -/
def lockmChannel (mask : Half) (ch : Nat) (c : Channel) : Channel := if mask.getLsbD ch then c.lock c.lkt else c

section
variable {mask : Half} {ch : Nat} {c : Channel}

theorem lockmChannel_of_masked (h : mask.getLsbD ch = true) : lockmChannel mask ch c = c.lock c.lkt := if_pos h

theorem lockmChannel_of_not_masked (h : mask.getLsbD ch = false) : lockmChannel mask ch c = c :=
  if_neg (Bool.not_eq_true _ ▸ h)

end

/-- The meaning of LOCKM (rule R125). -/
theorem exec_lockm (mask : Half) (s : State) : exec (.lockm mask) s = execLockm mask s := rfl

section
variable {s : State} {mask : Half} (hlive : s.block.fault = false)
include hlive

theorem exec_lockm_of_illegal (hmask : maskLegal s.cfg mask = false) :
    exec (.lockm mask) s = .next { s with resp := some ⟨.badArg, 0⟩ } := by
  rw [exec_lockm, execLockm, unlessFaulted_of_live _ hlive, hmask, require_false, refuse_eq]

theorem exec_lockm_of_legal (hmask : maskLegal s.cfg mask = true) :
    exec (.lockm mask) s = .next
      { s with block := s.block.mapChans (lockmChannel mask), resp := some ⟨.ok, 0⟩ } := by
  rw [exec_lockm, execLockm, unlessFaulted_of_live _ hlive, hmask, require_true, complete_eq]
  rfl

end

/-- Settles O26: one mask bit off the pot channels refuses the whole command; otherwise each element of the new list is the
channel of its number, locked where its bit is 1. -/
theorem lockmLocksMaskedChannels : Obligations.LockmLocksMaskedChannels := by
  refine ⟨fun w hop => acceptWord_eq_ite (by rw [decode, hop]; rfl) (beq_zero_and_and_iff _ _ _),
    fun s mask hinv hlive => ?_⟩
  obtain ⟨hcfg, ⟨hlen, hchans⟩, -⟩ := hinv
  refine ⟨?refused, fun hpots => ?locked⟩
  case refused =>
    rintro ⟨ch, hbit, hplain⟩
    refine exec_lockm_of_illegal hlive (Bool.eq_false_iff.mpr fun hlegal => ?_)
    exact hplain ((maskLegal_iff mask hcfg).mp hlegal ch hbit)
  case locked =>
    refine ⟨_, exec_lockm_of_legal hlive ((maskLegal_iff mask hcfg).mpr hpots), ?_, fun ch hch =>
      ⟨fun hbit => ?_, fun hbit => ⟨_, lock_captures (s.block.chan ch).lkt (hchans ch hch), ?_⟩⟩⟩
    · rw [List.length_mapIdx, hlen]
    · rw [getElem?_mapIdx_chan (hlen ▸ hch), lockmChannel_of_not_masked hbit]
    · rw [getElem?_mapIdx_chan (hlen ▸ hch), lockmChannel_of_masked hbit, lock_eq]

/-! ### UNLOCKM (rule R126) -/

/-- What UNLOCKM makes of channel `ch` (rule R126). -/
def unlockmChannel (cfg : Config) (ch : Nat) (c : Channel) : Channel := if cfg.isPot ch then c.unlock else c

/-- UNLOCKM writes the pot channels that are LOCKED and no others (rule R126). -/
theorem unlockmChannel_eq {cfg : Config} {ch : Nat} (c : Channel) (hch : ch < cfg.nch) :
    unlockmChannel cfg ch c = if cfg.pots.getLsbD ch = true ∧ c.isLocked = true then
      { c with snapv := c.lockedv, isLocked := false, isSnapped := false } else c := by
  simp only [unlockmChannel, Channel.unlock, isPot_iff, hch, true_and, ite_and]

/-- The meaning of UNLOCKM (rule R126). -/
theorem exec_unlockm (s : State) : exec .unlockm s = execUnlockm s := rfl

theorem exec_unlockm_of_live {s : State} (hlive : s.block.fault = false) :
    exec .unlockm s = .next
      { s with block := s.block.mapChans (unlockmChannel s.cfg), resp := some ⟨.ok, 0⟩ } := by
  rw [exec_unlockm, execUnlockm, unlessFaulted_of_live _ hlive, complete_eq]
  rfl

/-- Settles O27: each element of the new list is what UNLOCKM makes of the channel of its number. -/
theorem unlockmUnlocksEveryPot : Obligations.UnlockmUnlocksEveryPot := by
  refine ⟨fun w hop => acceptWord_eq_ite (by rw [decode, hop]; rfl) (fields_beq_zero_iff w),
    fun s hlive hlen => ⟨_, exec_unlockm_of_live hlive, ?_, fun ch hch => ?_⟩⟩
  · rw [List.length_mapIdx, hlen]
  · rw [getElem?_mapIdx_chan (hlen ▸ hch), unlockmChannel_eq _ hch]

end Sys2Proof.Machine
end

