-- ==== Sys2Proof/Proofs/PitchLaw.lean ====
section
/-!
PROOFS. The pitch laws and the calibration (rules R141 to R158): the pitch before the clamp law by law, the ranges in which
the effective value, the evaluator and the quantiser fit their registers, and what EVAL, EVALI, QNT, CAL0, CAL1 and CAL3
answer in each of their cases.
-/

namespace Sys2Proof.Machine

/-! ### The pitch before the clamp, law by law (rules R142 to R148) -/

/-- The CV term of a pitch code (rule R142). -/
theorem cvNote_eq (scale offset cv : Int) : cvNote scale offset cv = Int.tdiv (cv * scale) 4096 + offset := rfl

/-- The coarse control spans 48 semitones of 128 units (rules R10, R143). -/
theorem coarseOff_eq (co : Int) : coarseOff co = Int.tdiv ((co - 32768) * 6144) 65536 := rfl

section
variable (cfg : Config) (scale offset cv co : Int)

theorem rawPitch_external :
    rawPitch cfg .external scale offset cv co = cvNote scale offset cv + coarseOff co := rfl

theorem rawPitch_lfo : rawPitch cfg .lfo scale offset cv co = cvNote scale offset cv + coarseOff co := rfl

theorem rawPitch_free :
    rawPitch cfg .free scale offset cv co = 7680 + coarseOff co + Int.tdiv ((cv - cfg.cvCenter) * scale) 4096 := rfl

theorem rawPitch_fixed440 : rawPitch cfg .fixed440 scale offset cv co = 8832 := rfl

/-- The shift of EXTENDED is a division of natural numbers where both inputs are natural numbers (rule R148). -/
theorem rawPitch_extended (m n : Nat) :
    rawPitch cfg .extended scale offset m n = ((n + m) / 8 : Nat) := by
  have hshift : rawPitch cfg .extended scale offset m n = (n + m : Int) >>> (3 : Nat) := rfl
  rw [hshift, Int.shiftRight_eq_div_pow]
  omega

end

/-- Settles O31: law by law; two 16-bit inputs sum to less than `2^17`, which is the range of EXTENDED. -/
theorem pitchLawFormulas : Obligations.PitchLawFormulas := by
  intro b cfg cv co
  refine ⟨clamp_eq _ _, fun hlaw => ?external, fun hlaw => ?lfo, fun hlaw => ?free, fun hlaw => ?fixed440,
    fun hlaw => ?extended⟩
  case external => rw [hlaw, rawPitch_external, cvNote_eq, coarseOff_eq]
  case lfo => rw [hlaw, rawPitch_lfo, cvNote_eq, coarseOff_eq]
  case free => rw [hlaw, rawPitch_free, coarseOff_eq]
  case fixed440 => rw [hlaw, rawPitch_fixed440]
  case extended =>
    rw [hlaw, rawPitch_extended]
    have hcv := cv.isLt
    have hco := co.isLt
    exact ⟨rfl, by omega, by omega⟩

/-- Settles O33: the reference `PITCH_MAX` is above 8832, so the clamp leaves it. -/
theorem fixedLawIgnoresItsInputs : Obligations.FixedLawIgnoresItsInputs := by
  refine ⟨rawPitch_fixed440, fun b cv co hlaw => ?_⟩
  rw [Block.evaluate, hlaw, rawPitch_fixed440]
  decide

/-! ### What fits a 16-bit register -/

/-- The effective value of a channel that exists is a 16-bit value (rules R48, R121). -/
theorem block_value_range {s : State} {ch : Nat} (hinv : s.Inv) (hch : ch < s.cfg.nch) :
    0 ≤ s.block.value ch ∧ s.block.value ch ≤ 65535 := by
  obtain ⟨-, ⟨-, hchans⟩, -⟩ := hinv
  exact value_range (hchans ch hch)

theorem chCv_lt_nch {cfg : Config} (h : cfg.Legal) : cfg.chCv < cfg.nch := by
  obtain ⟨-, -, -, hcv, -⟩ := h
  exact hcv

theorem pitchMax_le {cfg : Config} (h : cfg.Legal) : cfg.pitchMax ≤ 65535 := by
  obtain ⟨-, -, -, -, -, -, -, -, -, -, -, hmax, -⟩ := h
  exact hmax

/-- The evaluated pitch fits `PITCH` (rules R13, R149). -/
theorem u16_evaluate_toNat (b : Block) {cfg : Config} (h : cfg.Legal) (cv co : Int) :
    ((u16 (b.evaluate cfg cv co)).toNat : Int) = b.evaluate cfg cv co := by
  obtain ⟨hlow, hhigh⟩ := evaluate_range b cfg cv co
  have hmax := pitchMax_le h
  exact u16_toNat hlow (by omega)

/-- The quantised pitch fits `PITCH` (rules R13, R154). -/
theorem u16_roundToGrid_toNat {cfg : Config} (h : cfg.Legal) (p : Half) {g : Nat} (hg : g = 64 ∨ g = 128) :
    (u16 (roundToGrid cfg p.toNat g)).toNat = min ((p.toNat + g / 2) / g * g) cfg.pitchMax := by
  have hp := p.isLt
  have hmax := pitchMax_le h
  rw [roundToGrid_eq cfg p.toNat g (by omega) hg]
  exact Int.ofNat_inj.mp (u16_toNat (by omega) (by omega))

/-! ### EVAL and EVALI (rules R150, R151) -/

/-- The meaning of EVAL (rule R150). -/
theorem exec_eval (s : State) : exec .eval s = execEval s := rfl

/-- The meaning of EVALI (rule R151). -/
theorem exec_evali (cv co : Half) (s : State) : exec (.evali cv co) s = execEvali cv co s := rfl

/-- A stored and answered pitch (rules R150, R151, R153). -/
theorem answerPitch_eq (s : State) (p : Half) :
    s.answerPitch p = .next { s with block := { s.block with pitch := p }, resp := some ⟨.ok, p.zeroExtend 32⟩ } := rfl

section
variable {s : State} (hlive : s.block.fault = false)
include hlive

theorem exec_eval_of_live :
    exec .eval s =
      s.answerPitch (u16 (s.block.evaluate s.cfg (s.block.value s.cfg.chCv) (s.block.value s.cfg.chCoarse))) := by
  rw [exec_eval, execEval, unlessFaulted_of_live _ hlive]

theorem exec_evali_of_live (cv co : Half) :
    exec (.evali cv co) s = s.answerPitch (u16 (s.block.evaluate s.cfg cv.toNat co.toNat)) := by
  rw [exec_evali, execEvali, unlessFaulted_of_live _ hlive]

end

/-- Settles O32: both commands store and answer the evaluator's result, which fits `PITCH`. -/
theorem evalStoresAndAnswersThePitch : Obligations.EvalStoresAndAnswersThePitch := by
  refine ⟨fun w hop => acceptWord_eq_ite (by rw [decode, hop]; rfl) (fields_beq_zero_iff w),
    fun w hop => acceptWord_eq_ite (by rw [decode, hop]; rfl) (beq_zero_and_iff _ _),
    fun s hinv hlive => ⟨fun cv co => ⟨_, u16_evaluate_toNat s.block hinv.1 _ _, ?evali⟩,
      ⟨_, u16_evaluate_toNat s.block hinv.1 _ _, ?eval⟩⟩⟩
  case evali => rw [exec_evali_of_live hlive, answerPitch_eq]
  case eval => rw [exec_eval_of_live hlive, answerPitch_eq]

/-! ### QNT (rule R153) -/

/-- The check of a grid code (rule R153). -/
theorem gridLegal_iff {grid : Sel} : gridLegal grid = true ↔ grid.toNat ≤ 2 := decide_eq_true_iff

theorem gridLegal_eq_false {grid : Sel} (h : 2 < grid.toNat) : gridLegal grid = false :=
  decide_eq_false (Nat.not_le.mpr h)

/-- The meaning of QNT (rule R153). -/
theorem exec_qnt (grid : Sel) (s : State) : exec (.qnt grid) s = execQnt grid s := rfl

section
variable {s : State} {grid : Sel} (hlive : s.block.fault = false)
include hlive

theorem exec_qnt_of_illegal (hgrid : 2 < grid.toNat) :
    exec (.qnt grid) s = .next { s with resp := some ⟨.badArg, 0⟩ } := by
  rw [exec_qnt, execQnt, unlessFaulted_of_live _ hlive, gridLegal_eq_false hgrid, require_false, refuse_eq]

theorem exec_qnt_of_off (hgrid : grid = 0) : exec (.qnt grid) s = s.answerPitch s.block.pitch := by
  subst hgrid
  rw [exec_qnt, execQnt, unlessFaulted_of_live _ hlive, gridLegal_iff.mpr (by decide), require_true]
  rfl

theorem exec_qnt_of_grid {g : Nat} (hgrid : (grid = 1 ∧ g = 64) ∨ (grid = 2 ∧ g = 128)) :
    exec (.qnt grid) s = s.answerPitch (u16 (roundToGrid s.cfg s.block.pitch.toNat g)) := by
  rw [exec_qnt, execQnt, unlessFaulted_of_live _ hlive]
  rcases hgrid with ⟨rfl, rfl⟩ | ⟨rfl, rfl⟩ <;> rfl

end

/-- Settles O34: by the grid code; with the grid off the pitch is put back as it was. -/
theorem qntRoundsToTheGrid : Obligations.QntRoundsToTheGrid := by
  refine ⟨fun w hop => acceptWord_eq_ite (by rw [decode, hop]; rfl) (beq_zero_and_iff _ _),
    fun s grid hinv hlive => ⟨exec_qnt_of_illegal hlive, fun hgrid => ?off, fun g hgrid => ?grid⟩⟩
  case off => rw [exec_qnt_of_off hlive hgrid, answerPitch_eq]
  case grid =>
    have hg : g = 64 ∨ g = 128 := hgrid.imp And.right And.right
    refine ⟨_, u16_roundToGrid_toNat hinv.1 s.block.pitch hg, ?_⟩
    rw [exec_qnt_of_grid hlive hgrid, answerPitch_eq]

/-! ### CAL0 (rule R156) -/

/-- What CAL0 makes of channel `ch` (rule R156). -/
def cal0Channel (cfg : Config) (ch : Nat) (c : Channel) : Channel :=
  if cfg.isPot ch then { c with offs := u16 c.value } else c

section
variable {cfg : Config} {ch : Nat} (c : Channel)

theorem cal0Channel_of_pot (hch : ch < cfg.nch) (hpot : cfg.pots.getLsbD ch = true) :
    cal0Channel cfg ch c = { c with offs := u16 c.value } := if_pos (isPot_iff.mpr ⟨hch, hpot⟩)

theorem cal0Channel_of_plain (hplain : cfg.pots.getLsbD ch = false) : cal0Channel cfg ch c = c :=
  if_neg (by simp [isPot_iff, hplain])

end

/-- The meaning of CAL0 (rule R156). -/
theorem exec_cal0 (s : State) : exec .cal0 s = execCal0 s := rfl

theorem exec_cal0_of_live {s : State} (hlive : s.block.fault = false) :
    exec .cal0 s = .next { s with block := s.block.mapChans (cal0Channel s.cfg), resp := some ⟨.ok, 0⟩ } := by
  rw [exec_cal0, execCal0, unlessFaulted_of_live _ hlive, complete_eq]
  rfl

/-- Settles O36: each element of the new list is what CAL0 makes of the channel of its number; by the invariant the captured
value fits `OFFS`. -/
theorem cal0CapturesOffsets : Obligations.Cal0CapturesOffsets := by
  refine ⟨fun w hop => acceptWord_eq_ite (by rw [decode, hop]; rfl) (fields_beq_zero_iff w), fun s hinv hlive => ?_⟩
  obtain ⟨-, ⟨hlen, hchans⟩, -⟩ := hinv
  refine ⟨_, exec_cal0_of_live hlive, ?length, fun ch hch => ⟨fun hplain => ?plain, fun hpot => ?pot⟩⟩
  case length => rw [List.length_mapIdx, hlen]
  case plain => rw [getElem?_mapIdx_chan (hlen ▸ hch), cal0Channel_of_plain _ hplain]
  case pot =>
    obtain ⟨hlow, hhigh⟩ := value_range (hchans ch hch)
    refine ⟨_, u16_toNat hlow hhigh, ?_⟩
    rw [getElem?_mapIdx_chan (hlen ▸ hch), cal0Channel_of_pot _ hch hpot]

/-! ### CAL1 (rule R157) -/

/-- The meaning of CAL1 (rule R157). -/
theorem exec_cal1 (s : State) : exec .cal1 s = execCal1 s := rfl

theorem exec_cal1_of_live {s : State} (hlive : s.block.fault = false) :
    exec .cal1 s = .next
      { s with
        block := { s.block with calR1 := u16 (s.block.value s.cfg.chCv) }
        resp := some ⟨.ok, (u16 (s.block.value s.cfg.chCv)).zeroExtend 32⟩ } := by
  rw [exec_cal1, execCal1, unlessFaulted_of_live _ hlive, complete_eq]

/-- Settles O37: by the invariant the reading fits `CAL_R1`. -/
theorem cal1RecordsTheReading : Obligations.Cal1RecordsTheReading := by
  refine ⟨fun w hop => acceptWord_eq_ite (by rw [decode, hop]; rfl) (fields_beq_zero_iff w), fun s hinv hlive => ?_⟩
  obtain ⟨hlow, hhigh⟩ := block_value_range hinv (chCv_lt_nch hinv.1)
  exact ⟨_, u16_toNat hlow hhigh, exec_cal1_of_live hlive⟩

/-! ### CAL3 (rule R158) -/

/-- Two octaves between the readings, in 1/4096 (rules R10, R158). -/
theorem calScaleOf_eq (r1 r2 : Int) : calScaleOf r1 r2 = Int.tdiv 12582912 (r2 - r1) := rfl

/-- The low reading is anchored at note C2 (rules R10, R158). -/
theorem calOffsetOf_eq (r1 scale : Int) : calOffsetOf r1 scale = 4608 - Int.tdiv (r1 * scale) 4096 := rfl

/-- The meaning of CAL3 (rule R158). -/
theorem exec_cal3 (s : State) : exec .cal3 s = execCal3 s := rfl

section
variable {s : State} (hlive : s.block.fault = false)
include hlive

theorem exec_cal3_of_live :
    exec .cal3 s = s.require (decide (s.block.value s.cfg.chCv ≠ s.block.calR1.toNat)) .calFail
      (s.complete
        { s.block with
          calScale := u32 (calScaleOf s.block.calR1.toNat (s.block.value s.cfg.chCv))
          calOffset := u32 (calOffsetOf s.block.calR1.toNat
            (calScaleOf s.block.calR1.toNat (s.block.value s.cfg.chCv))) }
        (u32 (calScaleOf s.block.calR1.toNat (s.block.value s.cfg.chCv)))) := by
  rw [exec_cal3, execCal3, unlessFaulted_of_live _ hlive]

theorem exec_cal3_of_equal_readings (heq : s.block.value s.cfg.chCv = s.block.calR1.toNat) :
    exec .cal3 s = .next { s with resp := some ⟨.calFail, 0⟩ } := by
  rw [exec_cal3_of_live hlive, decide_eq_false (not_not.mpr heq), require_false, refuse_eq]

/-- The two different readings, under names of their own. -/
theorem exec_cal3_of_readings {r1 r2 : Int} (hr1 : (s.block.calR1.toNat : Int) = r1)
    (hr2 : s.block.value s.cfg.chCv = r2) (hne : r2 ≠ r1) :
    exec .cal3 s = .next
      { s with
        block := { s.block with
          calScale := u32 (calScaleOf r1 r2), calOffset := u32 (calOffsetOf r1 (calScaleOf r1 r2)) }
        resp := some ⟨.ok, u32 (calScaleOf r1 r2)⟩ } := by
  subst hr1 hr2
  rw [exec_cal3_of_live hlive, decide_eq_true hne, require_true, complete_eq]

end

/-- The calibration of two different 16-bit readings fits its registers (rules R13, R158). -/
theorem u32_calibration_toInt {r1 r2 : Int} (h1 : 0 ≤ r1) (h1' : r1 ≤ 65535) (h2 : 0 ≤ r2) (h2' : r2 ≤ 65535)
    (hne : r2 ≠ r1) :
    (u32 (calScaleOf r1 r2)).toInt = calScaleOf r1 r2 ∧
    (u32 (calOffsetOf r1 (calScaleOf r1 r2))).toInt = calOffsetOf r1 (calScaleOf r1 r2) := by
  obtain ⟨hs, hs', -, ho, ho'⟩ := calibration_ranges h1 h1' h2 h2' hne
  exact ⟨u32_toInt (by omega) (by omega), u32_toInt (by omega) (by omega)⟩

/-- Settles O38: two different 16-bit readings make both results fit their registers (`calibration_ranges`); the anchoring
is the offset's own formula. -/
theorem cal3ComputesTheCalibration : Obligations.Cal3ComputesTheCalibration := by
  refine ⟨fun w hop => acceptWord_eq_ite (by rw [decode, hop]; rfl) (fields_beq_zero_iff w), fun s hinv hlive => ?_⟩
  intro r1 r2
  refine ⟨exec_cal3_of_equal_readings hlive, fun hne => ?_⟩
  have h1 : 0 ≤ r1 := Int.natCast_nonneg _
  have h1' : r1 ≤ 65535 := Int.lt_add_one_iff.mp (Int.ofNat_lt.mpr s.block.calR1.isLt)
  obtain ⟨h2, h2'⟩ := block_value_range hinv (chCv_lt_nch hinv.1)
  obtain ⟨hs, hs', hs0, ho, ho'⟩ := calibration_ranges h1 h1' h2 h2' hne
  obtain ⟨hscale, hoffset⟩ := u32_calibration_toInt h1 h1' h2 h2' hne
  refine ⟨u32 (calScaleOf r1 r2), u32 (calOffsetOf r1 (calScaleOf r1 r2)), ?_⟩
  rw [hscale, hoffset]
  refine ⟨calScaleOf_eq r1 r2, calOffsetOf_eq r1 _, ?anchor, hs, hs', hs0, abs_lt.mpr ⟨ho, ho'⟩,
    exec_cal3_of_readings hlive rfl rfl hne⟩
  case anchor => rw [calOffsetOf_eq, add_sub_cancel]

end Sys2Proof.Machine
end

