-- ==== Sys2Proof/Proofs/Scheduler.lean ====
section
/-!
PROOFS. The scheduler (rules R170 to R186): what RBEGIN, SWR, RSYNC, ADV, TRGTAKE and TRGSET answer in each of their
cases, and the tick written out: which pieces it can write, and the value of each.
-/

namespace Sys2Proof.Machine

/-! ### Responses and checks, read forward -/

section
variable (s : State) (b : Block)

/-- Taking the fault, read forward (rule R226). -/
theorem raiseFault_eq (cause : FaultCause) :
    s.raiseFault cause = .next
      { s with block := { s.block with fault := true, fcause := cause }, resp := some ⟨.faulted, 0⟩ } := rfl

/-- An event, read forward. -/
theorem advance_eq : s.advance b = .next { s with block := b, resp := none } := rfl

end

/-- The check of a sample index (rules R51, R73). -/
theorem indexExists_iff {cfg : Config} {idx : Half} : indexExists cfg idx = true ↔ idx.toNat < cfg.bs :=
  decide_eq_true_iff

theorem indexExists_eq_false {cfg : Config} {idx : Half} (h : cfg.bs ≤ idx.toNat) : indexExists cfg idx = false :=
  decide_eq_false (Nat.not_lt.mpr h)

/-- A flag as a sync bit (rule R172) and, widened, as a response value (rule R184). -/
theorem ofBool_eq_ite (e : Bool) : BitVec.ofBool e = if e then 1 else 0 := by cases e <;> rfl

theorem zeroExtend_ofBool (e : Bool) : (BitVec.ofBool e).zeroExtend 32 = if e then (1 : Value) else 0 := by
  cases e <;> rfl

/-! ### RBEGIN (rule R176) -/

/-- The meaning of RBEGIN (rule R176). -/
theorem exec_rbegin (s : State) : exec .rbegin s = execRbegin s := rfl

section
variable {s : State} (hlive : s.block.fault = false)
include hlive

theorem exec_rbegin_in_pass (hpass : s.block.rendering = true) :
    exec .rbegin s = .next { s with resp := some ⟨.badSeq, 0⟩ } := by
  rw [exec_rbegin, execRbegin, unlessFaulted_of_live _ hlive, hpass, Bool.not_true, require_false, refuse_eq]

theorem exec_rbegin_of_no_slot (hpass : s.block.rendering = false) (hslot : s.block.rb = s.block.pb) :
    exec .rbegin s = .next { s with resp := some ⟨.notReady, 0⟩ } := by
  rw [exec_rbegin, execRbegin, unlessFaulted_of_live _ hlive, hpass, Bool.not_false, require_true,
    bne_eq_false_iff_eq.mpr hslot, require_false, refuse_eq]

theorem exec_rbegin_of_slot (hpass : s.block.rendering = false) (hslot : s.block.rb ≠ s.block.pb) :
    exec .rbegin s = .next
      { s with block := { s.block with rendering := true }, resp := some ⟨.ok, s.block.rb.zeroExtend 32⟩ } := by
  rw [exec_rbegin, execRbegin, unlessFaulted_of_live _ hlive, hpass, Bool.not_false, require_true,
    bne_iff_ne.mpr hslot, require_true, complete_eq]

end

/-- Settles O40: by the checks of RBEGIN in their order. -/
theorem rbeginOpensAPass : Obligations.RbeginOpensAPass :=
  ⟨fun w hop => acceptWord_eq_ite (by rw [decode, hop]; rfl) (fields_beq_zero_iff w),
    fun _ hlive => ⟨exec_rbegin_in_pass hlive, exec_rbegin_of_no_slot hlive, exec_rbegin_of_slot hlive⟩⟩

/-! ### SWR (rules R178, R226) -/

/-- The meaning of SWR (rule R178). -/
theorem exec_swr (idx sample : Half) (s : State) : exec (.swr idx sample) s = execSwr idx sample s := rfl

section
variable {s : State} {idx : Half} (sample : Half) (hlive : s.block.fault = false)
include hlive

theorem exec_swr_of_no_index (hidx : s.cfg.bs ≤ idx.toNat) :
    exec (.swr idx sample) s = .next { s with resp := some ⟨.badArg, 0⟩ } := by
  rw [exec_swr, execSwr, unlessFaulted_of_live _ hlive, indexExists_eq_false hidx, require_false, refuse_eq]

theorem exec_swr_in_pass (hrb : s.block.rb.toNat < s.cfg.nb) (hidx : idx.toNat < s.cfg.bs)
    (hpass : s.block.rendering = true) :
    exec (.swr idx sample) s = .next
      { s with
        block := s.block.setAudio (s.block.rb.toNat * s.cfg.bs + idx.toNat) sample
        resp := some ⟨.ok, 0⟩ } := by
  rw [exec_swr, execSwr, unlessFaulted_of_live _ hlive, indexExists_iff.mpr hidx, require_true, if_pos hpass,
    atRing_eq _ hrb hidx, complete_eq]

/-- Outside a pass SWR writes no element: it takes the fault in the consumer's slot, and is out of sequence elsewhere. -/
theorem exec_swr_outside_pass (hidx : idx.toNat < s.cfg.bs) (hpass : s.block.rendering = false) :
    exec (.swr idx sample) s =
      if s.block.rb = s.block.pb then s.raiseFault .ringCollision else s.refuse .badSeq := by
  rw [exec_swr, execSwr, unlessFaulted_of_live _ hlive, indexExists_iff.mpr hidx, require_true,
    if_neg (Bool.eq_false_iff.mp hpass)]

end

/-- Settles O41: in a pass the invariant gives an address that exists and a plane in canonical form, on which the write is
read back (`planeRead_planeWrite`); outside a pass by whether the render slot is the consumer's. -/
theorem swrWritesOrCollides : Obligations.SwrWritesOrCollides := by
  refine ⟨fun w hop => acceptWord_eq_ite (by rw [decode, hop]; rfl) (beq_zero_and_iff _ _),
    fun s idx sample hinv hlive => ⟨exec_swr_of_no_index sample hlive, fun hidx hpass => ?written,
      fun hidx hpass hslot => ?collides, fun hidx hpass hslot => ?outOfSequence⟩⟩
  case written =>
    obtain ⟨-, -, ⟨hrb, -, -⟩, -, -, -, ⟨haudio, -⟩, -, -⟩ := hinv
    refine ⟨_, exec_swr_in_pass sample hlive hrb hidx hpass, ?_, fun key hkey => ?_⟩
    · rw [planeRead_planeWrite _ _ _ _ haudio, if_pos rfl]
    · rw [planeRead_planeWrite _ _ _ _ haudio, if_neg hkey.symm]
  case collides => rw [exec_swr_outside_pass sample hlive hidx hpass, if_pos hslot, raiseFault_eq]
  case outOfSequence => rw [exec_swr_outside_pass sample hlive hidx hpass, if_neg hslot, refuse_eq]

/-! ### RSYNC (rule R180) -/

/-- The meaning of RSYNC (rule R180). -/
theorem exec_rsync (idx : Half) (s : State) : exec (.rsync idx) s = execRsync idx s := rfl

section
variable {s : State} {idx : Half} (hlive : s.block.fault = false)
include hlive

theorem exec_rsync_of_no_index (hidx : s.cfg.bs ≤ idx.toNat) :
    exec (.rsync idx) s = .next { s with resp := some ⟨.badArg, 0⟩ } := by
  rw [exec_rsync, execRsync, unlessFaulted_of_live _ hlive, indexExists_eq_false hidx, require_false, refuse_eq]

theorem exec_rsync_outside_pass (hidx : idx.toNat < s.cfg.bs) (hpass : s.block.rendering = false) :
    exec (.rsync idx) s = .next { s with resp := some ⟨.badSeq, 0⟩ } := by
  rw [exec_rsync, execRsync, unlessFaulted_of_live _ hlive, indexExists_iff.mpr hidx, require_true, hpass,
    require_false, refuse_eq]

theorem exec_rsync_in_pass (hrb : s.block.rb.toNat < s.cfg.nb) (hidx : idx.toNat < s.cfg.bs)
    (hpass : s.block.rendering = true) :
    exec (.rsync idx) s = .next
      { s with
        resp := some ⟨.ok, (s.block.syncAt (s.block.rb.toNat * s.cfg.bs + idx.toNat)).zeroExtend 32⟩ } := by
  rw [exec_rsync, execRsync, unlessFaulted_of_live _ hlive, indexExists_iff.mpr hidx, require_true, hpass,
    require_true, atRing_eq _ hrb hidx, respond_eq]

end

/-- Settles O42: by the checks of RSYNC in their order. -/
theorem rsyncReadsTheSyncBit : Obligations.RsyncReadsTheSyncBit :=
  ⟨fun w hop => acceptWord_eq_ite (by rw [decode, hop]; rfl) (beq_zero_and_iff _ _),
    fun _ _ hlive hrb => ⟨exec_rsync_of_no_index hlive, exec_rsync_outside_pass hlive, exec_rsync_in_pass hlive hrb⟩⟩

/-! ### ADV (rule R182) -/

/-- The meaning of ADV (rule R182). -/
theorem exec_adv (s : State) : exec .adv s = execAdv s := rfl

section
variable {s : State} (hlive : s.block.fault = false)
include hlive

theorem exec_adv_outside_pass (hpass : s.block.rendering = false) :
    exec .adv s = .next { s with resp := some ⟨.badSeq, 0⟩ } := by
  rw [exec_adv, execAdv, unlessFaulted_of_live _ hlive, hpass, require_false, refuse_eq]

/-- ADV does not look at the consumer's slot. -/
theorem exec_adv_in_pass (hpass : s.block.rendering = true) :
    exec .adv s = .next
      { s with
        block := { s.block with rb := nextSlot s.cfg s.block.rb, rendering := false }
        resp := some ⟨.ok, (nextSlot s.cfg s.block.rb).zeroExtend 32⟩ } := by
  rw [exec_adv, execAdv, unlessFaulted_of_live _ hlive, hpass, require_true, complete_eq]

end

/-- Settles O43: in a legal configuration the slot after a slot fits `rb` (`nextSlot_toNat`). -/
theorem advHandsTheSlotOver : Obligations.AdvHandsTheSlotOver :=
  ⟨fun w hop => acceptWord_eq_ite (by rw [decode, hop]; rfl) (fields_beq_zero_iff w),
    fun s hcfg hlive => ⟨exec_adv_outside_pass hlive,
      fun hpass => ⟨_, nextSlot_toNat hcfg s.block.rb, exec_adv_in_pass hlive hpass⟩⟩⟩

/-! ### TRGTAKE and TRGSET (rules R184, R186) -/

/-- The meaning of TRGTAKE (rule R184). -/
theorem exec_trgtake (s : State) : exec .trgtake s = execTrgtake s := rfl

/-- The meaning of TRGSET (rule R186). -/
theorem exec_trgset (s : State) : exec .trgset s = execTrgset s := rfl

section
variable {s : State} (hlive : s.block.fault = false)
include hlive

theorem exec_trgtake_of_live :
    exec .trgtake s = .next
      { s with
        block := { s.block with trigPending := false }
        resp := some ⟨.ok, if s.block.trigPending then 1 else 0⟩ } := by
  rw [exec_trgtake, execTrgtake, unlessFaulted_of_live _ hlive, complete_eq, zeroExtend_ofBool]

theorem exec_trgset_of_live :
    exec .trgset s = .next { s with block := { s.block with trigPending := true }, resp := some ⟨.ok, 0⟩ } := by
  rw [exec_trgset, execTrgset, unlessFaulted_of_live _ hlive, complete_eq]

end

/-- Settles O44: neither command has a check but that of FAULT. -/
theorem triggerFlagCommands : Obligations.TriggerFlagCommands :=
  ⟨fun w hop => acceptWord_eq_ite (by rw [decode, hop]; rfl) (fields_beq_zero_iff w),
    fun w hop => acceptWord_eq_ite (by rw [decode, hop]; rfl) (fields_beq_zero_iff w),
    fun _ hlive => ⟨exec_trgtake_of_live hlive, exec_trgset_of_live hlive⟩⟩

/-! ### TICK (rules R170 to R174) -/

/-- The sample sent to the sink, as a number (rule R171): the remainder fits 16 bits. -/
theorem dacCode_toNat (x : Half) : ((dacCode x).toNat : Int) = (x.toInt + 32768) % 65536 :=
  u16_toNat (by omega) (by omega)

/-- The rising-edge bit, its condition as a proposition (rule R172). -/
theorem risingEdge_eq (g gatePrev : Bool) : risingEdge g gatePrev = decide (g = true ∧ gatePrev = false) := by
  rw [risingEdge, Bool.decide_and, Bool.decide_eq_true, Bool.decide_eq_false]

/-- The pieces that the advance of the consumer can write (rules R173, R174). -/
theorem advanceConsumer_eq (b : Block) (cfg : Config) :
    b.advanceConsumer cfg = { b with
      pb := (b.advanceConsumer cfg).pb, cs := (b.advanceConsumer cfg).cs, xrun := (b.advanceConsumer cfg).xrun } := by
  unfold Block.advanceConsumer
  split <;> rfl

/-- The pieces that a tick can write, and the values of those that do not depend on the wrap; those of `pb`, `cs` and
`xrun` are in `tickAt_registers`. -/
theorem tickAt_eq (b : Block) (cfg : Config) (key : Nat) (g : Bool) :
    b.tickAt cfg key g = { b with
      dacout := dacCode (b.audioAt key)
      gatePrev := g
      trigPending := risingEdge g b.gatePrev || b.trigPending
      pb := (b.tickAt cfg key g).pb
      cs := (b.tickAt cfg key g).cs
      xrun := (b.tickAt cfg key g).xrun
      mem := { b.mem with sync := planeWrite b.mem.sync key (BitVec.ofBool (risingEdge g b.gatePrev)) } } :=
  advanceConsumer_eq _ cfg

/-- A position that has a successor in its block has one in 8 bits (rules R10, R36). -/
theorem cs_succ_toNat {cfg : Config} (h : cfg.Legal) {cs : BitVec 8} (hcs : cs.toNat + 1 < cfg.bs) :
    (cs + 1).toNat = cs.toNat + 1 := by
  obtain ⟨-, -, -, -, -, -, -, -, -, hbs, -⟩ := h
  exact BitVec.toNat_add_of_lt (by change cs.toNat + 1 < 256; omega)

section
variable {s : State} (g : Bool)

theorem tickStep_of_fault (hfault : s.block.fault = true) : tickStep g s = .next { s with resp := none } := by
  rw [tickStep, if_pos hfault, advance_eq]

theorem tickStep_of_live (hlive : s.block.fault = false) (hpb : s.block.pb.toNat < s.cfg.nb)
    (hcs : s.block.cs.toNat < s.cfg.bs) :
    tickStep g s = .next
      { s with
        block := s.block.tickAt s.cfg (s.block.pb.toNat * s.cfg.bs + s.block.cs.toNat) g
        resp := none } := by
  rw [tickStep, if_neg (Bool.eq_false_iff.mp hlive), atRing_eq _ hpb hcs, advance_eq]

end

/-- A tick at the head of the inputs is taken by the TICK agent (rule R7). -/
theorem step_tick {s : State} {g : Bool} {rest : List Input} (hin : s.inputs = .tick g :: rest) :
    step s = tickStep g { s with inputs := rest } := by
  rw [step, hin]
  rfl

/-- Settles O45: by the invariant the consumer stands on an element that exists, of a plane in canonical form; the tick's
block is then read piece by piece, `pb`, `cs` and `xrun` by whether the consumer wraps. -/
theorem tickPlaysCapturesAndAdvances : Obligations.TickPlaysCapturesAndAdvances := by
  intro s g rest hinv hin
  rw [step_tick hin]
  refine ⟨fun hfault => tickStep_of_fault g hfault, fun hlive => ?_⟩
  intro key edge
  obtain ⟨hcfg, -, ⟨-, hpb, hcs⟩, -, -, -, ⟨-, hsync⟩, -, -⟩ := hinv
  obtain ⟨-, -, -, -, hnext, hwrap⟩ := tickAt_registers s.block s.cfg key g
  have hedge : risingEdge g s.block.gatePrev = edge := risingEdge_eq g s.block.gatePrev
  have hstep := tickStep_of_live (s := { s with inputs := rest }) g hlive hpb hcs
  rw [tickAt_eq, hedge] at hstep
  refine ⟨_, _, _, _, _, hstep, dacCode_toNat _, ?bit, fun k hk => ?others, fun h => ?next, fun h => ?wrap⟩
  case bit => rw [planeRead_planeWrite _ _ _ _ hsync, if_pos rfl, ofBool_eq_ite]
  case others => rw [planeRead_planeWrite _ _ _ _ hsync, if_neg hk.symm]
  case next =>
    obtain ⟨hcs', hpb', hxrun⟩ := hnext h
    exact ⟨by rw [hcs', cs_succ_toNat hcfg h], hpb', hxrun⟩
  case wrap =>
    obtain ⟨hcs', hpb', hxrun⟩ := hwrap h
    exact ⟨hcs', by rw [hpb', nextSlot_toNat hcfg], by rw [hxrun, hpb', beq_eq_decide]⟩

end Sys2Proof.Machine
end

