-- ==== Sys2Proof/Proofs/System.lean ====
section
/-!
PROOFS. The system commands NOP and WR (rules R200, R202, R204): the words they accept, which writes the register map
admits, as conditions on the register number and the value, and what WR answers in each of its cases.
-/

namespace Sys2Proof.Machine

/-! ### NOP (rule R200) -/

/-- Of the words with opcode `0x00`, the one whose operand fields are all zero is the zero word (rules R70, R200). -/
theorem fields_eq_zero_iff {w : CmdWord} (hop : fieldOp w = 0x00) :
    fieldA w = 0 ∧ fieldB w = 0 ∧ fieldC w = 0 ↔ w = 0 := by
  constructor
  · rintro ⟨ha, hb, hc⟩
    exact word_ext hop ha hb hc
  · rintro rfl
    decide

/-- The meaning of NOP (rule R200). -/
theorem exec_nop (s : State) : exec .nop s = execNop s := rfl

/-- Settles O8: all of NOP's operand fields are reserved, and its meaning is one response, with no check before it. -/
theorem nopAnswersOk : Obligations.NopAnswersOk := by
  refine ⟨fun w hop => acceptWord_eq_ite (by rw [decode, hop]; rfl) ?_, fun s => ?_⟩
  · rw [fields_beq_zero_iff, fields_eq_zero_iff hop]
  · rw [exec_nop, execNop, respond_eq]

/-! ### The writes that the register map admits (rules R203, R204) -/

/-- The codes that are laws (rule R32). -/
theorem lawOfCode_isSome_iff : (n : Nat) → ((lawOfCode n).isSome ↔ n ≤ 4)
  | 0 | 1 | 2 | 3 | 4 => by simp [lawOfCode]
  | n + 5 => by simp [lawOfCode]

/-- A register number from `0x10` up names a channel register, when the channel in its low digit exists (rule R203). -/
theorem regOf_of_ge {cfg : Config} {r : Sel} (h : 16 ≤ r.toNat) :
    regOf cfg r = if r.toNat % 16 < cfg.nch then groupReg (r.toNat / 16) (r.toNat % 16) else none :=
  if_neg (Nat.not_lt.mpr h)

section
variable (b : Block) (v : Value)

/-- The writes to a register without a channel (rule R204). -/
theorem globalReg_write_isSome_iff : (n : Nat) →
    (((globalReg n).bind (writeReg b v)).isSome ↔ (n = 3 ∧ v.toNat ≤ 4) ∨ n = 4 ∨ n = 5)
  | 3 => by simp [globalReg, writeReg, lawOfCode_isSome_iff]
  | 0 | 1 | 2 | 4 | 5 | 6 | 7 | 8 | 9 => by simp [globalReg, writeReg]
  | n + 10 => by simp [globalReg]

/-- The writes to a register of a channel, by its group (rule R204). -/
theorem groupReg_write_isSome_iff (ch : Nat) : (g : Nat) →
    (((groupReg g ch).bind (writeReg b v)).isSome ↔
      (g = 1 ∧ 1 ≤ v.toNat ∧ v.toNat ≤ 255) ∨ ((g = 6 ∨ g = 8) ∧ v.toNat ≤ 65535))
  | 0 | 1 | 2 | 3 | 4 | 5 | 6 | 7 | 8 => by simp [groupReg, writeReg]
  | g + 9 => by simp [groupReg]

/-- The register map admits exactly the writes of rules R203 and R204, as `WritableWith` has them. -/
theorem regOf_write_isSome_iff (cfg : Config) (r : Sel) :
    ((regOf cfg r).bind (writeReg b v)).isSome ↔ WritableWith cfg r.toNat v.toNat := by
  rcases Nat.lt_or_ge r.toNat 16 with hr | hr
  · rw [regOf_of_lt cfg hr, globalReg_write_isSome_iff]
    omega
  · rw [regOf_of_ge hr]
    by_cases hch : r.toNat % 16 < cfg.nch
    · rw [if_pos hch, groupReg_write_isSome_iff]
      omega
    · rw [if_neg hch]
      simp only [Option.bind_none, Option.isSome_none, Bool.false_eq_true, false_iff]
      omega

end

/-! ### WR (rules R202, R204) -/

/-- The meaning of WR (rule R202). -/
theorem exec_wr (r : Sel) (v : Value) (s : State) : exec (.wr r v) s = execWr r v s := rfl

theorem exec_wr_of_fault {s : State} (r : Sel) (v : Value) (hfault : s.block.fault = true) :
    exec (.wr r v) s = .next { s with resp := some ⟨.faulted, 0⟩ } := by
  rw [exec_wr, execWr, unlessFaulted_of_fault _ hfault, refuse_eq]

section
variable {s : State} {r : Sel} {v : Value} (hlive : s.block.fault = false)
include hlive

theorem exec_wr_of_ill_formed (hwf : (Instr.wr r v).wellFormed s.cfg = false) :
    exec (.wr r v) s = .next { s with resp := some ⟨.badArg, 0⟩ } := by
  have hnone : (regOf s.cfg r).bind (writeReg s.block v) = none := by
    rw [← Option.not_isSome_iff_eq_none, regOf_write_isSome_iff]
    exact of_decide_eq_false hwf
  rw [exec_wr, execWr, unlessFaulted_of_live _ hlive, hnone, refuse_eq]

/-- WR of a value that the register takes (rule R202). -/
theorem exec_wr_of_regOf {reg : Reg} {b : Block} (hreg : regOf s.cfg r = some reg)
    (hb : writeReg s.block v reg = some b) :
    exec (.wr r v) s = .next { s with block := b, resp := some ⟨.ok, 0⟩ } := by
  rw [exec_wr, execWr, unlessFaulted_of_live _ hlive, hreg, Option.bind_some, hb]
  rfl

/-- WR of a register without a channel, by its number (rules R202, R203). -/
theorem exec_wr_global {reg : Reg} {b : Block} (hr : r.toNat < 16) (hreg : globalReg r.toNat = some reg)
    (hb : writeReg s.block v reg = some b) :
    exec (.wr r v) s = .next { s with block := b, resp := some ⟨.ok, 0⟩ } :=
  exec_wr_of_regOf hlive ((regOf_of_lt s.cfg hr).trans hreg) hb

end

/-! What a channel register takes: the value of the register's own width, zero-extended (rules R12, R204). -/

section
variable (b : Block) (ch : Nat)

theorem writeReg_k {k : BitVec 8} (hk : k ≠ 0) :
    writeReg b (k.zeroExtend 32) (.k ch) = some (b.setChan ch { b.chan ch with k := k }) := by
  have hpos : k.toNat ≠ 0 := fun h => hk (BitVec.eq_of_toNat_eq h)
  have hval : (k.zeroExtend 32).toNat = k.toNat := BitVec.toNat_setWidth_of_le (by decide)
  have hback : (k.zeroExtend 32).truncate 8 = k := by simp
  rw [writeReg, hval, hback, if_pos ⟨by omega, by omega⟩]

theorem half_zeroExtend_le (x : Half) : (x.zeroExtend 32).toNat ≤ 65535 := by
  rw [BitVec.toNat_setWidth_of_le (by decide)]
  omega

theorem half_truncate_zeroExtend (x : Half) : (x.zeroExtend 32).truncate 16 = x := by simp

theorem writeReg_offs (x : Half) :
    writeReg b (x.zeroExtend 32) (.offs ch) = some (b.setChan ch { b.chan ch with offs := x }) := by
  rw [writeReg, if_pos (half_zeroExtend_le x), half_truncate_zeroExtend]

theorem writeReg_lkt (x : Half) :
    writeReg b (x.zeroExtend 32) (.lkt ch) = some (b.setChan ch { b.chan ch with lkt := x }) := by
  rw [writeReg, if_pos (half_zeroExtend_le x), half_truncate_zeroExtend]

end

/-- Settles O11: a refused WR is one that the register map does not admit; for each writable register, its number is
looked up in the map and the value is then one that it takes. -/
theorem wrStoresLegalValues : Obligations.WrStoresLegalValues := by
  refine ⟨fun w hop => acceptWord_eq_ite (by rw [decode, hop]; rfl) beq_iff_eq,
    fun s r v => ⟨exec_wr_of_fault r v, exec_wr_of_ill_formed⟩, fun s v hlive => ?_⟩
  refine ⟨?external, ?lfo, ?free, ?fixed440, ?extended, ?calScale, ?calOffset, fun ch hn hch =>
    ⟨fun k hk hv => ?k, fun x hv => ?offs, fun x hv => ?lkt⟩⟩
  case calScale => exact exec_wr_global (reg := .calScale) hlive (by decide) rfl rfl
  case calOffset => exact exec_wr_global (reg := .calOffset) hlive (by decide) rfl rfl
  case k =>
    subst hv
    exact exec_wr_of_regOf hlive (regOf_group s.cfg 1 ch hn hch (by decide) (by decide)) (writeReg_k _ ch hk)
  case offs =>
    subst hv
    exact exec_wr_of_regOf hlive (regOf_group s.cfg 6 ch hn hch (by decide) (by decide)) (writeReg_offs _ ch x)
  case lkt =>
    subst hv
    exact exec_wr_of_regOf hlive (regOf_group s.cfg 8 ch hn hch (by decide) (by decide)) (writeReg_lkt _ ch x)
  all_goals
    rintro rfl
    exact exec_wr_global (reg := .law) hlive (by decide) rfl rfl

end Sys2Proof.Machine
end

