-- ==== Sys2Proof/Proofs/Exceptions.lean ====
section
/-!
PROOFS. The FAULT state (rules R220, R226, R227): no completed command writes `fault`, so only the colliding SWR enters
FAULT; and in FAULT the port, every command behind the FAULT check and every event but RESET leave the block as it is.
-/

namespace Sys2Proof.Machine

/-! ### Entering FAULT (rules R220, R226) -/

/-- A register write does not reach `fault` (rules R203, R204). -/
theorem writeReg_fault {b b' : Block} {v : Value} {reg : Reg} (h : writeReg b v reg = some b') : b'.fault = b.fault := by
  rcases writeReg_some h with ⟨l, -, -, rfl⟩ | ⟨-, rfl⟩ | ⟨-, rfl⟩ | ⟨ch, -, -, -, rfl⟩ | ⟨ch, -, -, rfl⟩ | ⟨ch, -, -, rfl⟩
  all_goals rfl

/-- A command that completes does not write `fault`; the entry of rule R226 is no completion. -/
theorem completes_fault {i : Instr} {s : State} {b : Block} {v : Value} (hc : Completes i s b v) :
    b.fault = s.block.fault := by
  cases i with
  | wr r x =>
    obtain ⟨reg, -, hw, -⟩ := hc
    exact writeReg_fault hw
  | nop | conv | unlockm | cal0 | trgtake | trgset =>
    obtain ⟨rfl, -⟩ := hc
    rfl
  | updall | val | lock | unlock | lockm | adv =>
    obtain ⟨-, rfl, -⟩ := hc
    rfl
  | rd | upd | eval | evali | cal1 | rbegin =>
    obtain ⟨_, -, rfl, -⟩ := hc
    rfl
  | qnt | cal3 | swr | rsync =>
    obtain ⟨_, -, -, rfl, -⟩ := hc
    rfl

/-- Settles O56: of the three cases of a command's step only the collision changes `fault`. -/
theorem onlyACollisionEntersFault : Obligations.OnlyACollisionEntersFault := by
  intro i s t h hlive hfault
  cases exec_next i h with
  | turnedAway st _ ht =>
    subst ht
    exact absurd (hlive.symm.trans hfault) Bool.false_ne_true
  | completes b v _ hc ht =>
    subst ht
    have hkept := completes_fault hc
    exact absurd (hlive.symm.trans (hkept.symm.trans hfault)) Bool.false_ne_true
  | collides idx sample hi hidx _ hr hrb ht => exact ⟨idx, sample, hi, hidx, hr, hrb, ht⟩

/-! ### The registers that RD finds (rule R203) -/

theorem globalReg_isSome_iff : (n : Nat) → ((globalReg n).isSome ↔ n ≤ 9)
  | 0 | 1 | 2 | 3 | 4 | 5 | 6 | 7 | 8 | 9 => by simp [globalReg]
  | n + 10 => by simp [globalReg]

theorem groupReg_isSome_iff (ch : Nat) : (g : Nat) → ((groupReg g ch).isSome ↔ 1 ≤ g ∧ g ≤ 8)
  | 0 | 1 | 2 | 3 | 4 | 5 | 6 | 7 | 8 => by simp [groupReg]
  | g + 9 => by simp [groupReg]

/-- The register map has exactly the numbers of rule R203, as `RegNumber` has them. -/
theorem regOf_isSome_iff (cfg : Config) (r : Sel) : (regOf cfg r).isSome ↔ RegNumber cfg r.toNat := by
  rcases Nat.lt_or_ge r.toNat 16 with hr | hr
  · rw [regOf_of_lt cfg hr, globalReg_isSome_iff]
    omega
  · rw [regOf_of_ge hr]
    by_cases hch : r.toNat % 16 < cfg.nch
    · rw [if_pos hch, groupReg_isSome_iff]
      omega
    · rw [if_neg hch]
      simp only [Option.isSome_none, Bool.false_eq_true, false_iff]
      omega

/-- Bit 5 of `STATUS` is `fault` (rule R44). -/
theorem statusWord_getLsbD_five (b : Block) : b.statusWord.getLsbD 5 = b.fault := by
  simp only [Block.statusWord, BitVec.getLsbD_append]
  simp

/-- In FAULT the invariant leaves one cause (rules R41, R48 (g)). -/
theorem fcause_of_fault {s : State} (hinv : s.Inv) (hfault : s.block.fault = true) : s.block.fcause = .ringCollision := by
  obtain ⟨-, -, -, -, ⟨hcause, -⟩, -⟩ := hinv
  have hne : s.block.fcause ≠ .none := hcause.mpr hfault
  cases hc : s.block.fcause with
  | none => exact absurd hc hne
  | ringCollision => rfl

/-! ### Commands in FAULT (rule R227) -/

/-- Every command but NOP and RD stands behind the FAULT check (rule R224, step 1). -/
theorem exec_eq_unlessFaulted {i : Instr} (hnop : i ≠ .nop) (hrd : ∀ r, i ≠ .rd r) (s : State) :
    ∃ k, exec i s = s.unlessFaulted k := by
  cases i with
  | nop => exact absurd rfl hnop
  | rd r => exact absurd rfl (hrd r)
  | _ => exact ⟨_, rfl⟩

/-- An input at the head of the list is taken by its agent (rule R7). -/
theorem step_eq_inputStep {s : State} {a : Input} {rest : List Input} (hin : s.inputs = a :: rest) :
    step s = inputStep a { s with inputs := rest } := by
  rw [step, hin]
  rfl

section
variable {s : State} (hfault : s.block.fault = true)
include hfault

theorem exec_of_fault {i : Instr} (hnop : i ≠ .nop) (hrd : ∀ r, i ≠ .rd r) :
    exec i s = .next { s with resp := some ⟨.faulted, 0⟩ } := by
  obtain ⟨k, hk⟩ := exec_eq_unlessFaulted hnop hrd s
  rw [hk, unlessFaulted_of_fault k hfault, refuse_eq]

/-- In FAULT the port refuses a word by its opcode, before it is decoded (rule R224, step 1). -/
theorem commandStep_of_fault {w : CmdWord} (hnop : fieldOp w ≠ 0x00) (hrd : fieldOp w ≠ 0x01) :
    commandStep w s = .next { s with resp := some ⟨.faulted, 0⟩ } := by
  have hserved : servedInFault w = false := by
    rw [servedInFault, beq_eq_false_iff_ne.mpr hnop, beq_eq_false_iff_ne.mpr hrd, Bool.or_false]
  have haccept : acceptWord true w = .error .faulted := by simp [acceptWord, hserved]
  rw [commandStep, hfault, haccept]
  rfl

/-- ADCDONE, where it can happen, does nothing in FAULT. -/
theorem adcDoneStep_of_fault {vs : List Half} (hlen : vs.length = s.cfg.nch) (hreq : s.block.convPending = true) :
    adcDoneStep vs s = .next { s with resp := none } := by
  simp [adcDoneStep, hreq, hlen, hfault, advance_eq]

/-! No step but RESET changes the block, a step in FAULT taken by each agent in turn. -/

variable {t : State}

theorem exec_block_of_fault {i : Instr} (h : exec i s = .next t) : t.block = s.block := by
  cases exec_next i h with
  | turnedAway st _ ht => rw [ht]
  | completes b v hserved hc ht =>
    rw [ht]
    rcases hserved with rfl | ⟨r, rfl⟩ | hlive
    · exact hc.1
    · obtain ⟨reg, -, hb, -⟩ := hc
      exact hb
    · exact absurd hfault (Bool.eq_false_iff.mp hlive)
  | collides idx sample _ _ hlive => exact absurd hfault (Bool.eq_false_iff.mp hlive)

theorem commandStep_block_of_fault {w : CmdWord} (h : commandStep w s = .next t) : t.block = s.block := by
  unfold commandStep at h
  split at h
  · exact exec_block_of_fault hfault h
  · rw [refuse_next h]

theorem adcDoneStep_block_of_fault {vs : List Half} (h : adcDoneStep vs s = .next t) : t.block = s.block := by
  rw [adcDoneStep, if_pos hfault] at h
  split at h
  · cases h
  · split at h
    · cases h
    · rw [advance_next h]

theorem inputStep_block_of_fault {a : Input} (ha : a ≠ .reset) (h : inputStep a s = .next t) : t.block = s.block := by
  cases a with
  | cmd w => exact commandStep_block_of_fault hfault h
  | tick g =>
    rw [inputStep, tickStep_of_fault g hfault] at h
    cases h
    rfl
  | adcDone vs => exact adcDoneStep_block_of_fault hfault h
  | reset => exact absurd rfl ha

end

/-- Settles O50: each clause is what its agent does in FAULT, on the state with the input taken. -/
theorem faultIsFrozenUntilReset : Obligations.FaultIsFrozenUntilReset := by
  intro s a rest hfault hin
  rw [step_eq_inputStep hin]
  refine ⟨?word, fun i hnop hrd => exec_of_fault hfault hnop hrd, rfl, fun r hr => ?rd, ?status, fun hinv => ?fcause,
    ?tick, ?scan, ?reset, fun t ha h => inputStep_block_of_fault (s := { s with inputs := rest }) hfault ha h⟩
  case word =>
    rintro w rfl hnop hrd
    exact commandStep_of_fault (s := { s with inputs := rest }) hfault hnop hrd
  case rd =>
    obtain ⟨reg, hreg⟩ := Option.isSome_iff_exists.mp ((regOf_isSome_iff s.cfg r).mpr (of_decide_eq_true hr))
    exact ⟨reg, hreg, exec_rd_of_regOf hreg⟩
  case status =>
    exact ⟨_, exec_rd_global (reg := .status) (by decide) rfl rfl, (statusWord_getLsbD_five s.block).trans hfault⟩
  case fcause =>
    refine exec_rd_global (reg := .fcause) (by decide) rfl ?_
    rw [readReg, fcause_of_fault hinv hfault]
    rfl
  case tick =>
    rintro g rfl
    exact tickStep_of_fault (s := { s with inputs := rest }) g hfault
  case scan =>
    rintro vs rfl hlen hreq
    exact adcDoneStep_of_fault (s := { s with inputs := rest }) hfault hlen hreq
  case reset =>
    rintro rfl
    rfl

end Sys2Proof.Machine
end

