-- ==== Sys2Proof/Proofs/Reset.lean ====
section
/-!
PROOFS. RESET (rule R250): it is the only way out of FAULT, because every other step in FAULT keeps the block (rule R227),
and the block it leaves is `Block.reset`, every register and ring element of which has its value of rule R47.
-/

namespace Sys2Proof.Machine

/-! ### The block after reset (rules R47, R52) -/

/-- In a legal configuration `NB div 2` fits the 4 bits of `pb` (rule R10: `NB` is at most 16). -/
theorem reset_pb_toNat {cfg : Config} (hlegal : cfg.Legal) : (Block.reset cfg).pb.toNat = cfg.nb / 2 := by
  obtain ⟨-, -, -, -, -, -, -, hnb, -⟩ := hlegal
  rw [Block.reset, BitVec.toNat_ofNat, Config.pbLead, Nat.mod_eq_of_lt (by omega)]

theorem reset_audioAt (cfg : Config) (key : Nat) : (Block.reset cfg).audioAt key = 0 := planeRead_nil key

theorem reset_syncAt (cfg : Config) (key : Nat) : (Block.reset cfg).syncAt key = 0 := planeRead_nil key

/-! ### The step of RESET, and leaving FAULT (rules R227, R250) -/

variable {s t : State}

/-- With no input waiting the step changes nothing (rule R252). -/
theorem step_of_no_input (hin : s.inputs = []) : step s = .next s := by
  rw [step, hin]

/-- RESET looks at nothing in the block. -/
theorem step_reset {rest : List Input} (hin : s.inputs = .reset :: rest) :
    step s = .next { s with block := Block.reset s.cfg, inputs := rest, resp := none } := by
  rw [step_eq_inputStep hin]
  rfl

/-- In FAULT a step that changes the block is a RESET. -/
theorem reset_of_block_ne (hfault : s.block.fault = true) (h : step s = .next t) (hne : t.block ≠ s.block) :
    ∃ rest, s.inputs = .reset :: rest := by
  cases hin : s.inputs with
  | nil =>
    rw [step_of_no_input hin] at h
    cases h
    exact absurd rfl hne
  | cons a rest =>
    rw [step_eq_inputStep hin] at h
    by_cases ha : a = .reset
    · exact ⟨rest, by rw [ha]⟩
    · exact absurd (inputStep_block_of_fault (s := { s with inputs := rest }) hfault ha h) hne

/-- Settles O57: leaving FAULT changes the block, which there only RESET does; and RESET leaves `Block.reset`. -/
theorem resetFromEveryState : Obligations.ResetFromEveryState := by
  refine ⟨fun s t h hfault hlive => reset_of_block_ne hfault h ?changed, fun s rest hin => ⟨_, step_reset hin, ?values⟩⟩
  case changed =>
    intro hsame
    rw [hsame, hfault] at hlive
    exact Bool.false_ne_true hlive.symm
  case values =>
    exact ⟨rfl, rfl, rfl, rfl, rfl, rfl, rfl, rfl, reset_pb_toNat, rfl, rfl, rfl, rfl, rfl, rfl, rfl, rfl,
      reset_audioAt s.cfg, reset_syncAt s.cfg⟩

end Sys2Proof.Machine
end

section
/-!
PROOFS. The invariant of reachable states (rules R48, R188): the reset state has it, every completed command and every
event keeps it, and from a state that has it every command, tick and reset has a next state.
-/

namespace Sys2Proof.Machine

/-! ### The state after reset (rules R47, R48) -/

theorem reset_chan (cfg : Config) (ch : Nat) : (Block.reset cfg).chan ch = Channel.reset := by
  rw [Block.chan, Block.reset, List.getD_eq_getElem?_getD, List.getElem?_replicate]
  split <;> rfl

theorem channelOk_reset (p : Bool) : ChannelOk p Channel.reset := by
  cases p <;> decide

theorem blockOk_reset {cfg : Config} (h : cfg.Legal) : BlockOk cfg (Block.reset cfg) := by
  have hpb := reset_pb_toNat h
  obtain ⟨-, -, -, -, -, -, hnb, -, hbs, -⟩ := h
  refine ⟨⟨List.length_replicate, fun ch _ => ?channels⟩, ⟨?rb, ?pb, ?cs⟩, Nat.zero_le _,
    ⟨by simp [Block.reset], nofun⟩, nofun, reset_mem_wf cfg, nofun, nofun⟩
  case channels => rw [reset_chan]; exact channelOk_reset _
  case rb => exact Nat.lt_of_lt_of_le (by decide : 0 < 2) hnb
  case pb => rw [hpb]; omega
  case cs => exact hbs

/-- Settles O59: every channel is the reset channel, and `NB div 2` is a slot. -/
theorem resetMeetsInvariant : Obligations.ResetMeetsInvariant :=
  ⟨⟨by decide, blockOk_reset (by decide)⟩, fun _ h => ⟨h, blockOk_reset h⟩⟩

/-! ### What the invariant gives after each kind of write

`BlockOk` reads neither `conv_pending` and `trig_pending` nor the law and the calibration, so a block that differs in those
alone has it by the same proof. -/

section
variable {cfg : Config} {b : Block}

theorem nb_pos (h : cfg.Legal) : 0 < cfg.nb := by
  obtain ⟨-, -, -, -, -, -, hnb, -⟩ := h
  exact Nat.lt_of_lt_of_le (by decide) hnb

theorem bs_pos (h : cfg.Legal) : 0 < cfg.bs := by
  obtain ⟨-, -, -, -, -, -, -, -, hbs, -⟩ := h
  exact hbs

theorem nextSlot_lt (h : cfg.Legal) (slot : BitVec 4) : (nextSlot cfg slot).toNat < cfg.nb := by
  rw [nextSlot_toNat h]
  exact Nat.mod_lt _ (nb_pos h)

theorem blockOk_setChan {ch : Nat} {c : Channel} (h : BlockOk cfg b) (hc : ch < cfg.nch → ChannelOk (cfg.isPot ch) c) :
    BlockOk cfg (b.setChan ch c) :=
  ⟨channelsOk_setChan h.1 hc, h.2⟩

theorem blockOk_mapChans {f : Nat → Channel → Channel} (h : BlockOk cfg b)
    (hf : ∀ ch c, ChannelOk (cfg.isPot ch) c → ch < cfg.nch → ChannelOk (cfg.isPot ch) (f ch c)) :
    BlockOk cfg (b.mapChans f) := by
  obtain ⟨hchans, hrest⟩ := h
  exact ⟨channelsOk_mapChans hchans fun ch hch => hf ch _ (hchans.2 ch hch) hch, hrest⟩

theorem blockOk_setPitch {p : Half} (h : BlockOk cfg b) (hp : p.toNat ≤ cfg.pitchMax) : BlockOk cfg (b.setPitch p) := by
  obtain ⟨hchans, hidx, -, hrest⟩ := h
  exact ⟨hchans, hidx, hp, hrest⟩

theorem blockOk_setAudio {key : Nat} {v : Half} (h : BlockOk cfg b) (hkey : key < cfg.nb * cfg.bs) :
    BlockOk cfg (b.setAudio key v) := by
  obtain ⟨hchans, hidx, hpitch, hfault, hpass, hwf, haudio, hsync⟩ := h
  exact ⟨hchans, hidx, hpitch, hfault, hpass, Block.setAudio_wf b key v hwf, planeWrite_keys _ _ _ _ hkey haudio, hsync⟩

/-- A register write changes no register that the invariant speaks of (rule R204). -/
theorem blockOk_writeReg {b' : Block} {v : Value} {reg : Reg} (h : BlockOk cfg b) (hw : writeReg b v reg = some b') :
    BlockOk cfg b' := by
  have ⟨⟨_, hchans⟩, _⟩ := h
  rcases writeReg_some hw with
    ⟨l, -, -, rfl⟩ | ⟨-, rfl⟩ | ⟨-, rfl⟩ | ⟨ch, -, -, -, rfl⟩ | ⟨ch, -, -, rfl⟩ | ⟨ch, -, -, rfl⟩
  case inr.inr.inr.inl | inr.inr.inr.inr.inl | inr.inr.inr.inr.inr => exact blockOk_setChan h fun hch => hchans ch hch
  all_goals exact h

/-- The evaluated pitch is a pitch code (rule R149). -/
theorem u16_evaluate_le (b : Block) (h : cfg.Legal) (cv co : Int) : (u16 (b.evaluate cfg cv co)).toNat ≤ cfg.pitchMax := by
  have := u16_evaluate_toNat b h cv co
  have := evaluate_range b cfg cv co
  omega

/-- The grid steps of QNT (rule R153). -/
theorem gridStep_some {grid : Sel} {g : Nat} (h : gridStep grid = some g) : g = 64 ∨ g = 128 := by
  unfold gridStep at h
  split at h <;> simp_all

/-- Outside FAULT the block may open or close a pass, and move `rb`, as far as `PassOk` and the ring allow. -/
theorem blockOk_ofPass {rb : BitVec 4} {rendering : Bool} (h : BlockOk cfg b) (hlive : b.fault = false)
    (hrb : rb.toNat < cfg.nb) (hpass : rendering = true → rb ≠ b.pb) :
    BlockOk cfg { b with rb := rb, rendering := rendering } := by
  obtain ⟨hchans, ⟨-, hpb, hcs⟩, hpitch, ⟨hcause, -⟩, -, hring⟩ := h
  exact ⟨hchans, ⟨hrb, hpb, hcs⟩, hpitch, ⟨hcause, fun hf => absurd (hlive.symm.trans hf) Bool.false_ne_true⟩,
    fun hr he => absurd he (hpass hr), hring⟩

end

/-! ### Commands -/

section
variable {s t : State} {i : Instr} {b : Block} {v : Value}

/-- Every completed command keeps the invariant. -/
theorem completes_blockOk (hinv : s.Inv) (hlive : i = .nop ∨ (∃ r, i = .rd r) ∨ s.block.fault = false)
    (hc : Completes i s b v) : BlockOk s.cfg b := by
  have ⟨hcfg, h⟩ := hinv
  have ⟨⟨hlen, hchans⟩, ⟨hrb, _⟩, _⟩ := h
  cases i with
  | nop | conv | trgtake | trgset =>
    obtain ⟨rfl, -⟩ := hc
    exact h
  | rd r | cal1 =>
    obtain ⟨_, -, rfl, -⟩ := hc
    exact h
  | val ch =>
    obtain ⟨-, rfl, -⟩ := hc
    exact h
  | cal3 | rsync =>
    obtain ⟨_, -, -, rfl, -⟩ := hc
    exact h
  | wr r x =>
    obtain ⟨reg, -, hw, -⟩ := hc
    exact blockOk_writeReg h hw
  | upd ch raw =>
    obtain ⟨-, hk, rfl, -⟩ := hc
    exact blockOk_setChan h fun hch => channelOk_update _ _ (hchans _ hch) hk
  | updall =>
    obtain ⟨hk, rfl, -⟩ := hc
    have hk' := (all_configured hlen).mp hk
    exact ⟨channelsOk_mapChans h.1 fun ch hch => channelOk_update _ _ (hchans ch hch) (hk' ch hch), h.2⟩
  | lock ch target =>
    obtain ⟨hpot, rfl, -⟩ := hc
    refine blockOk_setChan h fun hch => ?_
    have hok := hchans _ hch
    rw [hpot] at hok ⊢
    exact channelOk_lock target hok
  | unlock ch =>
    obtain ⟨hpot, rfl, -⟩ := hc
    refine blockOk_setChan h fun hch => ?_
    have hok := hchans _ hch
    rw [hpot] at hok ⊢
    exact channelOk_unlock hok
  | lockm mask =>
    obtain ⟨hmask, rfl, -⟩ := hc
    refine blockOk_mapChans h fun ch c hok _ => ?_
    split
    · rename_i hbit
      rw [isPot_iff.mpr ((maskLegal_iff mask hcfg).mp hmask ch hbit)] at hok ⊢
      exact channelOk_lock _ hok
    · exact hok
  | unlockm =>
    obtain ⟨rfl, -⟩ := hc
    refine blockOk_mapChans h fun ch c hok _ => ?_
    split
    · rename_i hpot
      rw [hpot] at hok ⊢
      exact channelOk_unlock hok
    · exact hok
  | cal0 =>
    obtain ⟨rfl, -⟩ := hc
    refine blockOk_mapChans h fun ch c hok _ => ?_
    split <;> exact hok
  | eval | evali =>
    obtain ⟨_, rfl, rfl, -⟩ := hc
    exact blockOk_setPitch h (u16_evaluate_le _ hcfg _ _)
  | qnt grid =>
    obtain ⟨_, ⟨-, rfl⟩ | ⟨g, hg, rfl⟩, -, rfl, -⟩ := hc
    · exact h
    · refine blockOk_setPitch h ?_
      rw [u16_roundToGrid_toNat hcfg _ (gridStep_some hg)]
      exact Nat.min_le_right _ _
  | rbegin =>
    obtain ⟨-, hslot, rfl, -⟩ := hc
    exact blockOk_ofPass h (by simpa using hlive) hrb fun _ => hslot
  | swr idx sample =>
    obtain ⟨-, -, hidx, rfl, -⟩ := hc
    exact blockOk_setAudio h (key_lt hrb hidx)
  | adv =>
    obtain ⟨-, rfl, -⟩ := hc
    exact blockOk_ofPass h (by simpa using hlive) (nextSlot_lt hcfg _) nofun

/-- Every command keeps the invariant: the one that enters FAULT does so outside a pass with `rb = pb`. -/
theorem exec_keeps_inv (hinv : s.Inv) (h : exec i s = .next t) : t.Inv := by
  cases exec_next i h with
  | turnedAway st _ ht => subst ht; exact hinv
  | completes b v hlive hc ht =>
    have hok := completes_blockOk hinv hlive hc
    subst ht
    exact ⟨hinv.1, hok⟩
  | collides idx sample _ _ _ hr hrb ht =>
    subst ht
    obtain ⟨hcfg, hchans, hidx, hpitch, -, hpass, hring⟩ := hinv
    exact ⟨hcfg, hchans, hidx, hpitch, ⟨⟨fun _ => rfl, nofun⟩, fun _ => ⟨hr, hrb⟩⟩, hpass, hring⟩

theorem commandStep_keeps_inv {w : CmdWord} (hinv : s.Inv) (h : commandStep w s = .next t) : t.Inv := by
  unfold commandStep at h
  split at h
  · exact exec_keeps_inv hinv h
  · rw [refuse_next h]
    exact hinv

end

/-! ### Events -/

section
variable {s t : State} {cfg : Config} {b : Block}

/-- A tick keeps the consumer's indices in range (rule R173). -/
theorem indicesOk_tickAt (hcfg : cfg.Legal) (h : IndicesOk cfg b) (key : Nat) (g : Bool) :
    IndicesOk cfg (b.tickAt cfg key g) := by
  obtain ⟨hrb, -, -, -, hnext, hwrap⟩ := tickAt_registers b cfg key g
  obtain ⟨hrb', hpb, -⟩ := h
  refine ⟨hrb ▸ hrb', ?_⟩
  by_cases hc : b.cs.toNat + 1 < cfg.bs
  · obtain ⟨hcs, hpb', -⟩ := hnext hc
    rw [hcs, hpb', cs_succ_toNat hcfg hc]
    exact ⟨hpb, hc⟩
  · obtain ⟨hcs, hpb', -⟩ := hwrap hc
    rw [hcs, hpb']
    exact ⟨nextSlot_lt hcfg _, bs_pos hcfg⟩

/-- The consumer enters the slot of an open pass only with `xrun` set (rules R174, R188). -/
theorem passOk_tickAt (h : PassOk b) (key : Nat) (g : Bool) : PassOk (b.tickAt cfg key g) := by
  obtain ⟨hrb, -, -, -, hnext, hwrap⟩ := tickAt_registers b cfg key g
  have hrendering : (b.tickAt cfg key g).rendering = b.rendering := by rw [tickAt_eq]
  intro hr he
  rw [hrendering] at hr
  rw [hrb] at he
  by_cases hc : b.cs.toNat + 1 < cfg.bs
  · obtain ⟨-, hpb, hx⟩ := hnext hc
    rw [hx]
    exact h hr (he.trans hpb)
  · obtain ⟨-, hpb, hx⟩ := hwrap hc
    rw [hx, ← hpb, he]
    simp

theorem blockOk_tickAt (hcfg : cfg.Legal) (h : BlockOk cfg b) (hlive : b.fault = false) {key : Nat}
    (hkey : key < cfg.nb * cfg.bs) (g : Bool) : BlockOk cfg (b.tickAt cfg key g) := by
  obtain ⟨hchans, hidx, hpitch, ⟨hcause, -⟩, hpass, hwf, haudio, hsync⟩ := h
  have hidx' := indicesOk_tickAt hcfg hidx key g
  have hpass' := passOk_tickAt (cfg := cfg) hpass key g
  rw [tickAt_eq] at hidx' hpass' ⊢
  exact ⟨hchans, hidx', hpitch, ⟨hcause, fun hf => absurd (hlive.symm.trans hf) Bool.false_ne_true⟩, hpass',
    Block.setSync_wf b key _ hwf, haudio, planeWrite_keys _ _ _ _ hkey hsync⟩

theorem tickStep_keeps_inv {g : Bool} (hinv : s.Inv) (h : tickStep g s = .next t) : t.Inv := by
  obtain ⟨hcfg, hok⟩ := hinv
  cases hf : s.block.fault with
  | true =>
    rw [tickStep_of_fault g hf] at h
    cases h
    exact ⟨hcfg, hok⟩
  | false =>
    obtain ⟨-, hpb, hcs⟩ : IndicesOk s.cfg s.block := hok.2.1
    rw [tickStep_of_live g hf hpb hcs] at h
    cases h
    exact ⟨hcfg, blockOk_tickAt hcfg hok hf (key_lt hpb hcs) g⟩

/-- What a scan makes of channel `ch` (rule R107). -/
def scanChannel (vs : List Half) (ch : Nat) (c : Channel) : Channel := { c with raw := vs.getD ch c.raw }

/-- The cases of an ADCDONE that steps (rule R107). -/
theorem adcDoneStep_next {vs : List Half} (h : adcDoneStep vs s = .next t) :
    s.block.convPending = true ∧ vs.length = s.cfg.nch ∧
    (s.block.fault = true ∧ t = { s with resp := none } ∨
     s.block.fault = false ∧ t = { s with
       block := { s.block.mapChans (scanChannel vs) with convPending := false }
       resp := none }) := by
  unfold adcDoneStep at h
  split at h
  · cases h
  · rename_i hreq
    split at h
    · cases h
    · rename_i hlen
      refine ⟨by simpa using hreq, not_not.mp hlen, ?_⟩
      split at h
      · rename_i hf
        exact .inl ⟨hf, advance_next h⟩
      · rename_i hf
        exact .inr ⟨Bool.eq_false_iff.mpr hf, advance_next h⟩

theorem adcDoneStep_keeps_inv {vs : List Half} (hinv : s.Inv) (h : adcDoneStep vs s = .next t) : t.Inv := by
  obtain ⟨hcfg, hok⟩ := hinv
  obtain ⟨-, -, ⟨-, rfl⟩ | ⟨-, rfl⟩⟩ := adcDoneStep_next h
  · exact ⟨hcfg, hok⟩
  · have hscan : BlockOk s.cfg (s.block.mapChans (scanChannel vs)) := blockOk_mapChans hok fun _ _ hc _ => hc
    exact ⟨hcfg, hscan⟩

theorem inputStep_keeps_inv {a : Input} (hinv : s.Inv) (h : inputStep a s = .next t) : t.Inv := by
  cases a with
  | cmd w => exact commandStep_keeps_inv hinv h
  | tick g => exact tickStep_keeps_inv hinv h
  | adcDone vs => exact adcDoneStep_keeps_inv hinv h
  | reset =>
    rw [advance_next h]
    exact ⟨hinv.1, blockOk_reset hinv.1⟩

end

/-- Settles O58: agent by agent, on the state with the input taken. -/
theorem stepKeepsInvariant : Obligations.StepKeepsInvariant := by
  intro s t hinv h
  cases hin : s.inputs with
  | nil =>
    rw [step_of_no_input hin] at h
    cases h
    exact hinv
  | cons a rest =>
    rw [step_eq_inputStep hin] at h
    exact inputStep_keeps_inv (s := { s with inputs := rest }) hinv h

/-! ### Every input has a step (rules R9, R51) -/

/-- The model goes on: it stops neither with a fault nor with a refusal of its own. -/
def Steps (k : Result) : Prop := ∃ t, k = .next t

section
variable {s : State} {k : Result}

theorem steps_respond (st : Status) (v : Value) : Steps (s.respond st v) := ⟨_, rfl⟩

theorem steps_refuse (st : Status) : Steps (s.refuse st) := ⟨_, rfl⟩

theorem steps_complete (b : Block) (v : Value) : Steps (s.complete b v) := ⟨_, rfl⟩

theorem steps_unlessFaulted (hk : Steps k) : Steps (s.unlessFaulted k) := by
  unfold State.unlessFaulted
  split
  · exact steps_refuse _
  · exact hk

theorem steps_require {cond : Bool} (st : Status) (hk : cond = true → Steps k) : Steps (s.require cond st k) := by
  cases cond with
  | false => exact steps_refuse st
  | true => exact hk rfl

/-- With `rb` in range, every command has a next state: the ring accesses are behind the check of the index. -/
theorem exec_steps (hrb : s.block.rb.toNat < s.cfg.nb) (i : Instr) : Steps (exec i s) := by
  cases i with
  | nop => exact steps_respond _ _
  | rd r =>
    rw [exec_rd, execRd]
    split
    · exact steps_respond _ _
    · exact steps_refuse _
  | wr r v =>
    rw [exec_wr, execWr]
    refine steps_unlessFaulted ?_
    split
    · exact steps_complete _ _
    · exact steps_refuse _
  | upd ch raw =>
    exact steps_unlessFaulted (steps_require _ fun _ => steps_require _ fun _ => steps_complete _ _)
  | val ch => exact steps_unlessFaulted (steps_require _ fun _ => steps_respond _ _)
  | updall | lock | unlock | lockm | cal3 | adv =>
    exact steps_unlessFaulted (steps_require _ fun _ => steps_complete _ _)
  | conv | unlockm | eval | evali | cal0 | cal1 | trgtake | trgset => exact steps_unlessFaulted (steps_complete _ _)
  | rbegin => exact steps_unlessFaulted (steps_require _ fun _ => steps_require _ fun _ => steps_complete _ _)
  | qnt grid =>
    rw [exec_qnt, execQnt]
    refine steps_unlessFaulted (steps_require _ fun _ => ?_)
    split <;> exact steps_complete _ _
  | swr idx sample =>
    rw [exec_swr, execSwr]
    refine steps_unlessFaulted (steps_require _ fun hidx => ?_)
    split
    · rw [atRing_eq _ hrb (indexExists_iff.mp hidx)]
      exact steps_complete _ _
    · split
      · exact steps_respond _ _
      · exact steps_refuse _
  | rsync idx =>
    rw [exec_rsync, execRsync]
    refine steps_unlessFaulted (steps_require _ fun hidx => steps_require _ fun _ => ?_)
    rw [atRing_eq _ hrb (indexExists_iff.mp hidx)]
    exact steps_respond _ _

theorem commandStep_steps (hrb : s.block.rb.toNat < s.cfg.nb) (w : CmdWord) : Steps (commandStep w s) := by
  unfold commandStep
  split
  · exact exec_steps hrb _
  · exact steps_refuse _

theorem tickStep_steps (h : IndicesOk s.cfg s.block) (g : Bool) : Steps (tickStep g s) := by
  obtain ⟨-, hpb, hcs⟩ := h
  cases hf : s.block.fault with
  | true => exact ⟨_, tickStep_of_fault g hf⟩
  | false => exact ⟨_, tickStep_of_live g hf hpb hcs⟩

/-- A scan that can happen has a step. -/
theorem adcDoneStep_steps {vs : List Half} (hreq : s.block.convPending = true) (hlen : vs.length = s.cfg.nch) :
    Steps (adcDoneStep vs s) := by
  unfold adcDoneStep
  rw [hreq, Bool.not_true, if_neg Bool.false_ne_true, if_neg (not_not.mpr hlen)]
  split <;> exact ⟨_, rfl⟩

end

/-- Settles O60: agent by agent, the ring indices being in range. -/
theorem everyInputSteps : Obligations.EveryInputSteps := by
  rintro s ⟨-, -, hidx, -⟩
  cases hin : s.inputs with
  | nil => exact .inl ⟨_, step_of_no_input hin⟩
  | cons a rest =>
    rw [step_eq_inputStep hin]
    cases a with
    | cmd w => exact .inl (commandStep_steps (s := { s with inputs := rest }) hidx.1 w)
    | tick g => exact .inl (tickStep_steps (s := { s with inputs := rest }) hidx g)
    | adcDone vs =>
      by_cases hscan : s.block.convPending = true ∧ vs.length = s.cfg.nch
      · exact .inl (adcDoneStep_steps (s := { s with inputs := rest }) hscan.1 hscan.2)
      · refine .inr ⟨vs, rest, rfl, ?_⟩
        simpa only [not_and_or, Bool.not_eq_true] using hscan
    | reset => exact .inl ⟨_, rfl⟩

end Sys2Proof.Machine
end

section
/-!
PROOFS. The command word (rules R70 to R77) and the step (rules R58, R224): decoding and encoding are inverse to each other,
arm by arm of the decoder, and a step takes the oldest input to the port of its agent.
-/

namespace Sys2Proof

/-! ### Every command is decoded from its encoding (rules R71, R73) -/

/-- The check of `c[31:16]`, and the operand in `c[15:0]`, of a word that was packed with one operand in `c`. -/
theorem fieldCHigh_packWord_lowOperand (op : BitVec 8) (a : Sel) (b x : Half) :
    fieldCHigh (packWord op a b (lowOperand x)) = 0#16 := by
  rw [fieldCHigh_eq, fieldC_packWord, lowOperand_high]

theorem fieldCLow_packWord_lowOperand (op : BitVec 8) (a : Sel) (b x : Half) :
    fieldCLow (packWord op a b (lowOperand x)) = x := by
  rw [fieldCLow_eq, fieldC_packWord, lowOperand_low]

/-- By the kind of operands: none; in `a` or `b` alone; a value in `c`; one in `c[15:0]`. -/
theorem decode_encode (i : Instr) : decode (encode i) = .command i := by
  cases i with
  | nop | updall | conv | unlockm | eval | cal0 | cal1 | cal3 | rbegin | adv | trgtake | trgset => decide
  | rd | val | unlock | qnt | rsync | wr => simp [encode, decode, whenReservedZero]
  | upd | lock | lockm | evali | swr =>
    simp [encode, decode, whenReservedZero, fieldCHigh_packWord_lowOperand, fieldCLow_packWord_lowOperand]

/-- Settles O1: the word by `decode_encode`; the eight bytes give the word back. -/
theorem decodeOfEncode : Obligations.DecodeOfEncode :=
  fun i => ⟨decode_encode i, (decodeBytes_bytesOfNat (encode i)).trans (decode_encode i)⟩

/-! ### A word that decodes is the encoding of its command (rules R72, R76) -/

/-- A word packed from its own fields. -/
theorem packWord_eq {w : CmdWord} {op : BitVec 8} {a : Sel} {b : Half} {c : Value} (hop : (fieldOp w).toNat = op.toNat)
    (ha : a = fieldA w) (hb : b = fieldB w) (hc : c = fieldC w) : packWord op a b c = w := by
  rw [← BitVec.eq_of_toNat_eq hop, ha, hb, hc, packWord_fields]

/-- Where `c[31:16]` is zero, field `c` is its low half as an operand. -/
theorem lowOperand_fieldCLow {w : CmdWord} (h : fieldCHigh w = 0) : lowOperand (fieldCLow w) = fieldC w := by
  rw [fieldCHigh_eq] at h
  rw [fieldCLow_eq, lowOperand_of_high_zero _ h]

/-- In each arm of the decoder, the opcode and the reserved fields are the encoder's constants, and the other fields are
the operands. -/
theorem encode_of_decode {w : CmdWord} {i : Instr} (h : decode w = .command i) : encode i = w := by
  unfold decode at h
  split at h
  case h_24 => cases h
  all_goals
    rename_i hop
    obtain ⟨hzero, rfl⟩ := whenReservedZero_command h
    simp only [Bool.and_eq_true, beq_iff_eq] at hzero
    refine packWord_eq hop ?_ ?_ ?_
    all_goals simp [hzero, lowOperand_fieldCLow]

/-- Settles O2: arm by arm of the decoder. -/
theorem encodeOfDecode : Obligations.EncodeOfDecode := fun _ _ => encode_of_decode

/-- Settles O4: each word is evaluated. -/
theorem writtenOutWordsDecode : Obligations.WrittenOutWordsDecode := by
  refine ⟨?_, ?_, ?_, ?_, ?_, ?_⟩
  all_goals decide

end Sys2Proof

namespace Sys2Proof.Machine

/-! ### The step at the head of the inputs (rules R7, R58, R224) -/

/-- The port passes on every word that decodes, unless FAULT refuses its opcode. -/
theorem acceptWord_of_command {fault : Bool} {w : CmdWord} {i : Instr} (hdec : decode w = .command i)
    (hserved : (fault && !servedInFault w) = false) : acceptWord fault w = .ok i := by
  rw [acceptWord, hserved, hdec, if_neg Bool.false_ne_true]

theorem servedInFault_iff {w : CmdWord} : servedInFault w = true ↔ fieldOp w = 0x00 ∨ fieldOp w = 0x01 := by
  rw [servedInFault, Bool.or_eq_true, beq_iff_eq, beq_iff_eq]

/-- The opcodes that FAULT serves are those of NOP and RD (rules R71, R224). -/
theorem not_nop_rd_of_not_served {w : CmdWord} {i : Instr} (hdec : decode w = .command i)
    (hserved : servedInFault w = false) : i ≠ .nop ∧ ∀ r, i ≠ .rd r := by
  have hw := encode_of_decode hdec
  refine ⟨?_, fun r => ?_⟩
  all_goals
    rintro rfl
    subst hw
    simp [servedInFault, encode] at hserved

/-- In every state, FAULT included, a word that decodes has the effect of its command: the two checks of FAULT agree. -/
theorem commandStep_of_command {s : State} {w : CmdWord} {i : Instr} (hdec : decode w = .command i) :
    commandStep w s = exec i s := by
  by_cases hrefused : (s.block.fault && !servedInFault w) = true
  · obtain ⟨hfault, hserved⟩ : s.block.fault = true ∧ servedInFault w = false := by simpa using hrefused
    obtain ⟨hnop, hrd⟩ := not_nop_rd_of_not_served hdec hserved
    rw [exec_of_fault hfault hnop hrd, commandStep, acceptWord, if_pos hrefused]
    rfl
  · rw [commandStep, acceptWord_of_command hdec (Bool.eq_false_iff.mpr hrefused)]

/-- Settles O5: the port makes of the word its command's meaning, on the state with the word taken. -/
theorem stepRunsDecodedCommand : Obligations.StepRunsDecodedCommand := by
  intro s w rest i hin hdec
  rw [step_eq_inputStep hin]
  exact commandStep_of_command hdec

/-- Settles O6: each event is its agent's step on the state with the input taken. -/
theorem stepRunsEvents : Obligations.StepRunsEvents :=
  fun _ _ => ⟨fun _ hin => step_eq_inputStep hin, fun _ hin => step_eq_inputStep hin, fun hin => step_eq_inputStep hin,
    step_of_no_input⟩

/-- The answer of the port to a word that is no command (rules R72, R76, R224). -/
theorem acceptWord_of_rejected {fault : Bool} {w : CmdWord} {e : DecodeError} (hdec : decode w = .rejected e) :
    acceptWord fault w =
      .error (if fault ∧ fieldOp w ≠ 0x00 ∧ fieldOp w ≠ 0x01 then .faulted else .badOp) := by
  have hiff : (fault && !servedInFault w) = true ↔ fault ∧ fieldOp w ≠ 0x00 ∧ fieldOp w ≠ 0x01 := by
    rw [Bool.and_eq_true, Bool.not_eq_true', ← Bool.not_eq_true, servedInFault_iff, not_or]
  rw [acceptWord, hdec, if_congr hiff rfl rfl]
  split <;> rfl

/-- Settles O7: the port answers by itself, and the answer writes nothing but port `resp`. -/
theorem illegalWordIsRefused : Obligations.IllegalWordIsRefused := by
  intro s w rest e hin hdec
  rw [step_eq_inputStep hin, inputStep, commandStep, acceptWord_of_rejected hdec]
  rfl

end Sys2Proof.Machine
end

section
/-!
PROOFS. What holds of all commands and of all events (rules R49, R221 to R223, R236): the statuses, what a refusal leaves,
which commands write which registers, and which registers an event can write.
-/

namespace Sys2Proof.Machine

section
variable {i : Instr} {s t : State} {b : Block} {v : Value}

/-! ### Statuses (rules R221 to R223) -/

/-- Settles O51: of the three cases of a command's step, one writes nothing, one answers OK, and one enters FAULT. -/
theorem refusalsArePrecise : Obligations.RefusalsArePrecise := by
  intro i s t st v h hresp hst
  cases exec_next i h with
  | turnedAway st' _ ht =>
    subst ht
    cases hresp
    exact ⟨rfl, rfl, rfl, .inl rfl⟩
  | completes b v' _ _ ht =>
    subst ht
    cases hresp
    exact absurd rfl hst
  | collides idx sample _ _ hlive _ _ ht =>
    subst ht
    cases hresp
    exact ⟨rfl, rfl, rfl, .inr ⟨rfl, hlive⟩⟩

/-- A command that steps answers OK or a status of its row of refusals (rules R74, R222). -/
theorem exec_status (h : exec i s = .next t) : ∃ st v, t.resp = some ⟨st, v⟩ ∧ st ∈ Status.ok :: refusalsOf i := by
  cases exec_next i h with
  | turnedAway st hst ht => exact ⟨st, 0, by rw [ht], List.mem_cons_of_mem _ hst⟩
  | completes b v _ _ ht => exact ⟨.ok, v, by rw [ht], List.mem_cons_self⟩
  | collides idx sample hi _ _ _ _ ht =>
    subst hi
    exact ⟨.faulted, 0, by rw [ht], by simp [refusalsOf]⟩

/-- Settles O52: each row of the table is OK and the refusals of the command. -/
theorem statusesOfEachCommand : Obligations.StatusesOfEachCommand := by
  intro i s t h
  obtain ⟨st, v, hresp, hst⟩ := exec_status h
  refine ⟨st, v, hresp, ?_⟩
  cases i <;> exact hst

/-! ### BAD_ARG (rule R221) -/

/-- The outcome is no answer BAD_ARG. -/
def NotBadArg (k : Result) : Prop := ∀ t v, k = .next t → t.resp ≠ some ⟨.badArg, v⟩

theorem notBadArg_respond {st : Status} (hst : st ≠ .badArg) : NotBadArg (s.respond st v) := by
  rintro t w h hresp
  rw [respond_next h] at hresp
  cases hresp
  exact hst rfl

theorem notBadArg_complete : NotBadArg (s.complete b v) := notBadArg_respond (by decide)

theorem notBadArg_require {cond : Bool} {st : Status} {k : Result} (hst : st ≠ .badArg)
    (hk : cond = true → NotBadArg k) : NotBadArg (s.require cond st k) := by
  cases cond with
  | false => exact notBadArg_respond hst
  | true => exact hk rfl

/-- A command whose operand passes the check of rule R224, step 3, answers what stands behind the check. -/
theorem notBadArg_of_checked {cond : Bool} {k : Result} (hlive : s.block.fault = false) (hcond : cond = true)
    (hk : NotBadArg k) : NotBadArg (s.unlessFaulted (s.require cond .badArg k)) := by
  rw [unlessFaulted_of_live _ hlive, hcond, require_true]
  exact hk

/-- A ring access answers what stands behind it, or stops the model. -/
theorem notBadArg_atRing {slot idx : Nat} {k : Nat → Result} (hk : ∀ key, NotBadArg (k key)) :
    NotBadArg (s.atRing slot idx k) := by
  intro t v h
  obtain ⟨-, -, h⟩ := atRing_next h
  exact hk _ t v h

/-- A command without a check of its operands has no BAD_ARG in its row (rule R222). -/
theorem notBadArg_of_row (hrow : Status.badArg ∉ refusalsOf i) : NotBadArg (exec i s) := by
  intro t v h hresp
  obtain ⟨st, w, hst, hmem⟩ := exec_status h
  cases hst.symm.trans hresp
  exact hrow (List.mem_of_ne_of_mem (by decide) hmem)

/-- The write that a well-formed WR asks for is one that the register map admits. -/
theorem exists_write_of_wellFormed {r : Sel} {x : Value} (hwf : (Instr.wr r x).wellFormed s.cfg = true) :
    ∃ b, (regOf s.cfg r).bind (writeReg s.block x) = some b :=
  Option.isSome_iff_exists.mp ((regOf_write_isSome_iff s.block x s.cfg r).mpr (of_decide_eq_true hwf))

theorem exec_rd_of_ill_formed {r : Sel} (hwf : (Instr.rd r).wellFormed s.cfg = false) :
    exec (.rd r) s = .next { s with resp := some ⟨.badArg, 0⟩ } := by
  have hnone : regOf s.cfg r = none := by
    rw [← Option.not_isSome_iff_eq_none, regOf_isSome_iff]
    exact of_decide_eq_false hwf
  rw [exec_rd, execRd, hnone, refuse_eq]

/-- The channel check of LOCK and UNLOCK is the condition of their well-formedness (rules R122, R123). -/
theorem isPot_eq_decide (cfg : Config) (ch : Nat) :
    cfg.isPot ch = decide (ch < cfg.nch ∧ cfg.pots.getLsbD ch = true) := by
  rw [Bool.eq_iff_iff, isPot_iff, decide_eq_true_iff]

theorem maskLegal_eq_decide (cfg : Config) (mask : Half) : maskLegal cfg mask = decide (mask &&& ~~~cfg.pots = 0) :=
  beq_eq_decide _ _

/-- A command that is not well-formed is refused: its operand fails the first check behind that of FAULT. -/
theorem exec_of_ill_formed (hlive : s.block.fault = false ∨ ∃ r, i = .rd r) (hwf : i.wellFormed s.cfg = false) :
    exec i s = .next { s with resp := some ⟨.badArg, 0⟩ } := by
  cases i with
  | rd r => exact exec_rd_of_ill_formed hwf
  | wr r x => exact exec_wr_of_ill_formed (by simpa using hlive) hwf
  | upd ch raw => exact exec_upd_of_no_channel raw (by simpa using hlive) (Nat.not_lt.mp (of_decide_eq_false hwf))
  | val ch => exact exec_val_of_no_channel (by simpa using hlive) (Nat.not_lt.mp (of_decide_eq_false hwf))
  | lock ch target => exact exec_lock_of_no_pot target (by simpa using hlive) ((isPot_eq_decide _ _).trans hwf)
  | unlock ch => exact exec_unlock_of_no_pot (by simpa using hlive) ((isPot_eq_decide _ _).trans hwf)
  | lockm mask => exact exec_lockm_of_illegal (by simpa using hlive) ((maskLegal_eq_decide _ _).trans hwf)
  | qnt grid => exact exec_qnt_of_illegal (by simpa using hlive) (Nat.not_le.mp (of_decide_eq_false hwf))
  | swr idx sample => exact exec_swr_of_no_index sample (by simpa using hlive) (Nat.not_lt.mp (of_decide_eq_false hwf))
  | rsync idx => exact exec_rsync_of_no_index (by simpa using hlive) (Nat.not_lt.mp (of_decide_eq_false hwf))
  | _ => cases hwf

/-- A well-formed command outside FAULT passes the check of its operand, and nothing behind that answers BAD_ARG. -/
theorem notBadArg_of_wellFormed (hlive : s.block.fault = false ∨ ∃ r, i = .rd r) (hwf : i.wellFormed s.cfg = true) :
    NotBadArg (exec i s) := by
  cases i with
  | rd r =>
    obtain ⟨reg, hreg⟩ := Option.isSome_iff_exists.mp ((regOf_isSome_iff s.cfg r).mpr (of_decide_eq_true hwf))
    rw [exec_rd, execRd, hreg]
    exact notBadArg_respond (by decide)
  | wr r x =>
    obtain ⟨b, hb⟩ := exists_write_of_wellFormed hwf
    rw [exec_wr, execWr, unlessFaulted_of_live _ (by simpa using hlive), hb]
    exact notBadArg_complete
  | upd ch raw =>
    exact notBadArg_of_checked (by simpa using hlive) hwf (notBadArg_require (by decide) fun _ => notBadArg_complete)
  | val ch => exact notBadArg_of_checked (by simpa using hlive) hwf (notBadArg_respond (by decide))
  | lock ch target =>
    exact notBadArg_of_checked (by simpa using hlive) ((isPot_eq_decide _ _).trans hwf) notBadArg_complete
  | unlock ch =>
    exact notBadArg_of_checked (by simpa using hlive) ((isPot_eq_decide _ _).trans hwf) notBadArg_complete
  | lockm mask =>
    exact notBadArg_of_checked (by simpa using hlive) ((maskLegal_eq_decide _ _).trans hwf) notBadArg_complete
  | qnt grid =>
    refine notBadArg_of_checked (by simpa using hlive) hwf ?_
    split <;> exact notBadArg_complete
  | swr idx sample =>
    refine notBadArg_of_checked (by simpa using hlive) hwf ?_
    split
    · exact notBadArg_atRing fun _ => notBadArg_complete
    · split <;> exact notBadArg_respond (by decide)
  | rsync idx =>
    exact notBadArg_of_checked (by simpa using hlive) hwf
      (notBadArg_require (by decide) fun _ => notBadArg_atRing fun _ => notBadArg_respond (by decide))
  | _ => exact notBadArg_of_row (by simp [refusalsOf])

/-- Settles O13: an ill-formed command fails the check of its operand; behind that check nothing answers BAD_ARG. -/
theorem badArgExactlyWhenIllFormed : Obligations.BadArgExactlyWhenIllFormed := by
  intro s i hlive
  refine ⟨?_, fun hwf => ⟨_, exec_of_ill_formed hlive hwf, rfl⟩⟩
  rintro ⟨t, h, hresp⟩
  by_contra hwf
  exact notBadArg_of_wellFormed hlive (by simpa using hwf) t 0 h hresp

end

end Sys2Proof.Machine
end

section
/-!
PROOFS. Who writes which register (rules R22 to R43, R49, R236): what a command may write in a channel and in the rest of
the block, said once for the commands that complete; and what a tick, a scan and a reset may write.
-/

namespace Sys2Proof.Machine

/-! ### The registers of a channel (rules R22 to R31) -/

/-- Each register of a channel that `i` changed has the mnemonic of `i` among its writers, and RAW is not changed. -/
structure ChannelWriters (i : Instr) (c c' : Channel) : Prop where
  k : c'.k ≠ c.k → i.mnemonic = "WR"
  lkt : c'.lkt ≠ c.lkt → i.mnemonic = "WR"
  offs : c'.offs ≠ c.offs → i.mnemonic ∈ ["WR", "CAL0"]
  sm : c'.sm ≠ c.sm → i.mnemonic ∈ ["UPD", "UPDALL"]
  lockedv : c'.lockedv ≠ c.lockedv → i.mnemonic ∈ ["LOCK", "LOCKM"]
  snapv : c'.snapv ≠ c.snapv → i.mnemonic ∈ ["LOCK", "LOCKM", "UNLOCK", "UNLOCKM"]
  isLocked : c'.isLocked ≠ c.isLocked → i.mnemonic ∈ ["LOCK", "LOCKM", "UNLOCK", "UNLOCKM"]
  isSnapped : c'.isSnapped ≠ c.isSnapped → i.mnemonic ∈ ["LOCK", "LOCKM", "UNLOCK", "UNLOCKM", "UPD", "UPDALL"]
  raw : c'.raw = c.raw

section
variable {i : Instr} {c : Channel}

theorem channelWriters_refl : ChannelWriters i c c := by
  constructor <;> simp

theorem channelWriters_update (hi : i.mnemonic ∈ ["UPD", "UPDALL"]) (tol : Nat) (raw : Half) :
    ChannelWriters i c (c.update tol raw) := by
  constructor
  case sm => exact fun _ => hi
  case isSnapped => exact fun _ => List.mem_append_right ["LOCK", "LOCKM", "UNLOCK", "UNLOCKM"] hi
  all_goals simp

theorem channelWriters_lock (hi : i.mnemonic ∈ ["LOCK", "LOCKM"]) (target : Half) : ChannelWriters i c (c.lock target) := by
  constructor
  case lockedv => exact fun _ => hi
  case snapv | isLocked => exact fun _ => List.mem_append_left ["UNLOCK", "UNLOCKM"] hi
  case isSnapped => exact fun _ => List.mem_append_left ["UNLOCK", "UNLOCKM", "UPD", "UPDALL"] hi
  all_goals simp [Channel.lock]

theorem channelWriters_unlock (hi : i.mnemonic ∈ ["UNLOCK", "UNLOCKM"]) : ChannelWriters i c c.unlock := by
  cases hl : c.isLocked with
  | false =>
    rw [unlock_of_not_locked hl]
    exact channelWriters_refl
  | true =>
    rw [unlock_of_locked hl]
    constructor
    case snapv | isLocked => exact fun _ => List.mem_append_right ["LOCK", "LOCKM"] hi
    case isSnapped =>
      exact fun _ => List.mem_append_right ["LOCK", "LOCKM"] (List.mem_append_left ["UPD", "UPDALL"] hi)
    all_goals simp

/-! ### The channels of a block -/

/-- The channels of `b'` are those of `b`, with the registers written that `i` may write. -/
def ChannelsWritten (i : Instr) (b b' : Block) : Prop :=
  b'.chans.length = b.chans.length ∧ ∀ ch, ch < b.chans.length → ChannelWriters i (b.chan ch) (b'.chan ch)

variable {b b' : Block}

theorem channelsWritten_of_chans_eq (h : b'.chans = b.chans) : ChannelsWritten i b b' := by
  refine ⟨by rw [h], fun ch _ => ?_⟩
  rw [Block.chan, Block.chan, h]
  exact channelWriters_refl

theorem channelsWritten_setChan {ch : Nat} (h : ChannelWriters i (b.chan ch) c) : ChannelsWritten i b (b.setChan ch c) := by
  refine ⟨by simp, fun x hx => ?_⟩
  by_cases hch : ch < b.chans.length
  · rw [Block.chan_setChan b ch c x hch]
    split
    · rename_i he
      exact he ▸ h
    · exact channelWriters_refl
  · rw [Block.setChan, Block.chan, Block.chan, List.set_eq_of_length_le (Nat.le_of_not_lt hch)]
    exact channelWriters_refl

theorem channelsWritten_mapChans {f : Nat → Channel → Channel} (h : ∀ ch c, ChannelWriters i c (f ch c)) :
    ChannelsWritten i b (b.mapChans f) := by
  refine ⟨by simp, fun ch hch => ?_⟩
  rw [Block.chan_mapChans b f ch hch]
  exact h ch _

/-- A register that is not the same in every channel is not the same in some channel. -/
theorem exists_chan_of_map_ne {α : Type} {f : Channel → α} (hlen : b'.chans.length = b.chans.length)
    (hne : b'.chans.map f ≠ b.chans.map f) : ∃ ch, ch < b.chans.length ∧ f (b'.chan ch) ≠ f (b.chan ch) := by
  by_contra hall
  push Not at hall
  refine hne (List.ext_getElem (by simpa using hlen) fun ch hch' hch => ?_)
  simp only [List.length_map] at hch' hch
  simpa [Block.chan, hch, hch'] using hall ch hch

/-- What is known of a register of each channel, of the register of all. -/
theorem writer_of_map_ne {α : Type} {f : Channel → α} {P : Prop} (h : ChannelsWritten i b b')
    (hf : ∀ c c', ChannelWriters i c c' → f c' ≠ f c → P) (hne : b'.chans.map f ≠ b.chans.map f) : P := by
  obtain ⟨hlen, hchans⟩ := h
  obtain ⟨ch, hch, hne⟩ := exists_chan_of_map_ne hlen hne
  exact hf _ _ (hchans ch hch) hne

end

/-! ### The registers without a channel (rules R32 to R43) -/

/-- Each register of the HOST that `i` changed has the mnemonic of `i` among its writers; the registers of the other agents are
not changed, but that `conv_pending` and `fault` may be set. -/
structure RegistersWritten (i : Instr) (b b' : Block) : Prop where
  law : b'.law ≠ b.law → i.mnemonic = "WR"
  calScale : b'.calScale ≠ b.calScale → i.mnemonic ∈ ["WR", "CAL3"]
  calOffset : b'.calOffset ≠ b.calOffset → i.mnemonic ∈ ["WR", "CAL3"]
  calR1 : b'.calR1 ≠ b.calR1 → i.mnemonic = "CAL1"
  pitch : b'.pitch ≠ b.pitch → i.mnemonic ∈ ["EVAL", "EVALI", "QNT"]
  rb : b'.rb ≠ b.rb → i.mnemonic = "ADV"
  rendering : b'.rendering ≠ b.rendering → i.mnemonic ∈ ["RBEGIN", "ADV"]
  audio : b'.mem.audio ≠ b.mem.audio → i.mnemonic = "SWR"
  pb : b'.pb = b.pb
  cs : b'.cs = b.cs
  gatePrev : b'.gatePrev = b.gatePrev
  xrun : b'.xrun = b.xrun
  dacout : b'.dacout = b.dacout
  sync : b'.mem.sync = b.mem.sync
  convPending : b.convPending = true → b'.convPending = true
  fault : b.fault = true → b'.fault = true

section
variable {i : Instr} {s t : State} {b b' : Block} {v : Value}

theorem registersWritten_refl : RegistersWritten i b b := by
  constructor <;> simp

/-- What a completed command has written, register by register (rule R49). -/
theorem completes_registersWritten (hc : Completes i s b v) : RegistersWritten i s.block b := by
  cases i with
  | wr r x =>
    obtain ⟨reg, -, hw, -⟩ := hc
    rcases writeReg_some hw with
      ⟨l, -, -, rfl⟩ | ⟨-, rfl⟩ | ⟨-, rfl⟩ | ⟨ch, -, -, -, rfl⟩ | ⟨ch, -, -, rfl⟩ | ⟨ch, -, -, rfl⟩
    all_goals constructor <;> simp [Instr.mnemonic]
  | nop | conv | unlockm | cal0 | trgtake | trgset =>
    obtain ⟨rfl, -⟩ := hc
    constructor <;> simp
  | updall | val | lock | unlock | lockm | adv =>
    obtain ⟨-, rfl, -⟩ := hc
    constructor <;> simp [Instr.mnemonic]
  | rd | upd | eval | evali | cal1 | rbegin =>
    obtain ⟨_, -, rfl, -⟩ := hc
    constructor <;> simp [Instr.mnemonic]
  | qnt | cal3 | swr | rsync =>
    obtain ⟨_, -, -, rfl, -⟩ := hc
    constructor <;> simp [Instr.mnemonic]

/-- What a completed command has written in the channels (rule R49). -/
theorem completes_channelsWritten (hc : Completes i s b v) : ChannelsWritten i s.block b := by
  cases i with
  | wr r x =>
    obtain ⟨reg, -, hw, -⟩ := hc
    rcases writeReg_some hw with
      ⟨l, -, -, rfl⟩ | ⟨-, rfl⟩ | ⟨-, rfl⟩ | ⟨ch, -, -, -, rfl⟩ | ⟨ch, -, -, rfl⟩ | ⟨ch, -, -, rfl⟩
    case inr.inr.inr.inl | inr.inr.inr.inr.inl | inr.inr.inr.inr.inr =>
      refine channelsWritten_setChan ?_
      constructor <;> simp [Instr.mnemonic]
    all_goals exact channelsWritten_of_chans_eq rfl
  | upd ch raw =>
    obtain ⟨-, -, rfl, -⟩ := hc
    exact channelsWritten_setChan (channelWriters_update (by simp [Instr.mnemonic]) _ _)
  | updall =>
    obtain ⟨-, rfl, -⟩ := hc
    exact channelsWritten_mapChans fun _ _ => channelWriters_update (by simp [Instr.mnemonic]) _ _
  | lock ch target =>
    obtain ⟨-, rfl, -⟩ := hc
    exact channelsWritten_setChan (channelWriters_lock (by simp [Instr.mnemonic]) _)
  | unlock ch =>
    obtain ⟨-, rfl, -⟩ := hc
    exact channelsWritten_setChan (channelWriters_unlock (by simp [Instr.mnemonic]))
  | lockm mask =>
    obtain ⟨-, rfl, -⟩ := hc
    refine channelsWritten_mapChans fun _ _ => ?_
    split
    · exact channelWriters_lock (by simp [Instr.mnemonic]) _
    · exact channelWriters_refl
  | unlockm =>
    obtain ⟨rfl, -⟩ := hc
    refine channelsWritten_mapChans fun _ _ => ?_
    split
    · exact channelWriters_unlock (by simp [Instr.mnemonic])
    · exact channelWriters_refl
  | cal0 =>
    obtain ⟨rfl, -⟩ := hc
    refine channelsWritten_mapChans fun _ _ => ?_
    split
    · constructor <;> simp [Instr.mnemonic]
    · exact channelWriters_refl
  | nop | conv | trgtake | trgset =>
    obtain ⟨rfl, -⟩ := hc
    exact channelsWritten_of_chans_eq rfl
  | val | adv =>
    obtain ⟨-, rfl, -⟩ := hc
    exact channelsWritten_of_chans_eq rfl
  | rd | eval | evali | cal1 | rbegin =>
    obtain ⟨_, -, rfl, -⟩ := hc
    exact channelsWritten_of_chans_eq rfl
  | qnt | cal3 | swr | rsync =>
    obtain ⟨_, -, -, rfl, -⟩ := hc
    exact channelsWritten_of_chans_eq rfl

/-- What a command that steps has written: nothing, what it completes with, or `fault` and `FCAUSE`. -/
theorem exec_written (h : exec i s = .next t) :
    t.cfg = s.cfg ∧ t.inputs = s.inputs ∧ ChannelsWritten i s.block t.block ∧ RegistersWritten i s.block t.block := by
  cases exec_next i h with
  | turnedAway st _ ht =>
    subst ht
    exact ⟨rfl, rfl, channelsWritten_of_chans_eq rfl, registersWritten_refl⟩
  | completes b v _ hc ht =>
    have hchans := completes_channelsWritten hc
    have hregs := completes_registersWritten hc
    subst ht
    exact ⟨rfl, rfl, hchans, hregs⟩
  | collides idx sample _ _ _ _ _ ht =>
    subst ht
    refine ⟨rfl, rfl, channelsWritten_of_chans_eq rfl, ?_⟩
    constructor <;> simp

/-- Settles O53: by what a command may write; a raw latch, which no command writes, is the same in every channel. -/
theorem commandsKeepOtherAgentsState : Obligations.CommandsKeepOtherAgentsState := by
  intro i s t h
  obtain ⟨hcfg, hin, hchans, hregs⟩ := exec_written h
  refine ⟨hcfg, hin, hregs.pb, hregs.cs, hregs.gatePrev, hregs.xrun, hregs.dacout, hregs.sync, ?raw, hregs.convPending,
    hregs.fault⟩
  by_contra hne
  exact writer_of_map_ne hchans (fun _ _ hw hne => hne hw.raw) hne

/-- Settles O54: register by register. -/
theorem registersHaveTheirWriters : Obligations.RegistersHaveTheirWriters := by
  intro i s t h
  obtain ⟨-, -, hchans, hregs⟩ := exec_written h
  exact ⟨writer_of_map_ne hchans fun _ _ hw => hw.k, writer_of_map_ne hchans fun _ _ hw => hw.lkt,
    writer_of_map_ne hchans fun _ _ hw => hw.offs, writer_of_map_ne hchans fun _ _ hw => hw.sm,
    writer_of_map_ne hchans fun _ _ hw => hw.lockedv, writer_of_map_ne hchans fun _ _ hw => hw.snapv,
    writer_of_map_ne hchans fun _ _ hw => hw.isLocked, writer_of_map_ne hchans fun _ _ hw => hw.isSnapped,
    hregs.law, hregs.calScale, hregs.calOffset, hregs.calR1, hregs.pitch, hregs.rb, hregs.rendering, hregs.audio⟩

/-! ### Outside a pass (rule R188) -/

theorem ringMemory_ext {m n : RingMemory} (haudio : m.audio = n.audio) (hsync : m.sync = n.sync) : m = n := by
  cases m
  cases n
  rw [RingMemory.mk.injEq]
  exact ⟨haudio, hsync⟩

/-- RBEGIN alone opens a pass, behind its check of the slot; SWR alone writes the ring, in a pass. -/
theorem completes_outside_pass (hc : Completes i s b v) (hpass : s.block.rendering = false) :
    (b.rendering = true → b.rb ≠ b.pb) ∧ b.mem = s.block.mem := by
  have hregs := completes_registersWritten hc
  constructor
  · intro hopen
    have hi := hregs.rendering fun he => Bool.false_ne_true (hpass.symm.trans (he.symm.trans hopen))
    cases i with
    | rbegin =>
      obtain ⟨-, hslot, rfl, -⟩ := hc
      exact hslot
    | adv =>
      obtain ⟨-, rfl, -⟩ := hc
      cases hopen
    | _ => simp [Instr.mnemonic] at hi
  · refine ringMemory_ext ?_ hregs.sync
    by_contra hne
    have hi := hregs.audio hne
    cases i with
    | swr idx sample =>
      obtain ⟨hpass', -⟩ := hc
      exact Bool.false_ne_true (hpass.symm.trans hpass')
    | _ => simp [Instr.mnemonic] at hi

/-- Settles O48: a command that is turned away or collides leaves the pass closed and the ring as it was. -/
theorem passStartsOffTheConsumersSlot : Obligations.PassStartsOffTheConsumersSlot := by
  intro i s t h
  rw [← forall_and]
  intro hpass
  cases exec_next i h with
  | turnedAway st _ ht =>
    subst ht
    exact ⟨fun hopen => absurd (hpass.symm.trans hopen) Bool.false_ne_true, rfl⟩
  | completes b v _ hc ht =>
    have hout := completes_outside_pass hc hpass
    subst ht
    exact hout
  | collides idx sample _ _ _ _ _ ht =>
    subst ht
    exact ⟨fun hopen => absurd (hpass.symm.trans hopen) Bool.false_ne_true, rfl⟩

end

/-! ### Events (rules R107, R170, R250) -/

section
variable {s t : State}

/-- The cases of a tick that steps (rules R170, R227). -/
theorem tickStep_next {g : Bool} (h : tickStep g s = .next t) :
    t = { s with resp := none } ∨ ∃ key, t = { s with block := s.block.tickAt s.cfg key g, resp := none } := by
  unfold tickStep at h
  split at h
  · exact .inl (advance_next h)
  · obtain ⟨-, -, h⟩ := atRing_next h
    exact .inr ⟨_, advance_next h⟩

/-- A tick writes seven pieces of the block at most (rule R49). -/
theorem tickAt_frame (b : Block) (cfg : Config) (key : Nat) (g : Bool) :
    b.tickAt cfg key g = { b with
      pb := (b.tickAt cfg key g).pb, cs := (b.tickAt cfg key g).cs, gatePrev := (b.tickAt cfg key g).gatePrev
      xrun := (b.tickAt cfg key g).xrun, dacout := (b.tickAt cfg key g).dacout
      trigPending := (b.tickAt cfg key g).trigPending
      mem := { b.mem with sync := (b.tickAt cfg key g).mem.sync } } := by
  rw [tickAt_eq]

/-- A tick clears neither flag (rules R172, R174). -/
theorem tickAt_keeps_flags (b : Block) (cfg : Config) (key : Nat) (g : Bool) :
    (b.trigPending = true → (b.tickAt cfg key g).trigPending = true) ∧
    (b.xrun = true → (b.tickAt cfg key g).xrun = true) := by
  obtain ⟨-, -, -, htrig, hnext, hwrap⟩ := tickAt_registers b cfg key g
  refine ⟨fun h => by rw [htrig, h, Bool.or_true], fun h => ?_⟩
  by_cases hc : b.cs.toNat + 1 < cfg.bs
  · obtain ⟨-, -, hx⟩ := hnext hc
    rw [hx, h]
  · obtain ⟨-, -, hx⟩ := hwrap hc
    rw [hx, h, Bool.or_true]

/-- Settles O55: event by event, on the state with the input taken. -/
theorem eventsKeepTheHostsState : Obligations.EventsKeepTheHostsState := by
  intro s t rest h
  refine ⟨fun g hin => ?tick, fun vs hin => ?scan, fun hin => ?reset⟩
  case tick =>
    rw [step_tick hin] at h
    rcases tickStep_next h with ht | ⟨key, ht⟩
    · subst ht
      exact ⟨rfl, id, id⟩
    · have hframe := tickAt_frame s.block s.cfg key g
      subst ht
      exact ⟨congrArg (fun b => { s with block := b, inputs := rest, resp := none }) hframe,
        tickAt_keeps_flags s.block s.cfg key g⟩
  case scan =>
    rw [step_eq_inputStep hin] at h
    obtain ⟨-, -, ⟨-, ht⟩ | ⟨-, ht⟩⟩ := adcDoneStep_next h
    · subst ht
      exact ⟨rfl, rfl⟩
    · subst ht
      exact ⟨rfl, map_mapChans (g := scanChannel vs) (fun c => { c with raw := 0 }) s.block fun _ _ => rfl⟩
  case reset =>
    rw [step_reset hin] at h
    cases h
    exact ⟨rfl, rfl, rfl⟩

end

end Sys2Proof.Machine
end

section
/-!
PROOFS. RD of the channel registers and of what WR wrote (rules R201 to R206).
-/

namespace Sys2Proof.Machine

/-! ### RD of the channel registers (rules R201, R203) -/

/-- `LSTATE` as the sum of its two flags (rule R203). -/
theorem lstateWord_eq (c : Channel) :
    c.lstateWord = (if c.isLocked then 1 else 0) + (if c.isSnapped then 2 else 0) := by
  cases hl : c.isLocked <;> cases hs : c.isSnapped <;> simp [Channel.lstateWord, hl, hs]

/-- RD of the register of group `g` of a channel that exists. -/
theorem exec_rd_group {s : State} {ch : Nat} (g : Nat) {reg : Reg} (hn : s.cfg.nch ≤ 16) (hch : ch < s.cfg.nch)
    (h1 : 1 ≤ g) (h8 : g ≤ 8) (hreg : groupReg g ch = some reg) :
    exec (.rd (BitVec.ofNat 8 (g * 16 + ch))) s = .next { s with resp := some ⟨.ok, readReg s.block reg⟩ } :=
  exec_rd_of_regOf ((regOf_group s.cfg g ch hn hch h1 h8).trans hreg)

/-- Settles O10: group by group of the register map. -/
theorem rdReadsChannelRegisters : Obligations.RdReadsChannelRegisters := by
  intro s ch hn hch c
  refine ⟨exec_rd_group 1 hn hch (by decide) (by decide) rfl, exec_rd_group 2 hn hch (by decide) (by decide) rfl, ?lstate,
    exec_rd_group 4 hn hch (by decide) (by decide) rfl, exec_rd_group 5 hn hch (by decide) (by decide) rfl,
    exec_rd_group 6 hn hch (by decide) (by decide) rfl, exec_rd_group 7 hn hch (by decide) (by decide) rfl,
    exec_rd_group 8 hn hch (by decide) (by decide) rfl⟩
  case lstate =>
    rw [← lstateWord_eq]
    exact exec_rd_group 3 hn hch (by decide) (by decide) rfl

/-! ### RD of what WR wrote (rules R205, R206) -/

/-- The code of a law is the number that selects it (rules R32, R204). -/
theorem code_of_lawOfCode {n : Nat} {l : Law} (h : lawOfCode n = some l) : l.code.toNat = n := by
  unfold lawOfCode at h
  split at h <;> cases h <;> rfl

/-- A value that a register of fewer bits holds is what the register reads as. -/
theorem zeroExtend_truncate {w : Nat} {v : Value} (h : v.toNat < 2 ^ w) : (v.truncate w).zeroExtend 32 = v := by
  refine BitVec.eq_of_toNat_eq ?_
  rw [BitVec.toNat_setWidth, BitVec.toNat_setWidth, Nat.mod_eq_of_lt h, Nat.mod_eq_of_lt v.isLt]

/-- A register reads as what was written to it; a channel register where the channel exists. -/
theorem readReg_of_writeReg {b b' : Block} {v : Value} {reg : Reg} (hw : writeReg b v reg = some b')
    (hch : ∀ ch, reg = .k ch ∨ reg = .offs ch ∨ reg = .lkt ch → ch < b.chans.length) : readReg b' reg = v := by
  rcases writeReg_some hw with ⟨l, hl, rfl, rfl⟩ | ⟨rfl, rfl⟩ | ⟨rfl, rfl⟩ | ⟨ch, rfl, -, hv, rfl⟩ | ⟨ch, rfl, hv, rfl⟩ |
    ⟨ch, rfl, hv, rfl⟩
  · refine BitVec.eq_of_toNat_eq ?_
    rw [readReg, BitVec.toNat_setWidth_of_le (by decide), code_of_lawOfCode hl]
  · rfl
  · rfl
  all_goals
    rw [readReg, Block.chan_setChan _ _ _ _ (hch ch (by simp)), if_pos rfl]
    exact zeroExtend_truncate (by omega)

/-- Settles O12: an answer OK is a completed WR; the register it wrote is then read at the same number. -/
theorem rdReturnsWhatWrWrote : Obligations.RdReturnsWhatWrWrote := by
  rintro s t r v ⟨-, ⟨hlen, -⟩, -⟩ h hresp
  cases exec_next (.wr r v) h with
  | turnedAway st hst ht =>
    subst ht
    cases hresp
    simp [refusalsOf] at hst
  | completes b x _ hc ht =>
    obtain ⟨reg, hreg, hw, -⟩ := hc
    have hread : readReg b reg = v := readReg_of_writeReg hw fun ch hr => hlen ▸ regOf_channel hreg ch hr
    subst ht
    rw [← hread]
    exact exec_rd_of_regOf hreg
  | collides idx sample hi _ _ _ _ _ => cases hi

end Sys2Proof.Machine
end

section
/-!
PROOFS. The smoother and the scan: the second form, the bounds and the fixed points of one update (rules R103, R110), and the
latches that ADCDONE loads (rule R107).
-/

namespace Sys2Proof.Machine

/-! ### The smoother (rules R103, R110) -/

/-- Settles O15: division toward zero is the floor where the dividend is not negative or the division is exact, and the floor
plus 1 elsewhere. -/
theorem smootherAgainstSecondForm : Obligations.SmootherAgainstSecondForm := by
  intro s raw k hs hr hk
  have hstep := ema_eq_step hs hr hk
  refine ⟨hstep, ?_⟩
  have hsign : k.sign = 1 := Int.sign_eq_one_of_pos (by omega)
  have hcond : (0 ≤ raw - s ∨ k ∣ raw - s) ↔ (s ≤ raw ∨ k ∣ s - raw) := by
    rw [Int.sub_nonneg, dvd_sub_comm]
  rw [hstep, Int.tdiv_eq_ediv, hsign, if_congr hcond rfl rfl, add_assoc]

section
variable {s v k : Int}

/-- The smoother does not move exactly where the input is less than a window above (rule R110 (a)). -/
theorem ema_eq_self_iff (hs : 0 ≤ s) (hv : 0 ≤ v) (hk : 1 ≤ k) : ema s v k = s ↔ 0 ≤ v - s ∧ v - s ≤ k - 1 := by
  rw [ema_eq_step hs hv hk, add_eq_left, Int.ediv_eq_iff_of_pos (by omega)]
  omega

/-- One update stays between the value and the input (rule R110 (d)). -/
theorem ema_between (hs : 0 ≤ s) (hv : 0 ≤ v) (hk : 1 ≤ k) : min s v ≤ ema s v k ∧ ema s v k ≤ max s v := by
  rw [ema_eq_step hs hv hk]
  rcases le_total s v with h | h
  · have h0 : 0 ≤ (v - s) / k := Int.ediv_nonneg (by omega) (by omega)
    have h1 : (v - s) / k ≤ v - s := Int.ediv_le_self _ (by omega)
    omega
  · have h0 : (v - s) / k ≤ 0 := Int.lt_add_one_iff.mp (Int.ediv_lt_of_lt_mul (by omega) (by omega))
    have h1 : v - s ≤ (v - s) / k := by
      rw [Int.le_ediv_iff_mul_le (by omega)]
      nlinarith
    omega

/-- A larger dividend has no smaller quotient (rule R110 (d)). -/
theorem ema_mono {s' v' : Int} (hs : 0 ≤ s) (hv : 0 ≤ v) (hk : 1 ≤ k) (hss : s ≤ s') (hvv : v ≤ v') :
    ema s v k ≤ ema s' v' k := by
  rw [ema_eq hs hv hk, ema_eq (hs.trans hss) (hv.trans hvv) hk]
  exact Int.ediv_le_ediv (by omega) (Int.add_le_add (Int.mul_le_mul_of_nonneg_left hss (by omega)) hvv)

end

/-- Settles O16: from the smoother as a step toward the input, and as one quotient. -/
theorem smootherFixedPointsAndBounds : Obligations.SmootherFixedPointsAndBounds := by
  intro s v k hs hv hk
  obtain ⟨hlow, hhigh⟩ := ema_between hs hv hk
  exact ⟨ema_eq_self_iff hs hv hk, hlow, hhigh, fun _ h => ema_mono hs hv hk h le_rfl,
    fun _ h => ema_mono hs hv hk le_rfl h⟩

/-- Above its input the smoother falls, and not below the input (rule R110 (b)). -/
theorem ema_falls {s v k : Int} (hv : 0 ≤ v) (hlt : v < s) (hk : 1 ≤ k) : v ≤ ema s v k ∧ ema s v k < s := by
  have hs : 0 ≤ s := by omega
  obtain ⟨hlow, hhigh⟩ := ema_between hs hv hk
  have hmoves : ema s v k ≠ s := fun he => by
    have := (ema_eq_self_iff hs hv hk).mp he
    omega
  omega

/-- Settles O17: by induction on the distance, which each update shortens. -/
theorem smootherArrivesFromAbove : Obligations.SmootherArrivesFromAbove := by
  intro s v k hv hvs hk
  induction hd : (s - v).toNat using Nat.strong_induction_on generalizing s with
  | _ d ih =>
    rcases hvs.eq_or_lt with rfl | hlt
    · exact ⟨0, rfl⟩
    · obtain ⟨hlow, hfall⟩ := ema_falls hv hlt hk
      obtain ⟨n, hn⟩ := ih (ema s v k - v).toNat (by omega) (ema s v k) hlow rfl
      exact ⟨n + 1, hn⟩

/-! ### The scan (rule R107) -/

theorem adcDoneStep_of_live {s : State} {vs : List Half} (hlive : s.block.fault = false)
    (hlen : vs.length = s.cfg.nch) (hreq : s.block.convPending = true) :
    adcDoneStep vs s = .next
      { s with block := { s.block.mapChans (scanChannel vs) with convPending := false }, resp := none } := by
  obtain ⟨t, h⟩ := adcDoneStep_steps hreq hlen
  obtain ⟨-, -, ⟨hfault, -⟩ | ⟨-, rfl⟩⟩ := adcDoneStep_next h
  · exact absurd (hlive.symm.trans hfault) Bool.false_ne_true
  · exact h

/-- Settles O21: a scan of the right width loads each channel from the sample of its number. -/
theorem adcDoneLoadsTheLatches : Obligations.AdcDoneLoadsTheLatches := by
  intro s rest vs hin hwidth hlen
  rw [step_eq_inputStep hin]
  refine ⟨fun hidle => ?idle, fun hreq hfault => ?frozen, fun hreq hlive => ?loads⟩
  case idle => simp [inputStep, adcDoneStep, hidle]
  case frozen => exact adcDoneStep_of_fault (s := { s with inputs := rest }) hfault hwidth hreq
  case loads =>
    refine ⟨s.block.chans.mapIdx (scanChannel vs), ?step, by rw [List.length_mapIdx, hlen], fun ch v hv => ?channel⟩
    case step => exact adcDoneStep_of_live (s := { s with inputs := rest }) hlive hwidth hreq
    case channel =>
      have hch : ch < vs.length := (List.getElem?_eq_some_iff.mp hv).1
      rw [getElem?_mapIdx_chan (by omega), scanChannel, List.getD_eq_getElem?_getD, hv, Option.getD_some]

end Sys2Proof.Machine
end

section
/-!
PROOFS. The effective value of a channel through LOCK and UNLOCK, and through sequences of updates (rules R102, R127, R129).
-/

namespace Sys2Proof.Machine

/-! ### LOCK, then UNLOCK (rule R129 (a)) -/

/-- The captured value becomes the value that the channel waits at. -/
theorem value_unlock_lock {p : Bool} {c : Channel} (target : Half) (h : ChannelOk p c) :
    (c.lock target).unlock.value = c.value := by
  rw [unlock_of_locked rfl, value_of_waiting rfl rfl]
  exact lock_captures target h

theorem sm_unlock_lock (c : Channel) (target : Half) : (c.lock target).unlock.sm = c.sm := by
  rw [unlock_of_locked rfl, Channel.lock]

/-- Settles O28: both commands are accepted, and both write the one channel. -/
theorem lockUnlockKeepsTheValue : Obligations.LockUnlockKeepsTheValue := by
  rintro s t ch target ⟨-, ⟨hlen, hchans⟩, -⟩ hlive hpot h
  obtain ⟨hch, -⟩ := isPot_iff.mp hpot
  have hin : ch.toNat < s.block.chans.length := hlen ▸ hch
  have hlock := exec_lock_of_pot target hlive hpot
  have hunlock := exec_unlock_of_pot (s := { s with
    block := s.block.setChan ch.toNat ((s.block.chan ch.toNat).lock target), resp := some ⟨.ok, 0⟩ }) hlive hpot
  simp only [execAll, hlock, hunlock, Option.some.injEq] at h
  have hchan : t.block.chan ch.toNat = ((s.block.chan ch.toNat).lock target).unlock := by
    rw [← h]
    simp only [Block.chan_setChan, length_setChan, hin, if_true]
  rw [Block.value, Block.value, hchan]
  exact ⟨value_unlock_lock target (hchans _ hch), sm_unlock_lock _ target⟩

/-! ### Updates (rules R102, R124, R129 (b) to (d)) -/

/-- What updates leave of the lock state of a channel: all but `is_snapped`, which they may set. -/
structure LockStateKept (c c' : Channel) : Prop where
  isLocked : c'.isLocked = c.isLocked
  lockedv : c'.lockedv = c.lockedv
  snapv : c'.snapv = c.snapv
  isSnapped : c.isSnapped = true → c'.isSnapped = true

theorem lockStateKept_refl (c : Channel) : LockStateKept c c := ⟨rfl, rfl, rfl, id⟩

theorem LockStateKept.trans {a b c : Channel} (h : LockStateKept a b) (h' : LockStateKept b c) : LockStateKept a c :=
  ⟨h'.isLocked.trans h.isLocked, h'.lockedv.trans h.lockedv, h'.snapv.trans h.snapv, h'.isSnapped ∘ h.isSnapped⟩

theorem lockStateKept_update (c : Channel) (tol : Nat) (raw : Half) : LockStateKept c (c.update tol raw) :=
  ⟨update_isLocked .., update_lockedv .., update_snapv .., fun h => by rw [update_isSnapped, h, Bool.true_or]⟩

/-- Until it snaps, the effective value of a channel is one of the registers that updates leave. -/
theorem value_eq_of_lockStateKept {c c' : Channel} (h : LockStateKept c c')
    (hfrozen : c.isLocked = true ∨ c'.isSnapped = false) : c'.value = c.value := by
  cases hl : c.isLocked with
  | true => rw [value_of_locked hl, value_of_locked (h.isLocked.trans hl), h.lockedv]
  | false =>
    have hs' : c'.isSnapped = false := by simpa [hl] using hfrozen
    have hs : c.isSnapped = false := Bool.eq_false_iff.mpr fun hs => Bool.false_ne_true (hs'.symm.trans (h.isSnapped hs))
    rw [value_of_waiting hl hs, value_of_waiting (h.isLocked.trans hl) hs', h.snapv]

section
variable {s t : State} {i : Instr}

/-- One update, accepted or refused, keeps the lock state of every channel. -/
theorem lockStateKept_of_update (hi : i = .updall ∨ ∃ c raw, i = .upd c raw) (h : exec i s = .next t) {ch : Nat}
    (hch : ch < s.block.chans.length) : LockStateKept (s.block.chan ch) (t.block.chan ch) := by
  obtain ⟨-, -, hchans⟩ := update_next hi h
  rcases hchans ch hch with hsame | ⟨raw, hupd⟩
  · rw [hsame]
    exact lockStateKept_refl _
  · rw [hupd]
    exact lockStateKept_update _ _ _

/-- A sequence of updates runs, and keeps the invariant and the lock state of every channel. -/
theorem execAll_updates (updates : List Instr) (hinv : s.Inv)
    (hupd : ∀ i ∈ updates, i = .updall ∨ ∃ c raw, i = .upd c raw) {ch : Nat} (hch : ch < s.cfg.nch) :
    ∃ t, execAll updates s = some t ∧ t.Inv ∧ t.cfg = s.cfg ∧ LockStateKept (s.block.chan ch) (t.block.chan ch) := by
  induction updates generalizing s with
  | nil => exact ⟨s, rfl, hinv, rfl, lockStateKept_refl _⟩
  | cons i rest ih =>
    obtain ⟨hi, hrest⟩ := List.forall_mem_cons.mp hupd
    have ⟨_, ⟨hlen, _⟩, ⟨hrb, _⟩, _⟩ := hinv
    obtain ⟨u, hu⟩ := exec_steps hrb i
    obtain ⟨hcfg', -⟩ := update_next hi hu
    obtain ⟨t, ht, htinv, htcfg, hkept⟩ := ih (exec_keeps_inv hinv hu) hrest (hcfg'.symm ▸ hch)
    refine ⟨t, by rw [execAll, hu]; exact ht, htinv, htcfg.trans hcfg', ?_⟩
    exact (lockStateKept_of_update hi hu (hlen.symm ▸ hch)).trans hkept

end

/-- Settles O29: the sequence keeps the lock state; by the invariant after it a snapped channel is not LOCKED. -/
theorem frozenUntilTheSnap : Obligations.FrozenUntilTheSnap := by
  intro s ch updates hinv hch hupd
  obtain ⟨t, ht, ⟨-, ⟨-, hchans⟩, -⟩, hcfg, hkept⟩ := execAll_updates updates hinv hupd hch
  obtain ⟨-, -, hexcl, -⟩ := hchans ch (hcfg.symm ▸ hch)
  refine ⟨t, ht, fun hl => ?locked, fun hs => ?waiting, fun hs => ?snapped, hkept.isSnapped⟩
  case locked =>
    have hl' := hkept.isLocked.trans hl
    exact ⟨hl', hexcl hl', value_eq_of_lockStateKept hkept (.inl hl)⟩
  case waiting =>
    exact ⟨hkept.isLocked, Bool.eq_false_iff.mpr fun h => Bool.false_ne_true (hs.symm.trans (hkept.isSnapped h)),
      value_eq_of_lockStateKept hkept (.inr hs)⟩
  case snapped =>
    have hl : (t.block.chan ch).isLocked = false :=
      Bool.eq_false_iff.mpr fun hl => Bool.false_ne_true ((hexcl hl).symm.trans hs)
    exact ⟨hl, value_of_tracking hl hs⟩

/-- At its snap a channel goes from `SNAPV` to the new `SM`, which the snap check found near. -/
theorem value_update_of_snap {c : Channel} {tol : Nat} {raw : Half} (hs : c.isSnapped = false)
    (hs' : (c.update tol raw).isSnapped = true) : |(c.update tol raw).value - c.value| ≤ tol := by
  obtain ⟨hl, -, hnear⟩ : c.isLocked = false ∧ c.isSnapped = false ∧
      |(c.update tol raw).sm.toInt - c.snapv.toNat| ≤ tol := by
    rw [update_eq rfl] at hs'
    simpa only [hs, Bool.false_or, decide_eq_true_iff] using hs'
  rw [value_of_waiting hl hs, value_of_tracking ((update_isLocked ..).trans hl) hs']
  exact hnear

/-- Settles O30: the channel that snaps is one that the update has written. -/
theorem noJumpAtTheSnap : Obligations.NoJumpAtTheSnap := by
  intro s t ch i _ hi h hs hs'
  obtain ⟨-, -, hchans⟩ := update_next hi h
  have hch : ch < s.block.chans.length := by
    by_contra hch
    rw [Block.chan, List.getD_eq_default _ _ (Nat.le_of_not_lt hch)] at hs
    cases hs
  rcases hchans ch hch with hsame | ⟨raw, hupd⟩
  · rw [hsame, hs] at hs'
    cases hs'
  · rw [Block.value, Block.value, hupd]
    rw [hupd] at hs'
    exact value_update_of_snap hs hs'

end Sys2Proof.Machine
end

section
/-!
PROOFS. The quantiser a second time (rule R154), and where a calibration maps its two readings (rule R159).
-/

namespace Sys2Proof.Machine

/-! ### The quantiser, twice (rule R154) -/

/-- A pitch code that is on the grid, or at the clamp above the last grid point it could reach, is rounded to itself. -/
theorem grid_round_idempotent {p max g : Nat} (hg : g = 64 ∨ g = 128) (hp : p ≤ max) :
    min ((min ((p + g / 2) / g * g) max + g / 2) / g * g) max = min ((p + g / 2) / g * g) max := by
  rcases hg with rfl | rfl <;> omega

theorem u16_roundToGrid_idempotent {cfg : Config} (h : cfg.Legal) {p : Half} {g : Nat} (hg : g = 64 ∨ g = 128)
    (hp : p.toNat ≤ cfg.pitchMax) :
    u16 (roundToGrid cfg (u16 (roundToGrid cfg p.toNat g)).toNat g) = u16 (roundToGrid cfg p.toNat g) := by
  refine BitVec.eq_of_toNat_eq ?_
  rw [u16_roundToGrid_toNat h _ hg, u16_roundToGrid_toNat h p hg]
  exact grid_round_idempotent hg hp

/-- The legal grid codes: off, and the two grids with their steps (rule R153). -/
theorem grid_cases {grid : Sel} (h : grid.toNat ≤ 2) :
    grid = 0 ∨ ∃ g, (grid = 1 ∧ g = 64) ∨ (grid = 2 ∧ g = 128) := by
  have hcode : grid.toNat = 0 ∨ grid.toNat = 1 ∨ grid.toNat = 2 := by omega
  rcases hcode with h0 | h1 | h2
  · exact .inl (BitVec.eq_of_toNat_eq h0)
  · exact .inr ⟨64, .inl ⟨BitVec.eq_of_toNat_eq h1, rfl⟩⟩
  · exact .inr ⟨128, .inr ⟨BitVec.eq_of_toNat_eq h2, rfl⟩⟩

/-- Settles O35: the second QNT stores and answers the pitch that the first left. -/
theorem quantiserIsIdempotent : Obligations.QuantiserIsIdempotent := by
  rintro s t grid ⟨hcfg, -, -, hmax, -⟩ hlive hgrid h
  rcases grid_cases hgrid with hoff | ⟨g, hstep⟩
  · rw [exec_qnt_of_off hlive hoff] at h
    cases h
    exact exec_qnt_of_off hlive hoff
  · rw [exec_qnt_of_grid hlive hstep] at h
    have ht := complete_next h
    have htlive : t.block.fault = false := by rw [ht]; exact hlive
    have hcfg' : t.cfg = s.cfg := by rw [ht]
    have hpitch : t.block.pitch = u16 (roundToGrid s.cfg s.block.pitch.toNat g) := by rw [ht]; rfl
    rw [exec_qnt_of_grid htlive hstep, hpitch, hcfg',
      u16_roundToGrid_idempotent hcfg (hstep.imp And.right And.right) hmax, ht]
    rfl

/-! ### The two readings of a calibration (rule R159) -/

/-- Division toward zero is off by less than one unit of the divisor. -/
theorem tdiv_near {b : Int} (a : Int) (hb : 0 < b) : a - b < b * Int.tdiv a b ∧ b * Int.tdiv a b < a + b := by
  have hsum := Int.mul_tdiv_add_tmod a b
  have hlow := Int.lt_tmod_of_pos a hb
  have hhigh := Int.tmod_lt_of_pos a hb
  omega

/-- The scale times the distance of the readings is two octaves, less a remainder below that distance. -/
theorem calScaleOf_mul {r1 r2 : Int} (hne : r2 ≠ r1) :
    12582912 - |r2 - r1| < (r2 - r1) * calScaleOf r1 r2 ∧ (r2 - r1) * calScaleOf r1 r2 ≤ 12582912 := by
  have hsum := Int.mul_tdiv_add_tmod 12582912 (r2 - r1)
  have hlow : 0 ≤ Int.tmod 12582912 (r2 - r1) := Int.tmod_nonneg _ (by decide)
  have hhigh : (Int.tmod 12582912 (r2 - r1)).natAbs < (r2 - r1).natAbs := by
    rw [Int.natAbs_tmod]
    exact Nat.mod_lt _ (Int.natAbs_pos.mpr (sub_ne_zero.mpr hne))
  rw [calScaleOf_eq, Int.abs_eq_natAbs]
  omega

/-- The pitch between the two readings is two octaves, to within the two roundings and the remainder. -/
theorem calibration_span {r1 r2 : Int} (hne : r2 ≠ r1) :
    |Int.tdiv (r2 * calScaleOf r1 r2) 4096 - Int.tdiv (r1 * calScaleOf r1 r2) 4096 - 3072| ≤
      1 + (|r2 - r1| + 4095) / 4096 := by
  obtain ⟨hlow, hhigh⟩ := calScaleOf_mul hne
  obtain ⟨h1, h1'⟩ := tdiv_near (r1 * calScaleOf r1 r2) (b := 4096) (by decide)
  obtain ⟨h2, h2'⟩ := tdiv_near (r2 * calScaleOf r1 r2) (b := 4096) (by decide)
  rw [sub_mul] at hlow hhigh
  rw [abs_le]
  omega

/-- Settles O39: an answer OK is a completed CAL3, whose results fit their registers; the offset anchors the low reading, and
the high one is a span away. -/
theorem calibrationMapsItsReadings : Obligations.CalibrationMapsItsReadings := by
  intro s t v hinv hlive h hresp r1 r2 note
  have h1 : 0 ≤ r1 := Int.natCast_nonneg _
  have h1' : r1 ≤ 65535 := Int.lt_add_one_iff.mp (Int.ofNat_lt.mpr s.block.calR1.isLt)
  obtain ⟨h2, h2'⟩ := block_value_range hinv (chCv_lt_nch hinv.1)
  have hne : r2 ≠ r1 := fun heq => by
    rw [exec_cal3_of_equal_readings hlive heq] at h
    cases h
    cases hresp
  obtain ⟨hscale, hoffset⟩ := u32_calibration_toInt h1 h1' h2 h2' hne
  rw [exec_cal3_of_readings hlive rfl rfl hne] at h
  obtain ⟨ht, ht'⟩ : t.block.calScale.toInt = calScaleOf r1 r2 ∧
      t.block.calOffset.toInt = calOffsetOf r1 (calScaleOf r1 r2) := by
    cases h
    exact ⟨hscale, hoffset⟩
  have hnote (cv : Int) : note cv =
      Int.tdiv (cv * calScaleOf r1 r2) 4096 + (4608 - Int.tdiv (r1 * calScaleOf r1 r2) 4096) := by
    rw [← calOffsetOf_eq, ← ht', ← ht]
  have hspan := calibration_span hne
  rw [hnote, hnote]
  refine ⟨by omega, ?_⟩
  rwa [show ∀ a b : Int, a + (4608 - b) - 7680 = a - b - 3072 by omega]

end Sys2Proof.Machine
end

section
/-!
PROOFS. The ring and its two indices (rules R63, R172 to R174, R185, R187): the distances between the slots as numbers, the
free slots through the steps that move an index, and runs of ticks with no command between them.
-/

namespace Sys2Proof.Machine

/-! ### Distances around the ring (rule R63) -/

/-- The slot after the last one is slot 0. -/
theorem succ_mod_spec {n x : Nat} (hx : x < n) : x + 1 = n ∧ (x + 1) % n = 0 ∨ x + 1 < n ∧ (x + 1) % n = x + 1 := by
  rcases Nat.lt_or_ge (x + 1) n with h | h
  · exact .inr ⟨h, Nat.mod_eq_of_lt h⟩
  · obtain rfl : x + 1 = n := by omega
    exact .inl ⟨rfl, Nat.mod_self _⟩

/-- The distance forward from `x` to `y` is less than once around, with or without the wrap. -/
theorem forward_mod_spec {n x y : Nat} (hx : x ≤ n) (hy : y < n) :
    (y + n - x) % n < n ∧ (x + (y + n - x) % n = y ∨ x + (y + n - x) % n = y + n) := by
  rcases Nat.lt_or_ge y x with h | h
  · rw [Nat.mod_eq_of_lt (show y + n - x < n by omega)]
    omega
  · rw [show y + n - x = (y - x) + n by omega, Nat.add_mod_right, Nat.mod_eq_of_lt (by omega)]
    omega

/-- The distance as rule R63 writes it, on the integers. -/
theorem forward_mod_cast {n x y : Nat} (hx : x ≤ n) : (((y + n - x) % n : Nat) : Int) = ((y : Int) - x) % n := by
  rw [Int.natCast_mod, show ((y + n - x : Nat) : Int) = (y : Int) - x + n by omega, Int.add_emod_right]

section
variable {cfg : Config} {b b' : Block}

/-- The number of free slots leads from `rb` forward to `pb`. -/
theorem free_spec (h : IndicesOk cfg b) :
    b.free cfg < cfg.nb ∧ (b.rb.toNat + b.free cfg = b.pb.toNat ∨ b.rb.toNat + b.free cfg = b.pb.toNat + cfg.nb) :=
  forward_mod_spec h.1.le h.2.1

/-- No slot is free exactly where both indices are on one slot. -/
theorem free_eq_zero_iff (h : IndicesOk cfg b) : b.free cfg = 0 ↔ b.rb = b.pb := by
  have hfree := free_spec h
  obtain ⟨hrb, hpb, -⟩ := h
  rw [← BitVec.toNat_inj]
  omega

/-- The producer takes a free slot when it moves on (rule R182). -/
theorem free_of_next_rb (h : IndicesOk cfg b) (h' : IndicesOk cfg b') (hrb : b'.rb.toNat = (b.rb.toNat + 1) % cfg.nb)
    (hpb : b'.pb = b.pb) (hfree : b.free cfg ≠ 0) : b'.free cfg + 1 = b.free cfg := by
  have hspec := free_spec h
  have hspec' := free_spec h'
  have hnext := succ_mod_spec h.1
  rw [hpb, hrb] at hspec'
  omega

/-- The consumer gives a slot back when it moves on (rule R173). -/
theorem free_of_next_pb (h : IndicesOk cfg b) (h' : IndicesOk cfg b') (hrb : b'.rb = b.rb)
    (hpb : b'.pb.toNat = (b.pb.toNat + 1) % cfg.nb) : b'.free cfg = (b.free cfg + 1) % cfg.nb := by
  have hspec := free_spec h
  have hspec' := free_spec h'
  have hnext := succ_mod_spec h.2.1
  have hnextFree := succ_mod_spec hspec.1
  rw [hpb, hrb] at hspec'
  omega

/-- The consumer's slot changes only by the wrap of a tick, to the next one (rule R173). -/
theorem tickAt_pb_of_ne {key : Nat} {g : Bool} (hne : (b.tickAt cfg key g).pb ≠ b.pb) :
    (b.tickAt cfg key g).pb = nextSlot cfg b.pb := by
  obtain ⟨-, -, -, -, hnext, hwrap⟩ := tickAt_registers b cfg key g
  by_cases hc : b.cs.toNat + 1 < cfg.bs
  · obtain ⟨-, hpb, -⟩ := hnext hc
    exact absurd hpb hne
  · obtain ⟨-, hpb, -⟩ := hwrap hc
    exact hpb

end

/-- Settles O49: clause by clause, by the one index that each step moves. -/
theorem freeSlotsAreAccountedFor : Obligations.FreeSlotsAreAccountedFor := by
  rintro s t ⟨hcfg, -, hidx, -⟩ hlive
  refine ⟨forward_mod_cast hidx.1.le, fun v h hresp => ?rbegin, fun h hpass hfree => ?adv, fun g rest hin h hne => ?tick⟩
  case rbegin =>
    rw [Ne, free_eq_zero_iff hidx]
    intro hslot
    cases hpass : s.block.rendering with
    | true =>
      rw [exec_rbegin_in_pass hlive hpass] at h
      cases h
      cases hresp
    | false =>
      rw [exec_rbegin_of_no_slot hlive hpass hslot] at h
      cases h
      cases hresp
  case adv =>
    cases hr : s.block.rendering with
    | true =>
      rw [exec_adv_in_pass hlive hr] at h
      cases h
      exact free_of_next_rb hidx ⟨nextSlot_lt hcfg _, hidx.2⟩ (nextSlot_toNat hcfg _) rfl hfree
    | false =>
      rw [exec_adv_outside_pass hlive hr] at h
      cases h
      exact absurd rfl hpass
  case tick =>
    rw [step_tick hin] at h
    rcases tickStep_next h with ht | ⟨key, ht⟩
    · subst ht
      exact absurd rfl hne
    · subst ht
      obtain ⟨hrb, -⟩ := tickAt_registers s.block s.cfg key g
      exact free_of_next_pb hidx (indicesOk_tickAt hcfg hidx key g) hrb
        ((congrArg BitVec.toNat (tickAt_pb_of_ne hne)).trans (nextSlot_toNat hcfg _))

/-! ### Runs of ticks -/

/-- The element that the consumer stands on. -/
def Block.consumerKey (b : Block) (cfg : Config) : Nat := b.pb.toNat * cfg.bs + b.cs.toNat

theorem ticks_cons (cfg : Config) (g : Bool) (gs : List Bool) (b : Block) :
    ticks cfg (g :: gs) b = ticks cfg gs (b.tickAt cfg (b.consumerKey cfg) g) := rfl

/-- Ticks alone run, outside FAULT, and leave the block of `ticks`. -/
theorem runSteps_ticks {s : State} (gates : List Bool) (hcfg : s.cfg.Legal) (hidx : IndicesOk s.cfg s.block)
    (hlive : s.block.fault = false) (hin : s.inputs = gates.map .tick) :
    ∃ t, runSteps gates.length s = some t ∧ t.inputs = [] ∧ t.block = ticks s.cfg gates s.block := by
  induction gates generalizing s with
  | nil => exact ⟨s, rfl, hin, rfl⟩
  | cons g gs ih =>
    have hstep : step s = .next { s with
        block := s.block.tickAt s.cfg (s.block.consumerKey s.cfg) g, inputs := gs.map .tick, resp := none } := by
      rw [step_tick hin]
      exact tickStep_of_live (s := { s with inputs := gs.map .tick }) g hlive hidx.2.1 hidx.2.2
    have hlive' : (s.block.tickAt s.cfg (s.block.consumerKey s.cfg) g).fault = false :=
      (tickAt_registers s.block s.cfg (s.block.consumerKey s.cfg) g).2.1.trans hlive
    obtain ⟨t, ht, hdone, hblock⟩ := ih (s := { s with
        block := s.block.tickAt s.cfg (s.block.consumerKey s.cfg) g, inputs := gs.map .tick, resp := none })
      hcfg (indicesOk_tickAt hcfg hidx _ g) hlive' rfl
    exact ⟨t, by rw [List.length_cons, runSteps, hstep]; exact ht, hdone, hblock⟩

section
variable {cfg : Config}

/-! ### The underrun (rules R174, R187) -/

/-- The number of ticks until the consumer enters the render slot (rule R187). -/
def Block.ticksToUnderrun (b : Block) (cfg : Config) : Nat :=
  (b.rb.toNat + cfg.nb - (b.pb.toNat + 1)) % cfg.nb * cfg.bs + (cfg.bs - b.cs.toNat)

theorem ticksToUnderrun_cast {b : Block} (h : IndicesOk cfg b) :
    ((b.ticksToUnderrun cfg : Nat) : Int) =
      (((b.rb.toNat : Int) - b.pb.toNat - 1) % cfg.nb) * cfg.bs + (cfg.bs - b.cs.toNat) := by
  obtain ⟨-, hpb, hcs⟩ := h
  rw [Block.ticksToUnderrun, Nat.cast_add, Nat.cast_mul, forward_mod_cast hpb, Nat.cast_sub hcs.le, Nat.cast_succ, sub_sub]

/-- The whole blocks to play before the render slot: none where it is the next one, else one more than from there. -/
theorem blocks_ahead {b : Block} {pb : BitVec 4} (hrb : b.rb.toNat < cfg.nb) (hpb : b.pb.toNat < cfg.nb)
    (hnext : pb.toNat = (b.pb.toNat + 1) % cfg.nb) :
    (pb = b.rb ∧ (b.rb.toNat + cfg.nb - (b.pb.toNat + 1)) % cfg.nb = 0) ∨
    (pb ≠ b.rb ∧ (b.rb.toNat + cfg.nb - (b.pb.toNat + 1)) % cfg.nb =
      (b.rb.toNat + cfg.nb - (pb.toNat + 1)) % cfg.nb + 1) := by
  have hpb' : pb.toNat < cfg.nb := hnext ▸ Nat.mod_lt _ (by omega)
  have hspec := forward_mod_spec (x := b.pb.toNat + 1) hpb hrb
  have hspec' := forward_mod_spec (x := pb.toNat + 1) hpb' hrb
  have hsucc := succ_mod_spec hpb
  rw [Ne, ← BitVec.toNat_inj]
  omega

/-- A tick is one of the ticks to the underrun; the last of them is the underrun. -/
theorem tickAt_ticksToUnderrun {b : Block} (hcfg : cfg.Legal) (h : IndicesOk cfg b) (key : Nat) (g : Bool) :
    ((b.tickAt cfg key g).ticksToUnderrun cfg + 1 = b.ticksToUnderrun cfg ∧ 
      (b.tickAt cfg key g).xrun = b.xrun) ∨
    (b.ticksToUnderrun cfg = 1 ∧ (b.tickAt cfg key g).xrun = true ∧ (b.tickAt cfg key g).pb = b.rb ∧
      (b.tickAt cfg key g).cs = 0) := by
  have hpos := bs_pos hcfg
  obtain ⟨hrb, -, -, -, hnext, hwrap⟩ := tickAt_registers b cfg key g
  obtain ⟨hrb0, hpb0, hcs0⟩ := h
  by_cases hc : b.cs.toNat + 1 < cfg.bs
  · obtain ⟨hcs, hpb, hx⟩ := hnext hc
    refine .inl ⟨?_, hx⟩
    rw [Block.ticksToUnderrun, Block.ticksToUnderrun, hrb, hpb, hcs, cs_succ_toNat hcfg hc]
    omega
  · obtain ⟨hcs, hpb, hx⟩ := hwrap hc
    rcases blocks_ahead hrb0 hpb0 (nextSlot_toNat hcfg b.pb) with ⟨hslot, hzero⟩ | ⟨hslot, hsucc⟩
    · refine .inr ⟨?_, by rw [hx, hslot, BEq.rfl, Bool.true_or], hpb.trans hslot, hcs⟩
      rw [Block.ticksToUnderrun, hzero]
      omega
    · refine .inl ⟨?_, by rw [hx, beq_eq_false_iff_ne.mpr hslot, Bool.false_or]⟩
      rw [Block.ticksToUnderrun, Block.ticksToUnderrun, hrb, hpb, hcs, hsucc, Nat.succ_mul]
      rw [BitVec.ofNat_eq_ofNat, BitVec.toNat_zero]
      omega

theorem ticksToUnderrun_pos {b : Block} (h : IndicesOk cfg b) : 0 < b.ticksToUnderrun cfg := by
  obtain ⟨-, -, hcs⟩ := h
  exact Nat.add_pos_right _ (Nat.sub_pos_of_lt hcs)

/-- The underrun is recorded from the `T`-th tick on, at which the consumer is at the start of the render slot. -/
theorem ticks_underrun {b : Block} (gates : List Bool) (hcfg : cfg.Legal) (h : IndicesOk cfg b) :
    (ticks cfg gates b).xrun = (b.xrun || decide (b.ticksToUnderrun cfg ≤ gates.length)) ∧
    (gates.length = b.ticksToUnderrun cfg → (ticks cfg gates b).pb = b.rb ∧ (ticks cfg gates b).cs = 0) := by
  induction gates generalizing b with
  | nil =>
    have hpos := ticksToUnderrun_pos h
    refine ⟨?_, fun hT => absurd hT hpos.ne⟩
    rw [List.length_nil, decide_eq_false (Nat.not_le.mpr hpos), Bool.or_false, ticks]
  | cons g gs ih =>
    rw [ticks_cons, List.length_cons]
    have hidx' := indicesOk_tickAt hcfg h (b.consumerKey cfg) g
    obtain ⟨hx, hend⟩ := ih hidx'
    obtain ⟨hrb, -⟩ := tickAt_registers b cfg (b.consumerKey cfg) g
    rcases tickAt_ticksToUnderrun hcfg h (b.consumerKey cfg) g with ⟨hT, hx'⟩ | ⟨hT, hx', hpb, hcs⟩
    · refine ⟨?_, fun hlen => ?_⟩
      · rw [hx, hx', ← hT, decide_eq_decide.mpr (Nat.add_le_add_iff_right (n := 1)).symm]
      · rw [← hrb]
        exact hend (by omega)
    · refine ⟨?_, fun hlen => ?_⟩
      · rw [hx, hx', Bool.true_or, decide_eq_true (by omega), Bool.or_true]
      · obtain rfl : gs = [] := List.length_eq_zero_iff.mp (by omega)
        exact ⟨hpb, hcs⟩

end

/-- Settles O46: the ticks run, and leave the block of `ticks`. -/
theorem underrunAfterExactlyTTicks : Obligations.UnderrunAfterExactlyTTicks := by
  rintro s gates ⟨hcfg, -, hidx, -⟩ hlive hin T
  obtain ⟨t, ht, hdone, hblock⟩ := runSteps_ticks gates hcfg hidx hlive hin
  obtain ⟨hx, hend⟩ := ticks_underrun gates hcfg hidx
  have hT : ((s.block.ticksToUnderrun s.cfg : Nat) : Int) = T := ticksToUnderrun_cast hidx
  rw [← hblock] at hx hend
  rw [← hT]
  refine ⟨t, ht, hdone, ?_, fun hlen => hend (Int.ofNat_inj.mp hlen)⟩
  rw [hx, decide_eq_decide.mpr Int.ofNat_le]

/-! ### The trigger flag (rules R172, R185) -/

theorem ticks_gatePrev (cfg : Config) (gates : List Bool) (b : Block) :
    (ticks cfg gates b).gatePrev = (b.gatePrev :: gates).getLast (List.cons_ne_nil _ _) := by
  induction gates generalizing b with
  | nil => rfl
  | cons g gs ih =>
    obtain ⟨-, -, hgate, -⟩ := tickAt_registers b cfg (b.consumerKey cfg) g
    rw [ticks_cons, ih, List.getLast_cons (List.cons_ne_nil _ _)]
    simp only [hgate]

/-- Two levels after one another in the run of levels, the first of which is `prev`, are a rising edge. -/
def RisesIn (prev : Bool) (gates : List Bool) : Prop :=
  ∃ n : Nat, (prev :: gates)[n]? = some false ∧ gates[n]? = some true

theorem not_risesIn_nil (prev : Bool) : ¬ RisesIn prev [] := by
  rintro ⟨n, -, h⟩
  cases h

/-- A rising edge is the first pair of levels or a later one. -/
theorem risesIn_cons {prev g : Bool} {gs : List Bool} :
    RisesIn prev (g :: gs) ↔ risingEdge g prev = true ∨ RisesIn g gs := by
  constructor
  · rintro ⟨_ | n, hprev, hg⟩
    · simp only [List.getElem?_cons_zero, Option.some.injEq] at hprev hg
      exact .inl (by rw [hprev, hg]; rfl)
    · exact .inr ⟨n, hprev, hg⟩
  · rintro (hedge | ⟨n, hprev, hg⟩)
    · obtain ⟨rfl, rfl⟩ := of_decide_eq_true ((risingEdge_eq g prev).symm.trans hedge)
      exact ⟨0, rfl, rfl⟩
    · exact ⟨n + 1, hprev, hg⟩

/-- The flag after a run of ticks: set before, or set by an edge. -/
theorem ticks_trigPending (cfg : Config) (gates : List Bool) (b : Block) :
    (ticks cfg gates b).trigPending = true ↔ b.trigPending = true ∨ RisesIn b.gatePrev gates := by
  induction gates generalizing b with
  | nil => exact (or_iff_left (not_risesIn_nil _)).symm
  | cons g gs ih =>
    obtain ⟨-, -, hgate, htrig, -⟩ := tickAt_registers b cfg (b.consumerKey cfg) g
    rw [ticks_cons, ih, hgate, htrig, risesIn_cons, Bool.or_eq_true, or_left_comm, or_assoc]

/-- Settles O47: the ticks run, and leave the block of `ticks`. -/
theorem edgesCoalesce : Obligations.EdgesCoalesce := by
  rintro s gates ⟨hcfg, -, hidx, -⟩ hlive hin
  obtain ⟨t, ht, -, hblock⟩ := runSteps_ticks gates hcfg hidx hlive hin
  refine ⟨t, ht, ?_, ?_⟩
  · rw [hblock, ticks_gatePrev]
  · rw [hblock, ticks_trigPending]
    rfl

end Sys2Proof.Machine
end
